-- ==== Sys2Proof/Word.lean ====
section
/-! DEFINITION. The machine's units of data: bytes, nibbles and finite byte sequences (00_scope.md R10, R11, R13). -/

namespace Sys2Proof

/-- A byte: 8 bits, bit 7 the most significant (R10). -/
abbrev Byte := BitVec 8

/-- A nibble: "4-bit half of a byte", 0..15 (R10, R13). -/
abbrev Nibble := BitVec 4

/-- A finite sequence of bytes, counted from 0 (R11). -/
abbrev Bytes := List Byte

end Sys2Proof
end

