-- ==== Sys2Proof/Config.lean ====
section
/-! DEFINITION. What a realisation fixes for the life of an ENGINE: the constants of 00_scope.md R8, the open
parameters of R9, and the uninterpreted functions behind the two plug-ins EXT and PLUG (70_reset_and_hazards.md R323).
The parameters travel in `State.params` and no command writes them (log entry 1). -/

namespace Sys2Proof

/-- Compression level 0..3 (R13). -/
abbrev Level := BitVec 2

/-- Search order, the source's SequenceFirst and NibbleFirst (R13). -/
inductive Order where
  | seqFirst
  | nibFirst
deriving DecidableEq, Repr

/-- `ATUPX_GATE` (R9): how `CFG.native` gates ATUPX (43_dispatcher.md R254). -/
inductive AtupxGate where
  | none
  | requiresNative
  | requiresNotNative
deriving DecidableEq, Repr

/-- `FLAG_FILL` (R9): how PXC picks the nine flags (40_px_compressor.md R145). -/
inductive FlagFill where
  | lowestNine
  | padReserved
deriving DecidableEq, Repr

/-- `PATTERN_RANGE` (R9): what PXD does with a nibble pattern that leaves 0..15 (30_encoding.md R102). -/
inductive PatternRange where
  | fault
  | wrap
deriving DecidableEq, Repr

/-- The MODEL's own parameter: whether PXC, PXD and FDEC run in one step or one PX operation a step. 10_state.md R21
and 70_reset_and_hazards.md R331 allow both; the difference is not observable from outside. DESIGN CHOICE, log entry 6. -/
inductive Granularity where
  | command
  | operation
deriving DecidableEq, Repr

/-- The external ATUPX codec `EXT` when it is present (R9). Its two functions are total and unknown; the lists hold the
part of their graphs that is known, and every other argument goes to the uninterpreted functions
`Config.extCompress` and `Config.extDecompress` (DESIGN CHOICE, log entry 2). -/
structure ExtCodec where
  /-- known values of `compress : Bytes -> Option Bytes` -/
  compressGraph : List (Bytes × Option Bytes) := []
  /-- known values of `decompress : Bytes -> Nat -> Option Bytes` -/
  decompressGraph : List ((Bytes × Nat) × Option Bytes) := []
deriving DecidableEq, Repr

/-- The AT4PN-style plug-in `PLUG` when it is present (42_container_formats.md R234). Its magic is non-empty by
construction. The lists are known parts of the graphs of its functions, as in `ExtCodec`; a Blob is held as a byte
string (DESIGN CHOICE, log entries 2 and 3). -/
structure PlugIn where
  /-- first byte of the non-empty `magic` -/
  magicHead : Byte
  /-- the other bytes of `magic` -/
  magicTail : Bytes := []
  /-- known values of `container_size : Bytes -> Nat -> Option Nat` (result below 2^32) -/
  containerSizeGraph : List ((Bytes × Nat) × Option (BitVec 32)) := []
  /-- known values of `decode : Bytes -> Nat -> Option Blob` -/
  decodeGraph : List ((Bytes × Nat) × Option Bytes) := []
  /-- known values of `serialize : Blob -> Bytes` -/
  serializeGraph : List (Bytes × Bytes) := []
  /-- known values of `compress : Bytes -> Option Blob` -/
  compressGraph : List (Bytes × Option Bytes) := []
  /-- known values of `decompress : Blob -> Option Bytes` -/
  decompressGraph : List (Bytes × Option Bytes) := []
deriving DecidableEq, Repr

/-- The open parameters of R9, each with the spec's default, and the model's own `granularity`. -/
structure Params where
  /-- `EXT`; `none` is ABSENT -/
  ext : Option ExtCodec := none
  /-- `PLUG`; `none` is ABSENT -/
  plug : Option PlugIn := none
  /-- `ATUPX_GATE` -/
  atupxGate : AtupxGate := .none
  /-- `NATIVE_RESET` -/
  nativeReset : Bool := false
  /-- `FMT_LEVEL` -/
  fmtLevel : Level := 3#2
  /-- `FMT_ORDER` -/
  fmtOrder : Order := .seqFirst
  /-- `FLAG_FILL` -/
  flagFill : FlagFill := .lowestNine
  /-- `PATTERN_RANGE` -/
  patternRange : PatternRange := .fault
  /-- `LENW`, at least 32: the width of length and cursor registers in hardware. A model uses naturals (D25), so it
  only bounds what a HOST can write (`State.hostFits` in Safety.lean). -/
  lenw : Nat := 32
  /-- the model's own step size -/
  granularity : Granularity := .command
deriving DecidableEq, Repr

namespace Config

/-- `MAX_INPUT` = 2^31 - 1, the longest PXC input (R8). -/
def maxInput : Nat := 2147483647

/-- `MAX_PAYLOAD`, the longest PXC payload that does not fail (R8). -/
def maxPayload : Nat := 65536

/-- `MAX_CONTAINER`, the longest container (R8). -/
def maxContainer : Nat := 65535

/-- The largest value of a u32 header field (42_container_formats.md R232). -/
def maxU32 : Nat := 4294967295

/-- The largest value of a u16 header field (42_container_formats.md R206, decision D14). -/
def maxU16 : Nat := 65535

/-- `WINDOW`, the lookback window in bytes (R8). -/
def window : Nat := 4096

/-- `MIN_MATCH` (R8). -/
def minMatch : Nat := 3

/-- `MAX_MATCH` (R8). -/
def maxMatch : Nat := 18

/-- `N_RESERVED_MAX` (R8). -/
def maxReserved : Nat := 7

/-- `OPS_PER_BLOCK` (R8). -/
def opsPerBlock : Nat := 8

/-- `RLS_SEED` = {0, 15}, ascending (R8). -/
def rlsSeed : List Nibble := [0#4, 15#4]

/-- The longest candidate list (30_encoding.md R118). -/
def maxCandidates : Nat := 16

/-- `EXT.compress` where `ExtCodec.compressGraph` says nothing: uninterpreted (log entry 2). -/
opaque extCompress : Bytes → Option Bytes

/-- `EXT.decompress` where `ExtCodec.decompressGraph` says nothing: uninterpreted (log entry 2). -/
opaque extDecompress : Bytes → Nat → Option Bytes

/-- `PLUG.container_size`: uninterpreted (log entry 2). -/
opaque plugContainerSize : Bytes → Nat → Option (BitVec 32)

/-- `PLUG.decode`: uninterpreted (log entry 2). -/
opaque plugDecode : Bytes → Nat → Option Bytes

/-- `PLUG.serialize`: uninterpreted (log entry 2). -/
opaque plugSerialize : Bytes → Bytes

/-- `PLUG.compress`: uninterpreted (log entry 2). -/
opaque plugCompress : Bytes → Option Bytes

/-- `PLUG.decompress`: uninterpreted (log entry 2). -/
opaque plugDecompress : Bytes → Option Bytes

end Config

end Sys2Proof
end

