-- ==== Sys2Proof/Syntax.lean ====
section
/-! DEFINITION. The syntax of the machine: container formats, PX operations, the ControlFlagTable, and `Instr`, one
constructor per row of spec/opcode_table.json. -/

namespace Sys2Proof

/-- The container formats (00_scope.md R13). -/
inductive Format where
  | at4pn
  | at3px
  | at4px
  | atupx
  | pkdpx
deriving DecidableEq, Repr

/-- The ControlFlagTable: "exactly 9" entries, each a whole byte as PXD takes it (10_state.md R34). -/
structure Cft where
  f0 : Byte
  f1 : Byte
  f2 : Byte
  f3 : Byte
  f4 : Byte
  f5 : Byte
  f6 : Byte
  f7 : Byte
  f8 : Byte
deriving DecidableEq, Repr

/-- The nine entries in index order. -/
def Cft.entries (t : Cft) : List Byte := [t.f0, t.f1, t.f2, t.f3, t.f4, t.f5, t.f6, t.f7, t.f8]

/-- Entry `i`, the flag that selects pattern index `i` (10_state.md R34). -/
def Cft.get (t : Cft) : Fin 9 → Byte
  | 0 => t.f0
  | 1 => t.f1
  | 2 => t.f2
  | 3 => t.f3
  | 4 => t.f4
  | 5 => t.f5
  | 6 => t.f6
  | 7 => t.f7
  | 8 => t.f8

/-- A PX operation, the source's CompressionOperation (00_scope.md R13). The ranges of `sequence` (offset -4096..-1,
length 3..18) are checked in WellFormed.lean. -/
inductive Op where
  | copyAsIs (b : Byte)
  | nibblePattern (index : Fin 9) (low : Nibble)
  | sequence (offset : Int) (length : Nat)
deriving DecidableEq, Repr

/-- The instructions (00_scope.md R7): the PX stream operations that PXD fetches from a payload, then the host
commands of 30_encoding.md R116. One constructor per row of the opcode table, in its order. -/
inductive Instr where
  -- PX stream (41_px_decompressor.md)
  | cmdb (c : Byte)
  | copy (b : Byte)
  | np0 (low : Nibble)
  | np1 (low : Nibble)
  | np2 (low : Nibble)
  | np3 (low : Nibble)
  | np4 (low : Nibble)
  | np5 (low : Nibble)
  | np6 (low : Nibble)
  | np7 (low : Nibble)
  | np8 (low : Nibble)
  | seq (offset : Int) (length : Nat)
  -- host commands: codecs
  | pxc (level : Level) (order : Order)
  | pxd
  -- host commands: container formats
  | matchAt4pn
  | matchAt3px
  | matchAt4px
  | matchAtupx
  | matchPkdpx
  | csizeAt4pn
  | csizeAt3px
  | csizeAt4px
  | csizeAtupx
  | csizePkdpx
  | fdesAt4pn
  | fdesAt3px
  | fdesAt4px
  | fdesAtupx
  | fdesPkdpx
  | fcompAt4pn
  | fcompAt3px
  | fcompAt4px
  | fcompAtupx
  | fcompPkdpx
  | fser
  | fdec
  -- host commands: dispatcher
  | allow (f : Format)
  | disallow (f : Format)
  | setnative (b : Bool)
  | detect
  | ddes
  | dcomp
deriving DecidableEq, Repr

/-- A PX operation as an instruction: the opcode-table row it belongs to. -/
def Op.toInstr : Op → Instr
  | .copyAsIs b => .copy b
  | .nibblePattern i l =>
    match i with
    | 0 => .np0 l
    | 1 => .np1 l
    | 2 => .np2 l
    | 3 => .np3 l
    | 4 => .np4 l
    | 5 => .np5 l
    | 6 => .np6 l
    | 7 => .np7 l
    | 8 => .np8 l
  | .sequence offset length => .seq offset length

/-- The PX operation an instruction is, if it is one (a command byte and a host command are none). -/
def Instr.toOp : Instr → Option Op
  | .copy b => some (.copyAsIs b)
  | .np0 l => some (.nibblePattern 0 l)
  | .np1 l => some (.nibblePattern 1 l)
  | .np2 l => some (.nibblePattern 2 l)
  | .np3 l => some (.nibblePattern 3 l)
  | .np4 l => some (.nibblePattern 4 l)
  | .np5 l => some (.nibblePattern 5 l)
  | .np6 l => some (.nibblePattern 6 l)
  | .np7 l => some (.nibblePattern 7 l)
  | .np8 l => some (.nibblePattern 8 l)
  | .seq offset length => some (.sequence offset length)
  | .cmdb _ => none
  | .pxc _ _ => none
  | .pxd => none
  | .matchAt4pn => none
  | .matchAt3px => none
  | .matchAt4px => none
  | .matchAtupx => none
  | .matchPkdpx => none
  | .csizeAt4pn => none
  | .csizeAt3px => none
  | .csizeAt4px => none
  | .csizeAtupx => none
  | .csizePkdpx => none
  | .fdesAt4pn => none
  | .fdesAt3px => none
  | .fdesAt4px => none
  | .fdesAtupx => none
  | .fdesPkdpx => none
  | .fcompAt4pn => none
  | .fcompAt3px => none
  | .fcompAt4px => none
  | .fcompAtupx => none
  | .fcompPkdpx => none
  | .fser => none
  | .fdec => none
  | .allow _ => none
  | .disallow _ => none
  | .setnative _ => none
  | .detect => none
  | .ddes => none
  | .dcomp => none

end Sys2Proof
end

