-- ==== Sys2Proof/WellFormed.lean ====
section
/-! DEFINITION. When an instruction can be written at all, and when it can be written under a given ControlFlagTable
(30_encoding.md R96, R97, R100). The encoder of Decode.lean is meant for these. -/

namespace Sys2Proof

/-- The operand ranges of an operation: "offset ∈ [−4096,−1]", "match length ∈ [3,18]" (00_scope.md R13). The other
operands fit by their types. -/
def Op.wf : Op → Bool
  | .copyAsIs _ => true
  | .nibblePattern _ _ => true
  | .sequence offset length =>
    decide (-4096 ≤ offset) && decide (offset ≤ -1) && decide (3 ≤ length) && decide (length ≤ 18)

/-- Whether the table `t` gives the operation an encoding that decodes to it. A NibblePattern needs a flag that is a
nibble and that no lower index holds; a Sequence needs a length code `length - 3` that no entry equals (R97, R190). -/
def Op.encodable (t : Cft) : Op → Bool
  | .copyAsIs _ => true
  | .nibblePattern i _ =>
    decide ((t.get i).toNat < 16) && (t.entries.take i.val).all (fun e => e != t.get i)
  | .sequence _ length => t.entries.all (fun e => e.toNat != length - 3)

/-- A table that keeps the invariants of a table PXC builds: nine nibbles, pairwise distinct (10_state.md R34, R40). -/
def Cft.wf (t : Cft) : Bool :=
  t.entries.all (fun e => decide (e.toNat < 16)) && decide t.entries.Nodup

/-- An instruction is well formed under the table `t`: a PX operation has operands in range and an encoding; command
bytes and host commands are well formed by their types. -/
def Instr.wf (t : Cft) (i : Instr) : Bool :=
  match i.toOp with
  | none => true
  | some op => op.wf && op.encodable t

end Sys2Proof
end

