-- ==== Sys2Proof/Decode.lean ====
section
/-! DEFINITION. Bit fields and byte order, the two decoders (host command words, PX payload bytes), and after them the
encoder (30_encoding.md). Both decoders are total and reject by name. -/

namespace Sys2Proof

/-! ### Bits, nibbles, little-endian integers -/

/-- `hi4(b) = b[7:4]`, the high nibble (00_scope.md R10). -/
def hi4 (b : Byte) : Nibble := b.extractLsb' 4 4

/-- `lo4(b) = b[3:0]`, the low nibble (R10). -/
def lo4 (b : Byte) : Nibble := b.extractLsb' 0 4

/-- `h*16 + l`, the byte with high nibble `h` and low nibble `l` (R10). -/
def joinNibbles (h l : Nibble) : Byte := h ++ l

/-- `s[i]`. Defined by the spec only for `i < len(s)`; every caller has made that check (20_memory.md R66). -/
def byteAt (s : Bytes) (i : Nat) : Byte := s.getD i 0#8

/-- `s[a..b)` (R11). -/
def slice (s : Bytes) (a b : Nat) : Bytes := (s.drop a).take (b - a)

/-- `u16le(s, i)` (R11): least significant byte first (20_memory.md R62). -/
def u16le (s : Bytes) (i : Nat) : BitVec 16 := byteAt s (i + 1) ++ byteAt s i

/-- `u32le(s, i)` (R11). -/
def u32le (s : Bytes) (i : Nat) : BitVec 32 :=
  byteAt s (i + 3) ++ byteAt s (i + 2) ++ byteAt s (i + 1) ++ byteAt s i

/-- `le16(v)` (R11). -/
def le16 (v : BitVec 16) : Bytes := [v.extractLsb' 0 8, v.extractLsb' 8 8]

/-- `le32(v)` (R11). -/
def le32 (v : BitVec 32) : Bytes :=
  [v.extractLsb' 0 8, v.extractLsb' 8 8, v.extractLsb' 16 8, v.extractLsb' 24 8]

/-! ### Format ids and one-bit operands -/

/-- The format ids (30_encoding.md R117). -/
def Format.id : Format → BitVec 3
  | .at4pn => 0
  | .at3px => 1
  | .at4px => 2
  | .atupx => 3
  | .pkdpx => 4

/-- The format of an id; 5, 6 and 7 are none (R117, R119). -/
def Format.ofId (v : BitVec 3) : Option Format :=
  if v = 0 then some .at4pn
  else if v = 1 then some .at3px
  else if v = 2 then some .at4px
  else if v = 3 then some .atupx
  else if v = 4 then some .pkdpx
  else none

/-- `CMD.order`: 0 = SEQ_FIRST, 1 = NIB_FIRST (10_state.md R25). -/
def Order.ofBit (b : Bool) : Order := if b then .nibFirst else .seqFirst

/-- The bit of a search order (R25). -/
def Order.bit : Order → Bool
  | .seqFirst => false
  | .nibFirst => true

/-! ### The host command word -/

/-- `CMD.op` = CW[15:8] (R116). -/
def cwOp (cw : BitVec 16) : Byte := cw.extractLsb' 8 8

/-- The argument byte CW[7:0] (R116). -/
def cwArg (cw : BitVec 16) : Byte := cw.extractLsb' 0 8

/-- `CMD.fmt` = arg[2:0] (R116). -/
def cwFmt (cw : BitVec 16) : BitVec 3 := cw.extractLsb' 0 3

/-- `CMD.level` = arg[1:0] of PXC (R116). -/
def cwLevel (cw : BitVec 16) : Level := cw.extractLsb' 0 2

/-- `CMD.order` = arg[2] of PXC (R116). -/
def cwOrder (cw : BitVec 16) : Order := Order.ofBit (cw.getLsbD 2)

/-- `CMD.bit` = arg[0] of SETNATIVE (R116). -/
def cwBit (cw : BitVec 16) : Bool := cw.getLsbD 0

/-- Why a command word is no command (R119). All three end in IllegalCommand(ReservedEncoding). -/
inductive CommandReject where
  /-- `CMD.op` is not in the table of R116 -/
  | reservedOp
  /-- an argument bit that the table says is 0 is set -/
  | reservedArgument
  /-- `CMD.fmt` is 5, 6 or 7 -/
  | reservedFormat
deriving DecidableEq, Repr

/-- `MATCH.f` (R116). -/
def Format.matchInstr : Format → Instr
  | .at4pn => .matchAt4pn
  | .at3px => .matchAt3px
  | .at4px => .matchAt4px
  | .atupx => .matchAtupx
  | .pkdpx => .matchPkdpx

/-- `CSIZE.f` (R116). -/
def Format.csizeInstr : Format → Instr
  | .at4pn => .csizeAt4pn
  | .at3px => .csizeAt3px
  | .at4px => .csizeAt4px
  | .atupx => .csizeAtupx
  | .pkdpx => .csizePkdpx

/-- `FDES.f` (R116). -/
def Format.fdesInstr : Format → Instr
  | .at4pn => .fdesAt4pn
  | .at3px => .fdesAt3px
  | .at4px => .fdesAt4px
  | .atupx => .fdesAtupx
  | .pkdpx => .fdesPkdpx

/-- `FCOMP.f` (R116). -/
def Format.fcompInstr : Format → Instr
  | .at4pn => .fcompAt4pn
  | .at3px => .fcompAt3px
  | .at4px => .fcompAt4px
  | .atupx => .fcompAtupx
  | .pkdpx => .fcompPkdpx

/-- A command whose argument is a format id: `arg[7:3] = 0` and a legal id (R116, R119). -/
def decodeFormatArg (cw : BitVec 16) (mk : Format → Instr) : Except CommandReject Instr :=
  if (cwArg cw).extractLsb' 3 5 = 0 then
    match Format.ofId (cwFmt cw) with
    | some f => .ok (mk f)
    | none => .error .reservedFormat
  else .error .reservedArgument

/-- A command without an argument: `arg = 0` (R116, R119). -/
def decodeNoArg (cw : BitVec 16) (i : Instr) : Except CommandReject Instr :=
  if cwArg cw = 0 then .ok i else .error .reservedArgument

/-- The command a command word stands for (R116), or why it is reserved (R119). -/
def decodeCommand (cw : BitVec 16) : Except CommandReject Instr :=
  let op := cwOp cw
  if op = 0x01 then
    if (cwArg cw).extractLsb' 3 5 = 0 then .ok (.pxc (cwLevel cw) (cwOrder cw)) else .error .reservedArgument
  else if op = 0x02 then decodeNoArg cw .pxd
  else if op = 0x10 then decodeFormatArg cw Format.matchInstr
  else if op = 0x11 then decodeFormatArg cw Format.csizeInstr
  else if op = 0x12 then decodeFormatArg cw Format.fdesInstr
  else if op = 0x13 then decodeFormatArg cw Format.fcompInstr
  else if op = 0x14 then decodeNoArg cw .fser
  else if op = 0x15 then decodeNoArg cw .fdec
  else if op = 0x20 then decodeFormatArg cw .allow
  else if op = 0x21 then decodeFormatArg cw .disallow
  else if op = 0x22 then
    if (cwArg cw).extractLsb' 1 7 = 0 then .ok (.setnative (cwBit cw)) else .error .reservedArgument
  else if op = 0x23 then decodeNoArg cw .detect
  else if op = 0x24 then decodeNoArg cw .ddes
  else if op = 0x25 then decodeNoArg cw .dcomp
  else .error .reservedOp

/-! ### PX operations -/

/-- Why payload bytes are no operation. A payload has no illegal opcode (R105). -/
inductive StreamReject where
  /-- no byte is left: the run ends here (41_px_decompressor.md R174) -/
  | endOfPayload
  /-- a Sequence whose second byte lies past the end of the payload (R188) -/
  | truncatedSequence
deriving DecidableEq, Repr

/-- The least index whose entry equals the nibble `h`, if any; an entry above 15 equals none (R190). -/
def Cft.find (t : Cft) (h : Nibble) : Option (Fin 9) :=
  let v : Byte := h.setWidth 8
  if t.f0 = v then some 0
  else if t.f1 = v then some 1
  else if t.f2 = v then some 2
  else if t.f3 = v then some 3
  else if t.f4 = v then some 4
  else if t.f5 = v then some 5
  else if t.f6 = v then some 6
  else if t.f7 = v then some 7
  else if t.f8 = v then some 8
  else none

/-- `offset = (lo << 8 | nb) - 4096`, in -4096..-1 (30_encoding.md R98). -/
def seqOffset (lo : Nibble) (nb : Byte) : Int := ((lo.toNat * 256 + nb.toNat : Nat) : Int) - 4096

/-- `length = hi + 3`, in 3..18 (R99). -/
def seqLength (hi : Nibble) : Nat := hi.toNat + 3

/-- The operation at the head of the remaining payload `rest`, governed by the command bit `bit`, under the table `t`
(R100, 41_px_decompressor.md R175, R176). -/
def decodeOp (t : Cft) (bit : Bool) (rest : Bytes) : Except StreamReject Op :=
  match rest with
  | [] => .error .endOfPayload
  | b :: more =>
    if bit then .ok (.copyAsIs b)
    else
      match t.find (hi4 b) with
      | some i => .ok (.nibblePattern i (lo4 b))
      | none =>
        match more with
        | [] => .error .truncatedSequence
        | nb :: _ => .ok (.sequence (seqOffset (lo4 b) nb) (seqLength (hi4 b)))

/-- How many payload bytes an operation occupies: one, or two for a Sequence (30_encoding.md R94). -/
def Op.size : Op → Nat
  | .copyAsIs _ => 1
  | .nibblePattern _ _ => 1
  | .sequence _ _ => 2

/-- The command bit of an operation: "bit = 1 ⇔ CopyAsIs" (R92). -/
def Op.isCopy : Op → Bool
  | .copyAsIs _ => true
  | .nibblePattern _ _ => false
  | .sequence _ _ => false

/-- Operation `k` of a block is governed by bit `7 - k` of the command byte, MSB first (R92, 20_memory.md R64). -/
def commandBit (c : Byte) (k : Nat) : Bool := c.getMsbD k

/-! ### The encoder -/

/-- The bytes of an operation under the table `t` (R95, R96, R97). -/
def encodeOp (t : Cft) : Op → Bytes
  | .copyAsIs b => [b]
  | .nibblePattern i l => [joinNibbles (lo4 (t.get i)) l]
  | .sequence offset length =>
    let u := (offset + 4096).toNat
    [BitVec.ofNat 8 ((length - 3) * 16 + u / 256), BitVec.ofNat 8 (u % 256)]

/-- The command byte of a block whose operations from position `k` on are `ops`; bits past the last operation are 0
(R92, R93). -/
def commandByte : List Op → Nat → Byte
  | [], _ => 0#8
  | op :: ops, k => (if op.isCopy then 1#8 <<< (7 - k) else 0#8) ||| commandByte ops (k + 1)

/-- What an instruction is written as: a host command word, the command byte of a block, or an operation's command bit
and bytes (30_encoding.md sections 1 and 4). -/
inductive Encoding where
  | commandWord (cw : BitVec 16)
  | blockByte (c : Byte)
  | operation (bit : Bool) (bytes : Bytes)
deriving DecidableEq, Repr

/-- The command word `op`, `arg` (R116). -/
def commandWord (op arg : Byte) : BitVec 16 := op ++ arg

/-- The argument byte of a format id: `arg[2:0]` = id, `arg[7:3]` = 0 (R116). -/
def formatArg (f : Format) : Byte := f.id.setWidth 8

/-- The argument byte of PXC: level in bits 1:0, order in bit 2 (R116). -/
def pxcArg (level : Level) (order : Order) : Byte :=
  level.setWidth 8 ||| (if order.bit then 4#8 else 0#8)

/-- The encoding of a PX operation (R94). -/
def Op.encoding (t : Cft) (op : Op) : Encoding := .operation op.isCopy (encodeOp t op)

/-- The encoding of an instruction under the ControlFlagTable `t` (which only PX operations look at). -/
def encode (t : Cft) : Instr → Encoding
  | .cmdb c => .blockByte c
  | .copy b => (Op.copyAsIs b).encoding t
  | .np0 l => (Op.nibblePattern 0 l).encoding t
  | .np1 l => (Op.nibblePattern 1 l).encoding t
  | .np2 l => (Op.nibblePattern 2 l).encoding t
  | .np3 l => (Op.nibblePattern 3 l).encoding t
  | .np4 l => (Op.nibblePattern 4 l).encoding t
  | .np5 l => (Op.nibblePattern 5 l).encoding t
  | .np6 l => (Op.nibblePattern 6 l).encoding t
  | .np7 l => (Op.nibblePattern 7 l).encoding t
  | .np8 l => (Op.nibblePattern 8 l).encoding t
  | .seq offset length => (Op.sequence offset length).encoding t
  | .pxc level order => .commandWord (commandWord 0x01 (pxcArg level order))
  | .pxd => .commandWord (commandWord 0x02 0)
  | .matchAt4pn => .commandWord (commandWord 0x10 (formatArg .at4pn))
  | .matchAt3px => .commandWord (commandWord 0x10 (formatArg .at3px))
  | .matchAt4px => .commandWord (commandWord 0x10 (formatArg .at4px))
  | .matchAtupx => .commandWord (commandWord 0x10 (formatArg .atupx))
  | .matchPkdpx => .commandWord (commandWord 0x10 (formatArg .pkdpx))
  | .csizeAt4pn => .commandWord (commandWord 0x11 (formatArg .at4pn))
  | .csizeAt3px => .commandWord (commandWord 0x11 (formatArg .at3px))
  | .csizeAt4px => .commandWord (commandWord 0x11 (formatArg .at4px))
  | .csizeAtupx => .commandWord (commandWord 0x11 (formatArg .atupx))
  | .csizePkdpx => .commandWord (commandWord 0x11 (formatArg .pkdpx))
  | .fdesAt4pn => .commandWord (commandWord 0x12 (formatArg .at4pn))
  | .fdesAt3px => .commandWord (commandWord 0x12 (formatArg .at3px))
  | .fdesAt4px => .commandWord (commandWord 0x12 (formatArg .at4px))
  | .fdesAtupx => .commandWord (commandWord 0x12 (formatArg .atupx))
  | .fdesPkdpx => .commandWord (commandWord 0x12 (formatArg .pkdpx))
  | .fcompAt4pn => .commandWord (commandWord 0x13 (formatArg .at4pn))
  | .fcompAt3px => .commandWord (commandWord 0x13 (formatArg .at3px))
  | .fcompAt4px => .commandWord (commandWord 0x13 (formatArg .at4px))
  | .fcompAtupx => .commandWord (commandWord 0x13 (formatArg .atupx))
  | .fcompPkdpx => .commandWord (commandWord 0x13 (formatArg .pkdpx))
  | .fser => .commandWord (commandWord 0x14 0)
  | .fdec => .commandWord (commandWord 0x15 0)
  | .allow f => .commandWord (commandWord 0x20 (formatArg f))
  | .disallow f => .commandWord (commandWord 0x21 (formatArg f))
  | .setnative b => .commandWord (commandWord 0x22 (if b then 1 else 0))
  | .detect => .commandWord (commandWord 0x23 0)
  | .ddes => .commandWord (commandWord 0x24 0)
  | .dcomp => .commandWord (commandWord 0x25 0)

/-- What the machine's decoders read back from an encoding under the table `t`: a command word through
`decodeCommand`, a block's first byte as a command byte (R172), an operation's bit and bytes through `decodeOp`. -/
def decode (t : Cft) : Encoding → Option Instr
  | .commandWord cw =>
    match decodeCommand cw with
    | .ok i => some i
    | .error _ => none
  | .blockByte c => some (.cmdb c)
  | .operation bit bytes =>
    match decodeOp t bit bytes with
    | .ok op => some op.toInstr
    | .error _ => none

/-- The instruction the decoder reads from an opcode-table row's bits. Sixteen bits are a host command word (CW is one
16-bit register, so no byte order is involved); eight bits are the first byte of a payload, a command byte. A COPY,
NPi or SEQ byte has no meaning by itself: its command bit and the ControlFlagTable are not among the row's bits
(R100), so there is no word to decode (log entry 17). -/
def decodeTableWord (nbits w : Nat) : Option Instr :=
  if nbits = 16 then
    if w < 65536 then
      match decodeCommand (BitVec.ofNat 16 w) with
      | .ok i => some i
      | .error _ => none
    else none
  else if nbits = 8 then
    if w < 256 then some (.cmdb (BitVec.ofNat 8 w)) else none
  else none

end Sys2Proof
end

