-- ==== Sys2Proof/Machine/State.lean ====
section
/-! DEFINITION. The architectural state of the PX/AT engine (10_state.md) as plain data, the reasons a step can stop,
and the state after reset. -/

namespace Sys2Proof.Machine

/-! ### Byte buffers -/

/-- One of the four byte spaces SRC, DST, OUT, CT.payload (20_memory.md R60), as its cells. -/
structure Memory where
  cells : List Host.Cell
deriving DecidableEq, Repr

/-- The canonical form: the addresses are 0, 1, ..., length - 1, each once and rising (R60: "addressed by a natural
number from 0 to its length minus one"). An address that is not listed does not exist and reads as no value, so no
entry can equal it (log entry 15). -/
abbrev Memory.wf (m : Memory) : Prop := m.cells.map Prod.fst = List.range m.cells.length

/-- The length register of a buffer (SRC_LEN, DST_LEN, len(OUT)); 10_state.md R26. -/
def Memory.len (m : Memory) : Nat := m.cells.length

/-! ### Status and errors -/

/-- `STATUS` (10_state.md R29). Value 3 is never produced and has no constructor. -/
inductive Status where
  | idle
  | done
  | error
deriving DecidableEq, Repr

/-- `ERR.kind` (60_exceptions.md R280). Code 7 is never produced. -/
inductive ErrKind where
  | none
  | inputTooLarge
  | outputTooLarge
  | corruptContainer
  | unrecognizedContainer
  | noUsableCompression
  | illegalCommand
deriving DecidableEq, Repr

/-- `ERR.cause` (60_exceptions.md R286). Codes 13 to 15 are never produced. -/
inductive Cause where
  | none
  | magicMismatch
  | sizeMismatch
  | backrefUnderflow
  | truncatedHeader
  | truncatedContainer
  | truncatedPayload
  | patternRange
  | codecAbsent
  | codecFailed
  | reservedEncoding
  | noValue
  | badContainer
deriving DecidableEq, Repr

/-- What a `raise K(c)` carries (00_scope.md R12). -/
structure Raise where
  kind : ErrKind
  cause : Cause
deriving DecidableEq, Repr

/-! ### Containers and result registers -/

/-- A `Container`: the value of CT, one constructor per variant, each with the fields that are "present for" it
(10_state.md R27). -/
inductive Container where
  | at3px (csize : BitVec 16) (flags : Cft) (payload : Memory)
  | at4px (csize : BitVec 16) (flags : Cft) (dsize : BitVec 16) (payload : Memory)
  | pkdpx (csize : BitVec 16) (flags : Cft) (dsize : BitVec 32) (payload : Memory)
  | atupx (csize : BitVec 16) (dsize : BitVec 32) (payload : Memory)
  | at4pn (blob : Bytes)
deriving DecidableEq, Repr

/-- A register that both the HOST and the ENGINE write (CT, CFT). `none` is the spec's "holds no value"; the writer is
kept because 10_state.md R39 and 60_exceptions.md R291 keep a HOST-written value where they drop another. -/
inductive Held (α : Type) where
  | none
  | byHost (v : α)
  | byEngine (v : α)
deriving DecidableEq, Repr

/-- The value a register holds, if any (R39). -/
def Held.value {α : Type} : Held α → Option α
  | .none => Option.none
  | .byHost v => some v
  | .byEngine v => some v

/-! ### Working state -/

/-- PXC's working state (10_state.md R32): the level and order in force, the cursor, the ReservedLengthSet ascending
(R33) and the operations planned so far (R35). The input is SRC, which no command changes (20_memory.md R69). -/
structure PxcWork where
  level : Level
  order : Order
  cur : Nat
  rls : List Nibble
  ops : List Op
deriving DecidableEq, Repr

/-- PXD's working state (R36): the program (payload and its nine CFT bytes, read-only during the command), the cursor
`pc`, the command byte in force (`none` before the first and after eight operations), the index `k` in the block, and
OUT. -/
structure PxdWork where
  payload : Memory
  flags : Cft
  pc : Nat
  cmdb : Option Byte
  k : Fin 8
  out : Memory
deriving DecidableEq, Repr

/-- The command a PXD run belongs to: PXD itself, or FDEC with the decoded length it asserts, if it asserts one
(42_container_formats.md R207). -/
inductive Goal where
  | pxd
  | fdec (assertedSize : Option Nat)
deriving DecidableEq, Repr

/-- The working state: none between commands, planning inside PXC, streaming inside PXD or FDEC. The last two are the
small-step view of 10_state.md R21 (log entry 6). -/
inductive Work where
  | idle
  | plan (w : PxcWork)
  | stream (goal : Goal) (w : PxdWork)
deriving DecidableEq, Repr

/-! ### The state -/

/-- The machine's state. Which rule gives each field is listed in INVENTORY.md under State. -/
structure State where
  /-- the parameters of R9, fixed for the life of the ENGINE -/
  params : Params
  /-- `CFG.allowed`, bit i = format id i (R23) -/
  cfgAllowed : BitVec 5
  /-- `CFG.native` (R24) -/
  cfgNative : Bool
  /-- the command word, `CMD.op` and the argument byte with CMD.fmt, CMD.level, CMD.order, CMD.bit (R25, R116) -/
  cw : BitVec 16
  /-- `CMD.offset` (R25) -/
  cmdOffset : Nat
  /-- `CMD.cand` (R25, R118) -/
  cmdCand : List (BitVec 3)
  /-- the model's own: the HOST has issued the command in CW (log entry 5) -/
  issued : Bool
  /-- `SRC`, with `SRC_LEN` its length (R26) -/
  src : Memory
  /-- `DST`, with `DST_LEN` its length; `none` holds no value (R26, R39) -/
  dst : Option Memory
  /-- `CT` (R27) -/
  ct : Held Container
  /-- `RES` (R28) -/
  res : Option (BitVec 32)
  /-- `CFT` (R34) -/
  cft : Held Cft
  /-- `STATUS` (R29) -/
  status : Status
  /-- `ERR.kind` (R30) -/
  errKind : ErrKind
  /-- `ERR.cause` (R30) -/
  errCause : Cause
  /-- the working state of a command in progress (R22 class c) -/
  work : Work
deriving DecidableEq, Repr

/-! ### Reasons to stop -/

/-- Why a step stops with a fault. The spec's own errors are not faults: the ENGINE reports them in STATUS and ERR and
goes on (60_exceptions.md R290). -/
inductive Fault where
  /-- Raised by the meaning of a PX stream operation in a state in which PXD is not running. Such an operation is
  executed only by PXD (00_scope.md R7, R1), so the spec gives it no effect there; `step` never does it. Safe: the
  model stops where no machine state corresponds (log entry 16). -/
  | noStreamRun
deriving DecidableEq, Repr

/-- Why a step refuses. -/
inductive Refusal where
  /-- Raised by an arm of `exec` whose instruction has no meaning yet. Safe: nothing is claimed about it. -/
  | notModelled (mnemonic : String)
deriving DecidableEq, Repr

/-! ### Reset -/

/-- The state after reset of an ENGINE with the parameters `p` (10_state.md R42, 70_reset_and_hazards.md R320, R321):
CFG.allowed = 0x17, CFG.native = NATIVE_RESET, STATUS = IDLE, ERR = 0, result registers hold no value. CW, CMD.offset,
CMD.cand and SRC are "unspecified" there; zero and empty are this model's choice (DESIGN CHOICE, unsafe, log entry 4),
as is that no command is issued (log entry 5). -/
def State.resetWith (p : Params) : State where
  params := p
  cfgAllowed := 0b10111#5
  cfgNative := p.nativeReset
  cw := 0#16
  cmdOffset := 0
  cmdCand := []
  issued := false
  src := ⟨[]⟩
  dst := none
  ct := .none
  res := none
  cft := .none
  status := .idle
  errKind := .none
  errCause := .none
  work := .idle

/-- The machine right after reset, with the default parameters of 00_scope.md R9. -/
def State.reset : State := State.resetWith {}

end Sys2Proof.Machine
end

