-- ==== Sys2Proof/Machine/Ops.lean ====
section
/-! DEFINITION. The named operations over buffers and registers: building, reading and appending to a buffer, ending a
command (`State.done`), raising an error (`State.raise`, the machine's one exception entry), and the HOST's moves. -/

namespace Sys2Proof.Machine

/-! ### Buffers (20_memory.md) -/

/-- The empty buffer. -/
def Memory.empty : Memory := ⟨[]⟩

/-- The buffer that holds a byte sequence: byte `i` at address `i` (R60). -/
def Memory.ofBytes (l : Bytes) : Memory := ⟨l.zipIdx.map (fun p => (p.2, p.1))⟩

/-- The contents as a byte sequence, in address order (R11). -/
def Memory.bytes (m : Memory) : Bytes := m.cells.map Prod.snd

/-- `MemRead(buf, addr, 1)`; no value at an address that does not exist (00_scope.md R12, R66). -/
def Memory.read (m : Memory) (a : Nat) : Option Byte := m.cells.lookup a

/-- `append(OUT, v)`: writes `v` at address `len(OUT)`, the only form of memory write (R12, R68). -/
def Memory.append (m : Memory) (v : Byte) : Memory := ⟨m.cells ++ [(m.len, v)]⟩

/-- `for j in 0 .. count-1: append(OUT, OUT[src + j])`: read one byte, append it, go on (R68). The read is always below
the current end, so the branch with no byte is never taken (41_px_decompressor.md R186; log entry 20). -/
def Memory.copyBack : Nat → Nat → Memory → Memory
  | 0, _, m => m
  | count + 1, src, m =>
    match m.read src with
    | some v => Memory.copyBack count (src + 1) (m.append v)
    | none => m

/-! ### Ending a command -/

/-- What a register keeps across a command that does not write it: a HOST-written value, and nothing else
(10_state.md R39, 60_exceptions.md R291; log entry 8). -/
def Held.kept {α : Type} : Held α → Held α
  | .none => .none
  | .byHost v => .byHost v
  | .byEngine _ => .none

/-- The results a command writes when it succeeds; `none` for a register it does not write. -/
structure Results where
  dst : Option Memory := none
  res : Option (BitVec 32) := none
  ct : Option Container := none
  cft : Option Cft := none
deriving DecidableEq, Repr

/-- The register after a command that writes `new`, if it writes it at all (R39). -/
def Held.update {α : Type} (new : Option α) (old : Held α) : Held α :=
  match new with
  | .some v => .byEngine v
  | .none => old.kept

/-- A command ends in DONE: its results are written all at once, every other result register holds no value except a
HOST-written CT or CFT, ERR is 0, and working state is discarded (R26, R30, R39). -/
def State.done (r : Results) (s : State) : State :=
  { s with
    dst := r.dst
    res := r.res
    ct := s.ct.update r.ct
    cft := s.cft.update r.cft
    status := .done
    errKind := .none
    errCause := .none
    work := .idle }

/-- Which of CT and CFT a command writes when it succeeds. -/
structure Targets where
  ct : Bool := false
  cft : Bool := false
deriving DecidableEq, Repr

/-- The register after a failed command: no value if the command would have written it, else as R39 keeps it (R291). -/
def Held.afterError {α : Type} (isTarget : Bool) (old : Held α) : Held α :=
  if isTarget then .none else old.kept

/-- `raise K(c)`, the machine's exception entry (60_exceptions.md R290, R291): the command is abandoned, working state
is discarded, no result is written, DST and RES hold no value, CT and CFT hold none if the command would have written
them, STATUS = ERROR, ERR = (K, c); CFG, SRC and the operands keep their values. There is no handler and no saved
address; control goes nowhere. The way back is the next command, which overwrites STATUS and ERR through `State.done`
or `State.raise` (R292). -/
def State.raise (e : Raise) (w : Targets) (s : State) : State :=
  { s with
    dst := none
    res := none
    ct := s.ct.afterError w.ct
    cft := s.cft.afterError w.cft
    status := .error
    errKind := e.kind
    errCause := e.cause
    work := .idle }

/-- A command that computes `r` ends in DONE with its results, or raises. -/
def State.finish (w : Targets) (r : Except Raise Results) (s : State) : State :=
  match r with
  | .ok v => s.done v
  | .error e => s.raise e w

/-- CFG written by ALLOW, DISALLOW and SETNATIVE (43_dispatcher.md R251 to R253). -/
def State.setCfg (allowed : BitVec 5) (native : Bool) (s : State) : State :=
  { s with cfgAllowed := allowed, cfgNative := native }

/-- The working state set by a command that runs in small steps (10_state.md R21). -/
def State.setWork (w : Work) (s : State) : State := { s with work := w }

/-- The ENGINE takes up the issued command. -/
def State.takeIssue (s : State) : State := { s with issued := false }

/-! ### The HOST's moves between commands (10_state.md R21, R25 to R27, R34; 20_memory.md R78) -/

/-- The HOST writes the command word and issues the command. -/
def State.hostIssue (cw : BitVec 16) (s : State) : State := { s with cw := cw, issued := true }

/-- The HOST writes SRC, and with it SRC_LEN. -/
def State.hostWriteSrc (l : Bytes) (s : State) : State := { s with src := Memory.ofBytes l }

/-- The HOST writes CMD.offset. -/
def State.hostWriteOffset (o : Nat) (s : State) : State := { s with cmdOffset := o }

/-- The HOST writes CMD.cand. -/
def State.hostWriteCand (c : List (BitVec 3)) (s : State) : State := { s with cmdCand := c }

/-- The HOST writes CT (R27). -/
def State.hostWriteCt (c : Container) (s : State) : State := { s with ct := .byHost c }

/-- The HOST writes CFT (R34). -/
def State.hostWriteCft (t : Cft) (s : State) : State := { s with cft := .byHost t }

/-- The HOST copies DST to SRC (95_test_vectors.md P5, P8). Where DST holds no value, the spec says that the HOST gets
any value and must not use it (93_implementation_defined.md I13); that SRC then stays as it is, is the model's choice
(DESIGN CHOICE, unsafe, log entry 23). -/
def State.hostCopyDstToSrc (s : State) : State :=
  match s.dst with
  | some m => { s with src := m }
  | none => s

end Sys2Proof.Machine
end

