-- ==== Sys2Proof/Machine/Operands.lean ====
section
/-! DEFINITION. The operand forms of the host commands (10_state.md R25, 30_encoding.md R116 to R119): the CMD.*
registers as views of CW, the length registers, the candidate list, and the plug-in functions as the ENGINE calls
them. -/

namespace Sys2Proof.Machine

/-- `CMD.op` (R25, R116). -/
def State.cmdOp (s : State) : Byte := cwOp s.cw

/-- `CMD.fmt` (R25, R116). -/
def State.cmdFmt (s : State) : BitVec 3 := cwFmt s.cw

/-- `CMD.level` (R25, R116). -/
def State.cmdLevel (s : State) : Level := cwLevel s.cw

/-- `CMD.order` (R25, R116). -/
def State.cmdOrder (s : State) : Order := cwOrder s.cw

/-- `CMD.bit` (R25, R116). -/
def State.cmdBit (s : State) : Bool := cwBit s.cw

/-- `SRC_LEN` (R26). -/
def State.srcLen (s : State) : Nat := s.src.len

/-- `DST_LEN`, where DST holds a value (R26, R39). -/
def State.dstLen (s : State) : Option Nat := s.dst.map Memory.len

/-- The candidate list as formats; none if an entry is reserved (R118, R119). -/
def candidateFormats : List (BitVec 3) → Option (List Format)
  | [] => some []
  | v :: vs =>
    match Format.ofId v with
    | none => none
    | some f =>
      match candidateFormats vs with
      | none => none
      | some fs => some (f :: fs)

/-- `BEST_4` = [AT4PN, ATUPX, AT4PX, PKDPX] (R118, 43_dispatcher.md R260). -/
def best4 : List (BitVec 3) := [0, 3, 2, 4]

/-- `MUST_COMPRESS_4` = [ATUPX, AT4PX, PKDPX] (R118, R260). -/
def mustCompress4 : List (BitVec 3) := [3, 2, 4]

/-- A plug-in function at `a`: the known value where the graph lists one, else the uninterpreted function's `free`
(log entry 2). -/
def fromGraph {α β : Type} [BEq α] (graph : List (α × β)) (a : α) (free : β) : β :=
  match graph.lookup a with
  | some v => v
  | none => free

/-- `EXT.compress` (00_scope.md R9). -/
def extCompress (e : ExtCodec) (b : Bytes) : Option Bytes := fromGraph e.compressGraph b (Config.extCompress b)

/-- `EXT.decompress` (R9). -/
def extDecompress (e : ExtCodec) (payload : Bytes) (n : Nat) : Option Bytes :=
  fromGraph e.decompressGraph (payload, n) (Config.extDecompress payload n)

/-- `PLUG.magic` (42_container_formats.md R234). -/
def plugMagic (p : PlugIn) : Bytes := p.magicHead :: p.magicTail

/-- `PLUG.container_size` (R234). -/
def plugContainerSize (p : PlugIn) (b : Bytes) (o : Nat) : Option (BitVec 32) :=
  fromGraph p.containerSizeGraph (b, o) (Config.plugContainerSize b o)

/-- `PLUG.decode` (R234). -/
def plugDecode (p : PlugIn) (b : Bytes) (o : Nat) : Option Bytes :=
  fromGraph p.decodeGraph (b, o) (Config.plugDecode b o)

/-- `PLUG.serialize` (R234). -/
def plugSerialize (p : PlugIn) (blob : Bytes) : Bytes :=
  fromGraph p.serializeGraph blob (Config.plugSerialize blob)

/-- `PLUG.compress` (R234). -/
def plugCompress (p : PlugIn) (b : Bytes) : Option Bytes :=
  fromGraph p.compressGraph b (Config.plugCompress b)

/-- `PLUG.decompress` (R234). -/
def plugDecompress (p : PlugIn) (blob : Bytes) : Option Bytes :=
  fromGraph p.decompressGraph blob (Config.plugDecompress blob)

end Sys2Proof.Machine
end

