-- ==== Sys2Proof/Machine/Compressor.lean ====
section
/-! DEFINITION. PXC (40_px_compressor.md): the planning of operations with the ReservedLengthSet, the ControlFlagTable,
emission, and the meaning of PXC. -/

namespace Sys2Proof.Machine

/-! ### Classification of two bytes (30_encoding.md R103) -/

/-- Position `p` holds the odd nibble `x` beside the shared value `b`: one below is index p + 1, one above is index
p + 5; `n0` is the stored low nibble. The difference is one of integers: 0 and 15 do not differ by 1. -/
def oddNibble (down up : Fin 9) (x b n0 : Nibble) : Option (Fin 9 × Nibble) :=
  if x.toNat + 1 = b.toNat then some (down, n0)
  else if x.toNat = b.toNat + 1 then some (up, n0)
  else none

/-- `classify(b0, b1)`: the index and low nibble whose pattern is the two bytes, if there is one (R103). -/
def classify (b0 b1 : Byte) : Option (Fin 9 × Nibble) :=
  let n0 := hi4 b0
  let n1 := lo4 b0
  let n2 := hi4 b1
  let n3 := lo4 b1
  if n0 = n1 ∧ n1 = n2 ∧ n2 = n3 then some (0, n0)
  else if n1 = n2 ∧ n2 = n3 then oddNibble 1 5 n0 n1 n0
  else if n0 = n2 ∧ n2 = n3 then oddNibble 2 6 n1 n0 n0
  else if n0 = n1 ∧ n1 = n3 then oddNibble 3 7 n2 n0 n0
  else if n0 = n1 ∧ n1 = n2 then oddNibble 4 8 n3 n0 n0
  else none

/-! ### Sequence search (R135 to R137) -/

/-- The length of the common run of `a` and `b`, at most `avail`: `k` of R135. `a` ends at the cursor, so a match
source never reaches past it (R137). -/
def matchLength : Nat → Bytes → Bytes → Nat
  | 0, _, _ => 0
  | _ + 1, [], _ => 0
  | _ + 1, _ :: _, [] => 0
  | avail + 1, a :: as, b :: bs => if a = b then matchLength avail as bs + 1 else 0

/-- The best match so far: its length and its distance back from the cursor. -/
structure Match where
  length : Nat
  distance : Nat
deriving DecidableEq, Repr

/-- The scan of the window from its first byte to its last; a position replaces the best only when strictly longer, so
the first of equally long matches wins (R135, R136). The suffix of the window at a position is as long as its distance
to the cursor. -/
def scanWindow (avail : Nat) (ahead : Bytes) : Bytes → Match → Match
  | [], best => best
  | b :: window, best =>
    let k := matchLength avail (b :: window) ahead
    scanWindow avail ahead window (if best.length < k then ⟨k, window.length + 1⟩ else best)

/-- The lookback window at `cur`: the preceding at most 4096 bytes (R135). -/
def lookback (input : Bytes) (cur : Nat) : Bytes := slice input (cur - Config.window) cur

/-- `find_sequence` before the length is reserved or shrunk: the longest match of 3 to 18 bytes (R135). -/
def findMatch (input : Bytes) (cur : Nat) : Option Match :=
  let avail := min Config.maxMatch (input.length - cur)
  if avail < Config.minMatch then none
  else
    let best := scanWindow avail (input.drop cur) (lookback input cur) ⟨0, 0⟩
    if best.length < Config.minMatch then none else some best

/-! ### The ReservedLengthSet (R138 to R140) -/

/-- Inserts a value into an ascending set, keeping it ascending. -/
def insertAscending (v : Nibble) : List Nibble → List Nibble
  | [] => [v]
  | e :: es => if v.toNat < e.toNat then v :: e :: es else e :: insertAscending v es

/-- `shrink(L)`: the first entry, ascending, whose implied length is still below `L` (R139). The set always holds 0, so
the result is 3 and the scan never runs out (R140; log entry 20). -/
def shrink (length : Nat) : List Nibble → Nat
  | [] => length
  | e :: es => if e.toNat + 3 < length then e.toNat + 3 else shrink length es

/-- `reserve_or_shrink(L)`: the length to use and the set after it (R138). -/
def reserveOrShrink (rls : List Nibble) (length : Nat) : Nat × List Nibble :=
  let v := BitVec.ofNat 4 (length - 3)
  if v ∈ rls then (length, rls)
  else if rls.length < Config.maxReserved then (length, insertAscending v rls)
  else (shrink length rls, rls)

/-- `find_sequence`: the operation to plan and the set after it, if there is a match (R135, R138). -/
def findSequence (input : Bytes) (cur : Nat) (rls : List Nibble) : Option (Op × List Nibble) :=
  match findMatch input cur with
  | none => none
  | some m =>
    let r := reserveOrShrink rls m.length
    some (.sequence (-(m.distance : Int)) r.1, r.2)

/-! ### Planning (R133, R134, R144) -/

/-- Step 2: the four-equal-nibbles pattern at the two bytes (R141). -/
def equalNibbles (b0 b1 : Byte) : Option Op :=
  if hi4 b0 = lo4 b0 ∧ lo4 b0 = hi4 b1 ∧ hi4 b1 = lo4 b1 then some (.nibblePattern 0 (hi4 b0)) else none

/-- Step 3: the eight near-equal patterns at the two bytes (R142). -/
def nearEqualNibbles (b0 b1 : Byte) : Option Op :=
  match classify b0 b1 with
  | some (i, l) => if 1 ≤ i.val then some (.nibblePattern i l) else none
  | none => none

/-- Steps 2 and 3 with their level conditions; two bytes are needed at the cursor (R134, R141, R142). -/
def planPattern (level : Level) (ahead : Bytes) : Option Op :=
  match ahead with
  | b0 :: b1 :: _ =>
    match (if 1 ≤ level.toNat then equalNibbles b0 b1 else none) with
    | some op => some op
    | none => if 2 ≤ level.toNat then nearEqualNibbles b0 b1 else none
  | [_] => none
  | [] => none

/-- `plan_one` at a cursor whose next byte is `b`: the operation and the ReservedLengthSet after it, by the priority
order of R134. -/
def planOne (level : Level) (order : Order) (input : Bytes) (cur : Nat) (b : Byte) (rls : List Nibble) :
    Op × List Nibble :=
  let sequence := if level = 3#2 then findSequence input cur rls else none
  let nibbles := (planPattern level (input.drop cur)).map (fun op => (op, rls))
  let fallback := (Op.copyAsIs b, rls)
  match order with
  | .seqFirst => ((sequence.or nibbles).getD fallback)
  | .nibFirst => ((nibbles.or sequence).getD fallback)

/-- `consumed(op)`: the input bytes an operation covers (R144). -/
def consumed : Op → Nat
  | .copyAsIs _ => 1
  | .nibblePattern _ _ => 2
  | .sequence _ length => length

/-- PXC's working state at the start: RLS = {0, 15}, no operation, cur = 0 (R132). -/
def PxcWork.start (level : Level) (order : Order) : PxcWork where
  level := level
  order := order
  cur := 0
  rls := Config.rlsSeed
  ops := []

/-- One turn of the planning loop; none when the input is covered (R133). -/
def PxcWork.planNext (input : Bytes) (w : PxcWork) : Option PxcWork :=
  match input.drop w.cur with
  | [] => none
  | b :: _ =>
    let r := planOne w.level w.order input w.cur b w.rls
    some { w with cur := w.cur + consumed r.1, rls := r.2, ops := w.ops ++ [r.1] }

/-- The planning loop (R133). Every turn advances the cursor, so the input's length is enough fuel (R151). -/
def planLoop (input : Bytes) : Nat → PxcWork → PxcWork
  | 0, w => w
  | fuel + 1, w =>
    match w.planNext input with
    | none => w
    | some w' => planLoop input fuel w'

/-! ### The ControlFlagTable (R145) -/

/-- The sixteen nibbles, ascending. -/
def allNibbles : List Nibble := (List.range 16).map (BitVec.ofNat 4)

/-- The nibbles not in a set, ascending. -/
def complement (set : List Nibble) : List Nibble := allNibbles.filter (fun v => v ∉ set)

/-- Brings a set to seven members with the lowest unused nibbles (R145, PAD_RESERVED). -/
def padReserved : List Nibble → List Nibble → List Nibble
  | [], set => set
  | v :: vs, set =>
    padReserved vs (if v ∉ set ∧ set.length < Config.maxReserved then insertAscending v set else set)

/-- A table from its first nine nibbles. `build_flags` always has at least nine (R145; log entry 20). -/
def tableOfNibbles (l : List Nibble) : Cft :=
  let entry : Nat → Byte := fun i => (l.getD i 0#4).setWidth 8
  ⟨entry 0, entry 1, entry 2, entry 3, entry 4, entry 5, entry 6, entry 7, entry 8⟩

/-- `build_flags(RLS)` (R145). -/
def buildFlags (fill : FlagFill) (rls : List Nibble) : Cft :=
  match fill with
  | .lowestNine => tableOfNibbles (complement rls)
  | .padReserved => tableOfNibbles (complement (padReserved allNibbles rls))

/-! ### Emission (R146) -/

/-- One block: the command byte, then each operation (R146). -/
def emitBlock (t : Cft) (block : List Op) : Bytes := commandByte block 0 :: block.flatMap (encodeOp t)

/-- `emit`, eight operations a block; the number of operations is enough fuel. -/
def emitBlocks (t : Cft) : Nat → List Op → Bytes
  | 0, _ => []
  | _ + 1, [] => []
  | fuel + 1, op :: ops =>
    emitBlock t ((op :: ops).take Config.opsPerBlock) ++ emitBlocks t fuel ((op :: ops).drop Config.opsPerBlock)

/-- `emit(OPS, CFT)` (R146). -/
def emit (t : Cft) (ops : List Op) : Bytes := emitBlocks t ops.length ops

/-! ### The command -/

/-- What PXC returns: the table and the payload (R148). -/
structure Packed where
  flags : Cft
  payload : Bytes
deriving DecidableEq, Repr

/-- After planning: build the table, emit, and check the payload's length (R145 to R147). -/
def PxcWork.close (fill : FlagFill) (w : PxcWork) : Except Raise Packed :=
  let flags := buildFlags fill w.rls
  let payload := emit flags w.ops
  if Config.maxPayload < payload.length then .error ⟨.outputTooLarge, .none⟩ else .ok ⟨flags, payload⟩

/-- The operations PXC plans for an input. -/
def plan (level : Level) (order : Order) (input : Bytes) : PxcWork :=
  planLoop input input.length (PxcWork.start level order)

/-- `PXC(input, level, order)` (R130). The input check comes first (R131). -/
def pxc (fill : FlagFill) (level : Level) (order : Order) (input : Bytes) : Except Raise Packed :=
  if Config.maxInput < input.length then .error ⟨.inputTooLarge, .none⟩
  else (plan level order input).close fill

/-- PXC writes CFT and DST; on failure CFT holds no value (R130, R148). -/
def pxcTargets : Targets := { cft := true }

/-- The results of PXC (R148). -/
def Packed.results (p : Packed) : Results := { dst := some (Memory.ofBytes p.payload), cft := some p.flags }

/-- The end of planning: emission, then DONE or OutputTooLarge (R145 to R148). -/
def State.finishPlan (w : PxcWork) (s : State) : State :=
  s.finish pxcTargets ((w.close s.params.flagFill).map Packed.results)

/-- PXC (R130): in one step, or, in the small-step view, up to the start of planning (10_state.md R21; log entry 6).
The input check comes before any planning in both (R131). -/
def execPxc (level : Level) (order : Order) (s : State) : Host.Outcome State Fault Refusal :=
  match s.params.granularity with
  | .operation =>
    if Config.maxInput < s.src.len then .next (s.raise ⟨.inputTooLarge, .none⟩ pxcTargets)
    else .next (s.setWork (.plan (PxcWork.start level order)))
  | .command => .next (s.finish pxcTargets ((pxc s.params.flagFill level order s.src.bytes).map Packed.results))

/-- One step of a compression in progress: the next operation is planned, or planning ends (R133). -/
def State.planStep (w : PxcWork) (s : State) : State :=
  match w.planNext s.src.bytes with
  | some w' => s.setWork (.plan w')
  | none => s.finishPlan w

end Sys2Proof.Machine
end

