-- ==== Sys2Proof/Machine/Stream.lean ====
section
/-! DEFINITION. PXD and the PX stream operations (41_px_decompressor.md): the pattern table, one operation on PXD's
working state, the fetch loop, and the meanings of CMDB, COPY, NP0 to NP8, SEQ and PXD. -/

namespace Sys2Proof.Machine

/-! ### The pattern table (30_encoding.md R101, R102) -/

/-- Four output nibbles as integers, before the range check. -/
structure Quad where
  n0 : Int
  n1 : Int
  n2 : Int
  n3 : Int
deriving DecidableEq, Repr

/-- The rows of R101. Row 0 and the shape "three equal, one off by one" are the source's; which nibble is the odd one,
and that `n0 = l`, are general knowledge (PRESUMED, log entry 12). -/
def patternRow (i : Fin 9) (l : Int) : Quad :=
  match i with
  | 0 => ⟨l, l, l, l⟩
  | 1 => ⟨l, l + 1, l + 1, l + 1⟩
  | 2 => ⟨l, l - 1, l, l⟩
  | 3 => ⟨l, l, l - 1, l⟩
  | 4 => ⟨l, l, l, l - 1⟩
  | 5 => ⟨l, l - 1, l - 1, l - 1⟩
  | 6 => ⟨l, l + 1, l, l⟩
  | 7 => ⟨l, l, l + 1, l⟩
  | 8 => ⟨l, l, l, l + 1⟩

/-- Whether an integer is a nibble. -/
def isNibble (n : Int) : Bool := decide (0 ≤ n) && decide (n ≤ 15)

/-- Whether all four stay in 0..15 (R102). -/
def Quad.inRange (q : Quad) : Bool := isNibble q.n0 && isNibble q.n1 && isNibble q.n2 && isNibble q.n3

/-- The two output bytes `n0*16 + n1`, `n2*16 + n3`, each nibble taken modulo 16 (R101, R102; nibble order
20_memory.md R63, PRESUMED, log entry 12). -/
def Quad.bytes (q : Quad) : Byte × Byte :=
  (joinNibbles (BitVec.ofInt 4 q.n0) (BitVec.ofInt 4 q.n1), joinNibbles (BitVec.ofInt 4 q.n2) (BitVec.ofInt 4 q.n3))

/-- `pattern(i, l)` as two bytes; none where PXD raises: out of range with PATTERN_RANGE = FAULT (R102, R189). -/
def pattern (range : PatternRange) (i : Fin 9) (l : Nibble) : Option (Byte × Byte) :=
  let q := patternRow i l.toNat
  if q.inRange then some q.bytes
  else
    match range with
    | .fault => none
    | .wrap => some q.bytes

/-! ### One element of the payload -/

/-- The working state at the start of a run: OUT empty, pc = 0, no command byte (R171, 10_state.md R42). -/
def PxdWork.start (payload : Memory) (flags : Cft) : PxdWork where
  payload := payload
  flags := flags
  pc := 0
  cmdb := none
  k := 0
  out := Memory.empty

/-- After an operation of `n` payload bytes: `pc` moves past it, and the next operation of the block follows, or after
eight the next command byte (R172, R173). -/
def PxdWork.advance (n : Nat) (w : PxdWork) : PxdWork :=
  if w.k = 7 then { w with pc := w.pc + n, cmdb := none, k := 0 }
  else { w with pc := w.pc + n, k := w.k + 1 }

/-- `CMDB <- payload[pc]; pc <- pc + 1` (R172). -/
def PxdWork.loadCommandByte (c : Byte) (w : PxdWork) : PxdWork :=
  { w with pc := w.pc + 1, cmdb := some c, k := 0 }

/-- `exec_copy`: append the literal byte (R175). -/
def PxdWork.copyAsIs (b : Byte) (w : PxdWork) : Except Cause PxdWork :=
  .ok ({ w with out := w.out.append b }.advance 1)

/-- `exec_pattern`: append the two bytes of the pattern, or raise PatternRange (R196, R189). -/
def PxdWork.nibblePattern (range : PatternRange) (i : Fin 9) (l : Nibble) (w : PxdWork) : Except Cause PxdWork :=
  match pattern range i l with
  | some (b0, b1) => .ok ({ w with out := (w.out.append b0).append b1 }.advance 1)
  | none => .error .patternRange

/-- The copy source of a Sequence, `len(OUT) + offset`: a signed integer (R186, R197). -/
def PxdWork.copySource (offset : Int) (w : PxdWork) : Int := (w.out.len : Int) + offset

/-- `exec_sequence` once both bytes are read: raise BackrefUnderflow if the source starts before OUT, else copy byte by
byte (R186, R187). -/
def PxdWork.sequence (offset : Int) (length : Nat) (w : PxdWork) : Except Cause PxdWork :=
  if w.copySource offset < 0 then .error .backrefUnderflow
  else .ok ({ w with out := Memory.copyBack length (w.copySource offset).toNat w.out }.advance 2)

/-- One PX operation on the working state (R175 to R186). -/
def PxdWork.apply (range : PatternRange) (op : Op) (w : PxdWork) : Except Cause PxdWork :=
  match op with
  | .copyAsIs b => w.copyAsIs b
  | .nibblePattern i l => w.nibblePattern range i l
  | .sequence offset length => w.sequence offset length

/-- What the fetch unit finds at `pc`. -/
inductive Fetched where
  /-- the payload is consumed: the run ends (R174) -/
  | finished
  /-- a command byte, at the start and after every eighth operation (R172) -/
  | commandByte (c : Byte)
  /-- an operation (R175, R176) -/
  | operation (op : Op)
  /-- a Sequence without its second byte (R188) -/
  | truncated
deriving DecidableEq, Repr

/-- The payload bytes from `pc` on. -/
def PxdWork.rest (w : PxdWork) : Bytes := w.payload.bytes.drop w.pc

/-- The fetch: `pc >= plen` is tested before every command byte and every operation; then the command byte in force
selects the class of operation `k` (R170, R172, R174, R176). -/
def PxdWork.fetch (w : PxdWork) : Fetched :=
  match w.cmdb with
  | none =>
    match w.rest with
    | [] => .finished
    | c :: _ => .commandByte c
  | some c =>
    match decodeOp w.flags (commandBit c w.k.val) w.rest with
    | .ok op => .operation op
    | .error .endOfPayload => .finished
    | .error .truncatedSequence => .truncated

/-- The fetched element as an instruction, if it is one. -/
def Fetched.instr : Fetched → Option Instr
  | .finished => none
  | .commandByte c => some (.cmdb c)
  | .operation op => some op.toInstr
  | .truncated => none

/-- The fetch loop (R170). `fuel` is a bound on the elements left; every element consumes at least one payload byte, so
the payload's length is enough (R192; log entry 20). -/
def pxdLoop (range : PatternRange) : Nat → PxdWork → Except Cause Memory
  | 0, w => .ok w.out
  | fuel + 1, w =>
    match w.fetch with
    | .finished => .ok w.out
    | .commandByte c => pxdLoop range fuel (w.loadCommandByte c)
    | .operation op =>
      match w.apply range op with
      | .ok w' => pxdLoop range fuel w'
      | .error c => .error c
    | .truncated => .error .truncatedPayload

/-- `PXD(payload, CFT)`: OUT, or the cause of CorruptContainer (R170). -/
def pxd (range : PatternRange) (payload : Memory) (flags : Cft) : Except Cause Memory :=
  pxdLoop range payload.len (PxdWork.start payload flags)

/-! ### Meanings of the stream operations -/

/-- A PX operation in the machine: it acts on the working state of the run in progress; an error abandons the command,
which is PXD or FDEC and so writes neither CT nor CFT (60_exceptions.md R290). -/
def State.onStream (f : PxdWork → Except Cause PxdWork) (s : State) : Host.Outcome State Fault Refusal :=
  match s.work with
  | .stream goal w =>
    match f w with
    | .ok w' => .next (s.setWork (.stream goal w'))
    | .error c => .next (s.raise ⟨.corruptContainer, c⟩ {})
  | .idle => .fault .noStreamRun
  | .plan _ => .fault .noStreamRun

/-- CMDB: the command byte of a block (R172). -/
def execCmdb (c : Byte) (s : State) : Host.Outcome State Fault Refusal :=
  s.onStream (fun w => .ok (w.loadCommandByte c))

/-- COPY: CopyAsIs(b) (R175). -/
def execCopy (b : Byte) (s : State) : Host.Outcome State Fault Refusal :=
  s.onStream (fun w => w.copyAsIs b)

/-- NP0: NibblePattern(0, l) (R177). -/
def execNp0 (l : Nibble) (s : State) : Host.Outcome State Fault Refusal :=
  s.onStream (fun w => w.nibblePattern s.params.patternRange 0 l)

/-- NP1: NibblePattern(1, l) (R178). -/
def execNp1 (l : Nibble) (s : State) : Host.Outcome State Fault Refusal :=
  s.onStream (fun w => w.nibblePattern s.params.patternRange 1 l)

/-- NP2: NibblePattern(2, l) (R179). -/
def execNp2 (l : Nibble) (s : State) : Host.Outcome State Fault Refusal :=
  s.onStream (fun w => w.nibblePattern s.params.patternRange 2 l)

/-- NP3: NibblePattern(3, l) (R180). -/
def execNp3 (l : Nibble) (s : State) : Host.Outcome State Fault Refusal :=
  s.onStream (fun w => w.nibblePattern s.params.patternRange 3 l)

/-- NP4: NibblePattern(4, l) (R181). -/
def execNp4 (l : Nibble) (s : State) : Host.Outcome State Fault Refusal :=
  s.onStream (fun w => w.nibblePattern s.params.patternRange 4 l)

/-- NP5: NibblePattern(5, l) (R182). -/
def execNp5 (l : Nibble) (s : State) : Host.Outcome State Fault Refusal :=
  s.onStream (fun w => w.nibblePattern s.params.patternRange 5 l)

/-- NP6: NibblePattern(6, l) (R183). -/
def execNp6 (l : Nibble) (s : State) : Host.Outcome State Fault Refusal :=
  s.onStream (fun w => w.nibblePattern s.params.patternRange 6 l)

/-- NP7: NibblePattern(7, l) (R184). -/
def execNp7 (l : Nibble) (s : State) : Host.Outcome State Fault Refusal :=
  s.onStream (fun w => w.nibblePattern s.params.patternRange 7 l)

/-- NP8: NibblePattern(8, l) (R185). -/
def execNp8 (l : Nibble) (s : State) : Host.Outcome State Fault Refusal :=
  s.onStream (fun w => w.nibblePattern s.params.patternRange 8 l)

/-- SEQ: Sequence(offset, length) (R186, R187). -/
def execSeq (offset : Int) (length : Nat) (s : State) : Host.Outcome State Fault Refusal :=
  s.onStream (fun w => w.sequence offset length)

/-! ### Starting and finishing a run; the command PXD -/

/-- The end of a successful run: OUT becomes DST (R191, 20_memory.md R61), for FDEC after the length assertion
(42_container_formats.md R207). -/
def State.finishStream (goal : Goal) (out : Memory) (s : State) : State :=
  match goal with
  | .pxd => s.done { dst := some out }
  | .fdec none => s.done { dst := some out }
  | .fdec (some size) =>
    if out.len = size then s.done { dst := some out }
    else s.raise ⟨.corruptContainer, .sizeMismatch⟩ {}

/-- A payload run to its end: the command's result, or CorruptContainer with the cause (R170, R191). -/
def State.streamToEnd (goal : Goal) (payload : Memory) (flags : Cft) (s : State) : State :=
  match pxd s.params.patternRange payload flags with
  | .ok out => s.finishStream goal out
  | .error c => s.raise ⟨.corruptContainer, c⟩ {}

/-- Runs a payload for a command: to its end in one step, or, in the small-step view, up to its start (10_state.md
R21; log entry 6). -/
def State.runStream (goal : Goal) (payload : Memory) (flags : Cft) (s : State) : State :=
  match s.params.granularity with
  | .operation => s.setWork (.stream goal (PxdWork.start payload flags))
  | .command => s.streamToEnd goal payload flags

/-- PXD: the payload is SRC, the table CFT; CFT holding no value is IllegalCommand(NoValue) (R170, 10_state.md R39). -/
def execPxd (s : State) : Host.Outcome State Fault Refusal :=
  match s.cft.value with
  | none => .next (s.raise ⟨.illegalCommand, .noValue⟩ {})
  | some flags => .next (s.runStream .pxd s.src flags)

/-- One step of a run in progress that is not an instruction: its end, or a truncated Sequence (R174, R188). -/
def State.endStream (goal : Goal) (w : PxdWork) (truncated : Bool) (s : State) : State :=
  if truncated then s.raise ⟨.corruptContainer, .truncatedPayload⟩ {} else s.finishStream goal w.out

end Sys2Proof.Machine
end

