-- ==== Sys2Proof/Machine/Formats.lean ====
section
/-! DEFINITION. The container formats (42_container_formats.md): matching, sizes, parsing, serialising, compressing and
decompressing, as pure functions of the parameters and bytes, and the meanings of MATCH.f, CSIZE.f, FDES.f, FCOMP.f,
FSER and FDEC. -/

namespace Sys2Proof.Machine

/-! ### Format parameters (R201) -/

/-- `41 54 33 50 58`, "AT3PX" (30_encoding.md R111; ASCII is PRESUMED, log entry 13). -/
def magicAt3px : Bytes := [0x41, 0x54, 0x33, 0x50, 0x58]

/-- `41 54 34 50 58`, "AT4PX" (R111). -/
def magicAt4px : Bytes := [0x41, 0x54, 0x34, 0x50, 0x58]

/-- `50 4B 44 50 58`, "PKDPX" (R111). -/
def magicPkdpx : Bytes := [0x50, 0x4B, 0x44, 0x50, 0x58]

/-- `41 54 55 50 58`, "ATUPX" (R111). -/
def magicAtupx : Bytes := [0x41, 0x54, 0x55, 0x50, 0x58]

/-- `HDR(AT3PX)` (R106, R107). -/
def hdrAt3px : Nat := 16

/-- `HDR(AT4PX)` (R106, R108). -/
def hdrAt4px : Nat := 18

/-- `HDR(PKDPX)` (R106, R109). -/
def hdrPkdpx : Nat := 20

/-- `HDR(ATUPX)` (R106, R110). -/
def hdrAtupx : Nat := 11

/-- A CorruptContainer with its cause (60_exceptions.md R283). -/
def corrupt (c : Cause) : Raise := ⟨.corruptContainer, c⟩

/-! ### MATCH (R202, R235) -/

/-- Whether the bytes at offset `o` are the magic `m`, all inside the buffer (R202). -/
def startsWith (m src : Bytes) (o : Nat) : Bool :=
  decide (o + m.length ≤ src.length) && decide (slice src o (o + m.length) = m)

/-- MATCH of the AT4PN-style format: false without a plug-in (R235). -/
def matchesPlug (p : Params) (src : Bytes) (o : Nat) : Bool :=
  match p.plug with
  | none => false
  | some plug => startsWith (plugMagic plug) src o

/-- `MATCH.f(SRC, o)`; it looks at nothing but magic bytes and never fails (R202, R235). -/
def matchesFormat (p : Params) (f : Format) (src : Bytes) (o : Nat) : Bool :=
  match f with
  | .at4pn => matchesPlug p src o
  | .at3px => startsWith magicAt3px src o
  | .at4px => startsWith magicAt4px src o
  | .atupx => startsWith magicAtupx src o
  | .pkdpx => startsWith magicPkdpx src o

/-- The result of MATCH in RES: 1 or 0 (10_state.md R28). -/
def matchResult (b : Bool) : Results := { res := some (if b then 1#32 else 0#32) }

/-! ### CSIZE (R203, R236) -/

/-- `CSIZE.f` for a format with a known magic: the stored u16, zero-extended and unchecked (R203). -/
def sizeField (m src : Bytes) (o : Nat) : Except Raise (BitVec 32) :=
  if startsWith m src o then
    if src.length < o + 7 then .error (corrupt .truncatedHeader)
    else .ok ((u16le src (o + 5)).setWidth 32)
  else .error (corrupt .magicMismatch)

/-- `CSIZE.AT4PN` (R236). -/
def sizePlug (p : Params) (src : Bytes) (o : Nat) : Except Raise (BitVec 32) :=
  match p.plug with
  | none => .error (corrupt .magicMismatch)
  | some plug =>
    if startsWith (plugMagic plug) src o then
      match plugContainerSize plug src o with
      | none => .error (corrupt .codecFailed)
      | some v => .ok v
    else .error (corrupt .magicMismatch)

/-- A size as the result of CSIZE (10_state.md R28). -/
def sizeResult (v : BitVec 32) : Results := { res := some v }

/-! ### FDES (R204, R237) -/

/-- The four checks of FDES, in order; the answer is the declared size (R204). -/
def parseHeader (m : Bytes) (hdr : Nat) (src : Bytes) (o : Nat) : Except Raise (BitVec 16) :=
  if startsWith m src o then
    let avail := src.length - o
    let csize := u16le src (o + 5)
    if avail < hdr then .error (corrupt .truncatedHeader)
    else if csize.toNat < hdr then .error (corrupt .truncatedHeader)
    else if avail < csize.toNat then .error (corrupt .truncatedContainer)
    else .ok csize
  else .error (corrupt .magicMismatch)

/-- `SRC[o+7 .. o+16)`, the flags field, one entry a byte in index order (30_encoding.md R115). -/
def flagsAt (src : Bytes) (i : Nat) : Cft :=
  ⟨byteAt src i, byteAt src (i + 1), byteAt src (i + 2), byteAt src (i + 3), byteAt src (i + 4), byteAt src (i + 5),
    byteAt src (i + 6), byteAt src (i + 7), byteAt src (i + 8)⟩

/-- `SRC[o + HDR .. o + csize)` (R204). -/
def payloadAt (src : Bytes) (o hdr : Nat) (csize : BitVec 16) : Memory :=
  Memory.ofBytes (slice src (o + hdr) (o + csize.toNat))

/-- `FDES.AT3PX` (R212): no decompressed size. -/
def parseAt3px (src : Bytes) (o : Nat) : Except Raise Container :=
  (parseHeader magicAt3px hdrAt3px src o).map fun csize =>
    .at3px csize (flagsAt src (o + 7)) (payloadAt src o hdrAt3px csize)

/-- `FDES.AT4PX` (R218): u16 decompressed size at +16. -/
def parseAt4px (src : Bytes) (o : Nat) : Except Raise Container :=
  (parseHeader magicAt4px hdrAt4px src o).map fun csize =>
    .at4px csize (flagsAt src (o + 7)) (u16le src (o + 16)) (payloadAt src o hdrAt4px csize)

/-- `FDES.PKDPX` (R224): u32 decompressed size at +16. -/
def parsePkdpx (src : Bytes) (o : Nat) : Except Raise Container :=
  (parseHeader magicPkdpx hdrPkdpx src o).map fun csize =>
    .pkdpx csize (flagsAt src (o + 7)) (u32le src (o + 16)) (payloadAt src o hdrPkdpx csize)

/-- `FDES.ATUPX` (R230): u32 decompressed size at +7, no flags; the payload is carried opaque. -/
def parseAtupx (src : Bytes) (o : Nat) : Except Raise Container :=
  (parseHeader magicAtupx hdrAtupx src o).map fun csize =>
    .atupx csize (u32le src (o + 7)) (payloadAt src o hdrAtupx csize)

/-- `FDES.AT4PN` (R237). -/
def parsePlug (p : Params) (src : Bytes) (o : Nat) : Except Raise Container :=
  match p.plug with
  | none => .error (corrupt .magicMismatch)
  | some plug =>
    if startsWith (plugMagic plug) src o then
      match plugDecode plug src o with
      | none => .error (corrupt .codecFailed)
      | some blob => .ok (.at4pn blob)
    else .error (corrupt .magicMismatch)

/-- `FDES.f(SRC, o)` (R204, R237). -/
def parseFormat (p : Params) (f : Format) (src : Bytes) (o : Nat) : Except Raise Container :=
  match f with
  | .at4pn => parsePlug p src o
  | .at3px => parseAt3px src o
  | .at4px => parseAt4px src o
  | .atupx => parseAtupx src o
  | .pkdpx => parsePkdpx src o

/-- A command that writes CT (FDES, FCOMP, DDES, DCOMP). -/
def ctTargets : Targets := { ct := true }

/-- A container as a command's result. -/
def containerResult (c : Container) : Results := { ct := some c }

/-! ### FCOMP (R206, R232, R239) -/

/-- The declared size of a container of `hdr` header bytes around a payload, if it fits 65535 (R206, R232). -/
def totalSize (hdr : Nat) (payload : Bytes) : Except Raise (BitVec 16) :=
  if Config.maxContainer < hdr + payload.length then .error ⟨.outputTooLarge, .none⟩
  else .ok (BitVec.ofNat 16 (hdr + payload.length))

/-- PXC with the level and order a format uses, FMT_LEVEL and FMT_ORDER (R206, decision D8). -/
def formatPxc (p : Params) (b : Bytes) : Except Raise Packed := pxc p.flagFill p.fmtLevel p.fmtOrder b

/-- A PX container around a compression result: `mk` builds it from the declared size (R206). -/
def wrapPx (p : Params) (hdr : Nat) (b : Bytes) (mk : BitVec 16 → Cft → Memory → Container) : Except Raise Container :=
  match formatPxc p b with
  | .error e => .error e
  | .ok r =>
    match totalSize hdr r.payload with
    | .error e => .error e
    | .ok total => .ok (mk total r.flags (Memory.ofBytes r.payload))

/-- `FCOMP.AT3PX` (R214). -/
def compressAt3px (p : Params) (b : Bytes) : Except Raise Container :=
  wrapPx p hdrAt3px b fun total flags payload => .at3px total flags payload

/-- `FCOMP.AT4PX` (R220): an input longer than its u16 field fails before compression. -/
def compressAt4px (p : Params) (b : Bytes) : Except Raise Container :=
  if Config.maxU16 < b.length then .error ⟨.inputTooLarge, .none⟩
  else wrapPx p hdrAt4px b fun total flags payload => .at4px total flags (BitVec.ofNat 16 b.length) payload

/-- `FCOMP.PKDPX` (R226). -/
def compressPkdpx (p : Params) (b : Bytes) : Except Raise Container :=
  wrapPx p hdrPkdpx b fun total flags payload => .pkdpx total flags (BitVec.ofNat 32 b.length) payload

/-- `FCOMP.ATUPX` (R232): the ENGINE frames what the external codec returns. -/
def compressAtupx (p : Params) (b : Bytes) : Except Raise Container :=
  match p.ext with
  | none => .error ⟨.noUsableCompression, .codecAbsent⟩
  | some ext =>
    if Config.maxU32 < b.length then .error ⟨.inputTooLarge, .none⟩
    else
      match extCompress ext b with
      | none => .error ⟨.noUsableCompression, .codecFailed⟩
      | some r =>
        match totalSize hdrAtupx r with
        | .error e => .error e
        | .ok total => .ok (.atupx total (BitVec.ofNat 32 b.length) (Memory.ofBytes r))

/-- `FCOMP.AT4PN` (R239). -/
def compressPlug (p : Params) (b : Bytes) : Except Raise Container :=
  match p.plug with
  | none => .error ⟨.noUsableCompression, .codecAbsent⟩
  | some plug =>
    match plugCompress plug b with
    | none => .error ⟨.noUsableCompression, .codecFailed⟩
    | some blob => .ok (.at4pn blob)

/-- `FCOMP.f(SRC)` (R206, R232, R239). -/
def compressFormat (p : Params) (f : Format) (b : Bytes) : Except Raise Container :=
  match f with
  | .at4pn => compressPlug p b
  | .at3px => compressAt3px p b
  | .at4px => compressAt4px p b
  | .atupx => compressAtupx p b
  | .pkdpx => compressPkdpx p b

/-! ### FSER (R205, R238) -/

/-- `CT.csize = HDR(CT.fmt) + len(CT.payload)`, the invariant of every container the ENGINE produces (10_state.md R27);
AT4PN has no such fields. -/
def Container.consistent : Container → Bool
  | .at3px csize _ payload => decide (csize.toNat = hdrAt3px + payload.len)
  | .at4px csize _ _ payload => decide (csize.toNat = hdrAt4px + payload.len)
  | .pkdpx csize _ _ payload => decide (csize.toNat = hdrPkdpx + payload.len)
  | .atupx csize _ payload => decide (csize.toNat = hdrAtupx + payload.len)
  | .at4pn _ => true

/-- `CT.fmt` (R27). -/
def Container.format : Container → Format
  | .at3px _ _ _ => .at3px
  | .at4px _ _ _ _ => .at4px
  | .pkdpx _ _ _ _ => .pkdpx
  | .atupx _ _ _ => .atupx
  | .at4pn _ => .at4pn

/-- Header and payload of a container in wire order (30_encoding.md R106 to R110); AT4PN through the plug-in, none
where it is absent (R238). -/
def containerBytes (p : Params) (c : Container) : Option Bytes :=
  match c with
  | .at3px csize flags payload => some (magicAt3px ++ le16 csize ++ flags.entries ++ payload.bytes)
  | .at4px csize flags dsize payload => some (magicAt4px ++ le16 csize ++ flags.entries ++ le16 dsize ++ payload.bytes)
  | .pkdpx csize flags dsize payload => some (magicPkdpx ++ le16 csize ++ flags.entries ++ le32 dsize ++ payload.bytes)
  | .atupx csize dsize payload => some (magicAtupx ++ le16 csize ++ le32 dsize ++ payload.bytes)
  | .at4pn blob =>
    match p.plug with
    | none => none
    | some plug => some (plugSerialize plug blob)

/-- `FSER(CT)` (R205, R238). -/
def serialize (p : Params) (c : Container) : Except Raise Bytes :=
  if c.consistent then
    match containerBytes p c with
    | some b => .ok b
    | none => .error ⟨.noUsableCompression, .codecAbsent⟩
  else .error ⟨.illegalCommand, .badContainer⟩

/-- Bytes as a command's DST. -/
def bytesResult (b : Bytes) : Results := { dst := some (Memory.ofBytes b) }

/-! ### Meanings -/

/-- MATCH.AT4PN (R235). -/
def execMatchAt4pn (s : State) : Host.Outcome State Fault Refusal :=
  .next (s.done (matchResult (matchesFormat s.params .at4pn s.src.bytes s.cmdOffset)))

/-- MATCH.AT3PX (R210). -/
def execMatchAt3px (s : State) : Host.Outcome State Fault Refusal :=
  .next (s.done (matchResult (matchesFormat s.params .at3px s.src.bytes s.cmdOffset)))

/-- MATCH.AT4PX (R216). -/
def execMatchAt4px (s : State) : Host.Outcome State Fault Refusal :=
  .next (s.done (matchResult (matchesFormat s.params .at4px s.src.bytes s.cmdOffset)))

/-- MATCH.ATUPX (R228). -/
def execMatchAtupx (s : State) : Host.Outcome State Fault Refusal :=
  .next (s.done (matchResult (matchesFormat s.params .atupx s.src.bytes s.cmdOffset)))

/-- MATCH.PKDPX (R222). -/
def execMatchPkdpx (s : State) : Host.Outcome State Fault Refusal :=
  .next (s.done (matchResult (matchesFormat s.params .pkdpx s.src.bytes s.cmdOffset)))

/-- CSIZE.AT4PN (R236). -/
def execCsizeAt4pn (s : State) : Host.Outcome State Fault Refusal :=
  .next (s.finish {} ((sizePlug s.params s.src.bytes s.cmdOffset).map sizeResult))

/-- CSIZE.AT3PX (R211). -/
def execCsizeAt3px (s : State) : Host.Outcome State Fault Refusal :=
  .next (s.finish {} ((sizeField magicAt3px s.src.bytes s.cmdOffset).map sizeResult))

/-- CSIZE.AT4PX (R217). -/
def execCsizeAt4px (s : State) : Host.Outcome State Fault Refusal :=
  .next (s.finish {} ((sizeField magicAt4px s.src.bytes s.cmdOffset).map sizeResult))

/-- CSIZE.ATUPX (R229). -/
def execCsizeAtupx (s : State) : Host.Outcome State Fault Refusal :=
  .next (s.finish {} ((sizeField magicAtupx s.src.bytes s.cmdOffset).map sizeResult))

/-- CSIZE.PKDPX (R223). -/
def execCsizePkdpx (s : State) : Host.Outcome State Fault Refusal :=
  .next (s.finish {} ((sizeField magicPkdpx s.src.bytes s.cmdOffset).map sizeResult))

/-- A command that puts a container into CT, or raises (FDES, FCOMP, DDES, DCOMP). -/
def State.finishContainer (r : Except Raise Container) (s : State) : State := s.finish ctTargets (r.map containerResult)

/-- FDES.AT4PN (R237). -/
def execFdesAt4pn (s : State) : Host.Outcome State Fault Refusal :=
  .next (s.finishContainer (parseFormat s.params .at4pn s.src.bytes s.cmdOffset))

/-- FDES.AT3PX (R212). -/
def execFdesAt3px (s : State) : Host.Outcome State Fault Refusal :=
  .next (s.finishContainer (parseFormat s.params .at3px s.src.bytes s.cmdOffset))

/-- FDES.AT4PX (R218). -/
def execFdesAt4px (s : State) : Host.Outcome State Fault Refusal :=
  .next (s.finishContainer (parseFormat s.params .at4px s.src.bytes s.cmdOffset))

/-- FDES.ATUPX (R230). -/
def execFdesAtupx (s : State) : Host.Outcome State Fault Refusal :=
  .next (s.finishContainer (parseFormat s.params .atupx s.src.bytes s.cmdOffset))

/-- FDES.PKDPX (R224). -/
def execFdesPkdpx (s : State) : Host.Outcome State Fault Refusal :=
  .next (s.finishContainer (parseFormat s.params .pkdpx s.src.bytes s.cmdOffset))

/-- FCOMP.AT4PN (R239). -/
def execFcompAt4pn (s : State) : Host.Outcome State Fault Refusal :=
  .next (s.finishContainer (compressFormat s.params .at4pn s.src.bytes))

/-- FCOMP.AT3PX (R214). -/
def execFcompAt3px (s : State) : Host.Outcome State Fault Refusal :=
  .next (s.finishContainer (compressFormat s.params .at3px s.src.bytes))

/-- FCOMP.AT4PX (R220). -/
def execFcompAt4px (s : State) : Host.Outcome State Fault Refusal :=
  .next (s.finishContainer (compressFormat s.params .at4px s.src.bytes))

/-- FCOMP.ATUPX (R232). -/
def execFcompAtupx (s : State) : Host.Outcome State Fault Refusal :=
  .next (s.finishContainer (compressFormat s.params .atupx s.src.bytes))

/-- FCOMP.PKDPX (R226). -/
def execFcompPkdpx (s : State) : Host.Outcome State Fault Refusal :=
  .next (s.finishContainer (compressFormat s.params .pkdpx s.src.bytes))

/-- FSER (R205; per format R213, R219, R225, R231, R238). CT holding no value is IllegalCommand(NoValue). -/
def execFser (s : State) : Host.Outcome State Fault Refusal :=
  match s.ct.value with
  | none => .next (s.raise ⟨.illegalCommand, .noValue⟩ {})
  | some c => .next (s.finish {} ((serialize s.params c).map bytesResult))

/-- FDEC of an ATUPX container (R233). -/
def decompressAtupx (p : Params) (dsize : BitVec 32) (payload : Memory) : Except Raise Bytes :=
  match p.ext with
  | none => .error ⟨.noUsableCompression, .codecAbsent⟩
  | some ext =>
    match extDecompress ext payload.bytes dsize.toNat with
    | none => .error (corrupt .codecFailed)
    | some r => .ok r

/-- FDEC of an AT4PN-style container (R240). -/
def decompressPlug (p : Params) (blob : Bytes) : Except Raise Bytes :=
  match p.plug with
  | none => .error ⟨.noUsableCompression, .codecAbsent⟩
  | some plug =>
    match plugDecompress plug blob with
    | none => .error (corrupt .codecFailed)
    | some r => .ok r

/-- The effect of FDEC on a container (R207, R215, R221, R227, R233, R240). -/
def State.decompress (c : Container) (s : State) : State :=
  match c with
  | .at3px _ flags payload => s.runStream (.fdec none) payload flags
  | .at4px _ flags dsize payload => s.runStream (.fdec (some dsize.toNat)) payload flags
  | .pkdpx _ flags dsize payload => s.runStream (.fdec (some dsize.toNat)) payload flags
  | .atupx _ dsize payload => s.finish {} ((decompressAtupx s.params dsize payload).map bytesResult)
  | .at4pn blob => s.finish {} ((decompressPlug s.params blob).map bytesResult)

/-- FDEC (R207). CT holding no value is IllegalCommand(NoValue). -/
def execFdec (s : State) : Host.Outcome State Fault Refusal :=
  match s.ct.value with
  | none => .next (s.raise ⟨.illegalCommand, .noValue⟩ {})
  | some c => .next (s.decompress c)

end Sys2Proof.Machine
end

