-- ==== Sys2Proof/Machine/Dispatcher.lean ====
section
/-! DEFINITION. The CommonAt dispatcher (43_dispatcher.md): the configuration commands, detection, deserialisation and
smallest-result compression, with the meanings of ALLOW, DISALLOW, SETNATIVE, DETECT, DDES and DCOMP. -/

namespace Sys2Proof.Machine

/-! ### Configuration (R250 to R254) -/

/-- The bit of a format in CFG.allowed (10_state.md R23). -/
def allowedBit (f : Format) : BitVec 5 := 1#5 <<< f.id.toNat

/-- `f in CFG.allowed` (R23). -/
def isAllowed (allowed : BitVec 5) (f : Format) : Bool := allowed.getLsbD f.id.toNat

/-- `permitted(f)` (R254). -/
def permitted (gate : AtupxGate) (allowed : BitVec 5) (native : Bool) (f : Format) : Bool :=
  match f with
  | .at4pn => isAllowed allowed .at4pn
  | .at3px => isAllowed allowed .at3px
  | .at4px => isAllowed allowed .at4px
  | .pkdpx => isAllowed allowed .pkdpx
  | .atupx =>
    match gate with
    | .none => isAllowed allowed .atupx
    | .requiresNative => isAllowed allowed .atupx && native
    | .requiresNotNative => isAllowed allowed .atupx && !native

/-- ALLOW f: `CFG.allowed <- CFG.allowed ∪ {f}` (R251). -/
def execAllow (f : Format) (s : State) : Host.Outcome State Fault Refusal :=
  .next ((s.setCfg (s.cfgAllowed ||| allowedBit f) s.cfgNative).done {})

/-- DISALLOW f: `CFG.allowed <- CFG.allowed \ {f}` (R252). -/
def execDisallow (f : Format) (s : State) : Host.Outcome State Fault Refusal :=
  .next ((s.setCfg (s.cfgAllowed &&& ~~~(allowedBit f)) s.cfgNative).done {})

/-- SETNATIVE b: `CFG.native <- b` (R253). -/
def execSetnative (b : Bool) (s : State) : Host.Outcome State Fault Refusal :=
  .next ((s.setCfg s.cfgAllowed b).done {})

/-! ### Detection (R255 to R257) -/

/-- The fixed priority order of detection (R255). -/
def detectOrder : List Format := [.at4pn, .at3px, .at4px, .atupx, .pkdpx]

/-- `DETECT(SRC, o)`: the first format that matches; CFG plays no part (R255, R256). -/
def detectFormat (p : Params) (src : Bytes) (o : Nat) : Option Format :=
  detectOrder.find? (fun f => matchesFormat p f src o)

/-- The result of DETECT in RES: a format id, or 7 for none (10_state.md R28). -/
def detectResult (r : Option Format) : Results :=
  match r with
  | some f => { res := some (f.id.setWidth 32) }
  | none => { res := some 7#32 }

/-- DETECT (R255). -/
def execDetect (s : State) : Host.Outcome State Fault Refusal :=
  .next (s.done (detectResult (detectFormat s.params s.src.bytes s.cmdOffset)))

/-- `DDES(SRC)`: detect at offset 0, then that format's parse (R257). -/
def deserialize (p : Params) (src : Bytes) : Except Raise Container :=
  match detectFormat p src 0 with
  | none => .error ⟨.unrecognizedContainer, .none⟩
  | some f => parseFormat p f src 0

/-- DDES (R257). -/
def execDdes (s : State) : Host.Outcome State Fault Refusal :=
  .next (s.finishContainer (deserialize s.params s.src.bytes))

/-! ### Smallest-result compression (R258 to R266) -/

/-- `size(c)`: the length of the serialised container (R264). A container that FCOMP has just made always serialises,
so the last case is not reached from DCOMP (log entry 20). -/
def serializedSize (p : Params) (c : Container) : Nat :=
  match containerBytes p c with
  | some b => b.length
  | none => 0

/-- The smaller of the best so far and a new container; a tie keeps the best so far (R259). -/
def keepSmaller (p : Params) (best : Option Container) (c : Container) : Option Container :=
  match best with
  | none => some c
  | some b => if serializedSize p c < serializedSize p b then some c else some b

/-- The candidate loop: unpermitted candidates are skipped, errors of FCOMP.f are swallowed (R258, R261, R266). -/
def tryCandidates (p : Params) (allowed : BitVec 5) (native : Bool) (b : Bytes) :
    List Format → Option Container → Option Container
  | [], best => best
  | f :: fs, best =>
    if permitted p.atupxGate allowed native f then
      match compressFormat p f b with
      | .ok c => tryCandidates p allowed native b fs (keepSmaller p best c)
      | .error _ => tryCandidates p allowed native b fs best
    else tryCandidates p allowed native b fs best

/-- `DCOMP(SRC, cand)`: a reserved candidate id is refused before any other work (30_encoding.md R119, 60_exceptions.md
R287); then the smallest result, or NoUsableCompression (R258, R265). -/
def smallest (p : Params) (allowed : BitVec 5) (native : Bool) (cand : List (BitVec 3)) (b : Bytes) :
    Except Raise Container :=
  match candidateFormats cand with
  | none => .error ⟨.illegalCommand, .reservedEncoding⟩
  | some fs =>
    match tryCandidates p allowed native b fs none with
    | some c => .ok c
    | none => .error ⟨.noUsableCompression, .none⟩

/-- DCOMP (R258). -/
def execDcomp (s : State) : Host.Outcome State Fault Refusal :=
  .next (s.finishContainer (smallest s.params s.cfgAllowed s.cfgNative s.cmdCand s.src.bytes))

end Sys2Proof.Machine
end

