-- ==== Sys2Proof/Machine/Dispatch.lean ====
section
/-! DEFINITION. Dispatch: one arm per constructor of Instr, each one direct call of its meaning. -/

namespace Sys2Proof.Machine

/-- Executes one instruction (spec/opcode_table.json): a PX stream operation on the run in progress, or a host command
in one step. -/
def exec (i : Instr) (s : State) : Host.Outcome State Fault Refusal :=
  match i with
  | .cmdb c => Sys2Proof.Machine.execCmdb c s
  | .copy b => Sys2Proof.Machine.execCopy b s
  | .np0 l => Sys2Proof.Machine.execNp0 l s
  | .np1 l => Sys2Proof.Machine.execNp1 l s
  | .np2 l => Sys2Proof.Machine.execNp2 l s
  | .np3 l => Sys2Proof.Machine.execNp3 l s
  | .np4 l => Sys2Proof.Machine.execNp4 l s
  | .np5 l => Sys2Proof.Machine.execNp5 l s
  | .np6 l => Sys2Proof.Machine.execNp6 l s
  | .np7 l => Sys2Proof.Machine.execNp7 l s
  | .np8 l => Sys2Proof.Machine.execNp8 l s
  | .seq offset length => Sys2Proof.Machine.execSeq offset length s
  | .pxc level order => Sys2Proof.Machine.execPxc level order s
  | .pxd => Sys2Proof.Machine.execPxd s
  | .matchAt4pn => Sys2Proof.Machine.execMatchAt4pn s
  | .matchAt3px => Sys2Proof.Machine.execMatchAt3px s
  | .matchAt4px => Sys2Proof.Machine.execMatchAt4px s
  | .matchAtupx => Sys2Proof.Machine.execMatchAtupx s
  | .matchPkdpx => Sys2Proof.Machine.execMatchPkdpx s
  | .csizeAt4pn => Sys2Proof.Machine.execCsizeAt4pn s
  | .csizeAt3px => Sys2Proof.Machine.execCsizeAt3px s
  | .csizeAt4px => Sys2Proof.Machine.execCsizeAt4px s
  | .csizeAtupx => Sys2Proof.Machine.execCsizeAtupx s
  | .csizePkdpx => Sys2Proof.Machine.execCsizePkdpx s
  | .fdesAt4pn => Sys2Proof.Machine.execFdesAt4pn s
  | .fdesAt3px => Sys2Proof.Machine.execFdesAt3px s
  | .fdesAt4px => Sys2Proof.Machine.execFdesAt4px s
  | .fdesAtupx => Sys2Proof.Machine.execFdesAtupx s
  | .fdesPkdpx => Sys2Proof.Machine.execFdesPkdpx s
  | .fcompAt4pn => Sys2Proof.Machine.execFcompAt4pn s
  | .fcompAt3px => Sys2Proof.Machine.execFcompAt3px s
  | .fcompAt4px => Sys2Proof.Machine.execFcompAt4px s
  | .fcompAtupx => Sys2Proof.Machine.execFcompAtupx s
  | .fcompPkdpx => Sys2Proof.Machine.execFcompPkdpx s
  | .fser => Sys2Proof.Machine.execFser s
  | .fdec => Sys2Proof.Machine.execFdec s
  | .allow f => Sys2Proof.Machine.execAllow f s
  | .disallow f => Sys2Proof.Machine.execDisallow f s
  | .setnative b => Sys2Proof.Machine.execSetnative b s
  | .detect => Sys2Proof.Machine.execDetect s
  | .ddes => Sys2Proof.Machine.execDdes s
  | .dcomp => Sys2Proof.Machine.execDcomp s

end Sys2Proof.Machine
end

