-- ==== Sys2Proof/Machine/Issue.lean ====
section
/-! DEFINITION. Around the command word: what a reserved command word does, and how an instruction is placed where the
next step fetches it. -/

namespace Sys2Proof.Machine

/-- A reserved command word ends at once in IllegalCommand(ReservedEncoding) with no other effect; it is no command, so
it has no result registers of its own (30_encoding.md R119, 60_exceptions.md R287; log entry 9). -/
def State.refuseCommand (r : CommandReject) (s : State) : State :=
  match r with
  | .reservedOp => s.raise ⟨.illegalCommand, .reservedEncoding⟩ {}
  | .reservedArgument => s.raise ⟨.illegalCommand, .reservedEncoding⟩ {}
  | .reservedFormat => s.raise ⟨.illegalCommand, .reservedEncoding⟩ {}

/-- The table of a run that `placeFetchWord` starts: CFT if it holds a value, else nine zero bytes. A command byte does
not look at it. -/
def State.tableOrZero (s : State) : Cft := s.cft.value.getD ⟨0, 0, 0, 0, 0, 0, 0, 0, 0⟩

/-- The body of `State.withFetchWord` (Step.lean). Rows have sixteen bits (a command word: CW is written and the
command issued, between commands) or eight (a command byte: PXD stands at the start of a payload of that one byte). -/
def placeFetchWord (s : State) (nbits w : Nat) : State :=
  if nbits = 8 then
    s.setWork (.stream .pxd (PxdWork.start (Memory.ofBytes [BitVec.ofNat 8 w]) s.tableOrZero))
  else (s.setWork .idle).hostIssue (BitVec.ofNat 16 w)

end Sys2Proof.Machine
end

