-- ==== Sys2Proof/Machine/Step.lean ====
section
/-! DEFINITION. One step of the machine, and the host's way to place an instruction where it fetches. -/

namespace Sys2Proof.Machine

/-- One step. Between commands: the issued command word is decoded and executed, or refused as IllegalCommand; with no
command issued the ENGINE waits (60_exceptions.md R290; log entry 5). Inside PXC or PXD (the small-step view of
10_state.md R21): one operation is planned, or one element of the payload is fetched and executed. -/
def step (s : State) : Host.Outcome State Fault Refusal :=
  match s.work with
  | .idle =>
    if s.issued then
      match decodeCommand s.cw with
      | .ok i => exec i s.takeIssue
      | .error r => .next (s.takeIssue.refuseCommand r)
    else .next s
  | .plan w => .next (s.planStep w)
  | .stream goal w =>
    match w.fetch with
    | .finished => .next (s.endStream goal w false)
    | .commandByte c => exec (.cmdb c) s
    | .operation op => exec op.toInstr s
    | .truncated => .next (s.endStream goal w true)

/-- `s` with an opcode-table row's bits where the next step fetches: sixteen bits are written to CW and issued; eight
bits become a payload of one byte at the start of a run of PXD (log entries 5 and 17). -/
def State.withFetchWord (s : State) (nbits w : Nat) : State := Sys2Proof.Machine.placeFetchWord s nbits w

end Sys2Proof.Machine
end

