-- ==== Sys2Proof/Machine/Flags.lean ====
section
/-! DEFINITION. The flag-like state. The block has no arithmetic flags (10_state.md R38): its only flags are the eight
bits of CMDB (Decode.lean, `commandBit`) and STATUS and ERR, whose codes stand here, with the pairs of kind and cause
that the spec lets occur together. -/

namespace Sys2Proof.Machine

/-- The two-bit code of STATUS (10_state.md R29). -/
def Status.code : Status → BitVec 2
  | .idle => 0
  | .done => 1
  | .error => 2

/-- The three-bit code of ERR.kind (60_exceptions.md R280). -/
def ErrKind.code : ErrKind → BitVec 3
  | .none => 0
  | .inputTooLarge => 1
  | .outputTooLarge => 2
  | .corruptContainer => 3
  | .unrecognizedContainer => 4
  | .noUsableCompression => 5
  | .illegalCommand => 6

/-- The four-bit code of ERR.cause (60_exceptions.md R286). -/
def Cause.code : Cause → BitVec 4
  | .none => 0
  | .magicMismatch => 1
  | .sizeMismatch => 2
  | .backrefUnderflow => 3
  | .truncatedHeader => 4
  | .truncatedContainer => 5
  | .truncatedPayload => 6
  | .patternRange => 7
  | .codecAbsent => 8
  | .codecFailed => 9
  | .reservedEncoding => 10
  | .noValue => 11
  | .badContainer => 12

/-- The errors the spec defines: which causes go with which kind (R281 to R287, and the "with kind" column of R286). -/
def Raise.legal (e : Raise) : Bool :=
  match e.kind, e.cause with
  | .inputTooLarge, .none => true
  | .outputTooLarge, .none => true
  | .corruptContainer, .magicMismatch => true
  | .corruptContainer, .sizeMismatch => true
  | .corruptContainer, .backrefUnderflow => true
  | .corruptContainer, .truncatedHeader => true
  | .corruptContainer, .truncatedContainer => true
  | .corruptContainer, .truncatedPayload => true
  | .corruptContainer, .patternRange => true
  | .corruptContainer, .codecFailed => true
  | .unrecognizedContainer, .none => true
  | .noUsableCompression, .none => true
  | .noUsableCompression, .codecAbsent => true
  | .noUsableCompression, .codecFailed => true
  | .illegalCommand, .reservedEncoding => true
  | .illegalCommand, .noValue => true
  | .illegalCommand, .badContainer => true
  | _, _ => false

/-- `ERR` as the HOST reads it together: a legal error after ERROR, zero otherwise (10_state.md R29, R30). -/
def State.errConsistent (s : State) : Bool :=
  match s.status with
  | .idle => decide (s.errKind = .none) && decide (s.errCause = .none)
  | .done => decide (s.errKind = .none) && decide (s.errCause = .none)
  | .error => Raise.legal ⟨s.errKind, s.errCause⟩

end Sys2Proof.Machine
end

