-- ==== Sys2Proof/Safety.lean ====
section
/-! DEFINITION. The terms in which claims about the machine are stated: what a step answers, what stays the same, and
the invariants of the data model (10_state.md R27, R34, R36, R39, R40). -/

namespace Sys2Proof.Machine

/-- The state a step answers, if it answers one. -/
def nextState (o : Host.Outcome State Fault Refusal) : Option State :=
  match o with
  | .next s => some s
  | .fault _ => none
  | .refused _ => none

/-! ### What stays the same -/

/-- The parameters, the operand registers and SRC are those of before: no command writes them (10_state.md R25,
20_memory.md R69). -/
abbrev State.sameOperands (s t : State) : Prop :=
  t.params = s.params ∧ t.cw = s.cw ∧ t.cmdOffset = s.cmdOffset ∧ t.cmdCand = s.cmdCand ∧ t.src = s.src

/-- CFG is that of before (10_state.md R23, R24). -/
abbrev State.sameConfig (s t : State) : Prop := t.cfgAllowed = s.cfgAllowed ∧ t.cfgNative = s.cfgNative

/-- The result registers, STATUS and ERR are those of before. -/
abbrev State.sameResults (s t : State) : Prop :=
  t.dst = s.dst ∧ t.ct = s.ct ∧ t.res = s.res ∧ t.cft = s.cft ∧ t.status = s.status ∧ t.errKind = s.errKind ∧
    t.errCause = s.errCause

/-- `w'` stands after an operation of `n` payload bytes that `w` stood before: same program, `pc` moved on, and the
next operation of the block or, after eight, a command byte follows (41_px_decompressor.md R172, R173). -/
abbrev PxdWork.movedPast (n : Nat) (w w' : PxdWork) : Prop :=
  w'.payload = w.payload ∧ w'.flags = w.flags ∧ w'.pc = w.pc + n ∧
    (w.k.val = 7 → w'.cmdb = none ∧ w'.k.val = 0) ∧ (w.k.val < 7 → w'.cmdb = w.cmdb ∧ w'.k.val = w.k.val + 1)

/-- The bytes `a*16 + b`, `c*16 + d` of four nibbles (30_encoding.md R101). -/
def nibbleBytes (a b c d : Nat) : Bytes := [BitVec.ofNat 8 (a * 16 + b), BitVec.ofNat 8 (c * 16 + d)]

/-- The eight pairs whose pattern leaves 0..15 (R102). -/
def outOfRangePairs : List (Fin 9 × Nibble) :=
  [(1, 15), (2, 0), (3, 0), (4, 0), (5, 0), (6, 15), (7, 15), (8, 15)]

/-- The smallest bound of the size of PXC's output, `n + ceil(n / 8)` (40_px_compressor.md R150). -/
def packedBound (n : Nat) : Nat := n + (n + 7) / 8

/-- The command words of 30_encoding.md R116 as numbers, less those R119 reserves. -/
def legalCommandWord (n : Nat) : Bool :=
  (decide (0x0100 ≤ n) && decide (n ≤ 0x0107)) || decide (n = 0x0200) ||
  (decide (0x1000 ≤ n) && decide (n ≤ 0x1004)) || (decide (0x1100 ≤ n) && decide (n ≤ 0x1104)) ||
  (decide (0x1200 ≤ n) && decide (n ≤ 0x1204)) || (decide (0x1300 ≤ n) && decide (n ≤ 0x1304)) ||
  decide (n = 0x1400) || decide (n = 0x1500) ||
  (decide (0x2000 ≤ n) && decide (n ≤ 0x2004)) || (decide (0x2100 ≤ n) && decide (n ≤ 0x2104)) ||
  (decide (0x2200 ≤ n) && decide (n ≤ 0x2201)) || decide (n = 0x2300) || decide (n = 0x2400) || decide (n = 0x2500)

/-! ### Invariants -/

/-- The buffer inside a container is canonical; a blob is no buffer. -/
abbrev Container.canonical : Container → Prop
  | .at3px _ _ payload => payload.wf
  | .at4px _ _ _ payload => payload.wf
  | .pkdpx _ _ _ payload => payload.wf
  | .atupx _ _ payload => payload.wf
  | .at4pn _ => True

/-- Every buffer of the machine is in canonical form (20_memory.md R60). -/
structure State.canonical (s : State) : Prop where
  src : s.src.wf
  dst : ∀ m, s.dst = some m → m.wf
  ct : ∀ c, s.ct.value = some c → c.canonical
  work : ∀ goal w, s.work = .stream goal w → w.payload.wf ∧ w.out.wf

/-- "No partial output": after ERROR no result register holds anything the ENGINE wrote (10_state.md R39, 60_exceptions.md
R290, R291). -/
structure State.noPartialOutput (s : State) : Prop where
  dst : s.status = .error → s.dst = none
  res : s.status = .error → s.res = none
  ct : s.status = .error → ∀ c, s.ct ≠ .byEngine c
  cft : s.status = .error → ∀ t, s.cft ≠ .byEngine t

/-- A ReservedLengthSet: nibbles strictly ascending, at most seven, with the seed {0, 15} (10_state.md R33). -/
structure ReservedSet (rls : List Nibble) : Prop where
  ascending : rls.Pairwise (fun a b => a.toNat < b.toNat)
  size : rls.length ≤ 7
  low : 0#4 ∈ rls
  high : 15#4 ∈ rls

/-- What the ENGINE produces keeps the data model's invariants: a container's declared size (R27), nine distinct
nibbles in a ControlFlagTable (R34), and, inside a compression, the ReservedLengthSet (R33). -/
structure State.wellProduced (s : State) : Prop where
  ct : ∀ c, s.ct = .byEngine c → c.consistent = true
  cft : ∀ t, s.cft = .byEngine t → t.wf = true
  rls : ∀ w, s.work = .plan w → ReservedSet w.rls

/-- The cursors stay inside their buffers (10_state.md R32, R36, R37), and a run without a command byte stands at the
first operation of a block. -/
structure State.cursorsInside (s : State) : Prop where
  plan : ∀ w, s.work = .plan w → w.cur ≤ s.src.len
  stream : ∀ goal w, s.work = .stream goal w → w.pc ≤ w.payload.len
  block : ∀ goal w, s.work = .stream goal w → w.cmdb = none → w.k.val = 0

/-- The HOST's registers fit the realisation's widths: LENW is at least 32 and bounds SRC_LEN and CMD.offset (00_scope.md
R9, 10_state.md R25, R26), and the candidate list has at most 16 entries (30_encoding.md R118). -/
structure State.hostFits (s : State) : Prop where
  lenw : 32 ≤ s.params.lenw
  src : s.src.len < 2 ^ s.params.lenw
  offset : s.cmdOffset < 2 ^ s.params.lenw
  cand : s.cmdCand.length ≤ Config.maxCandidates

end Sys2Proof.Machine
end

