-- ==== Sys2Proof/Certificates/Slice0/Obligations.lean ====
section
/-! DEFINITION. The statements about the machine, one definition each; OBLIGATIONS.json lists them with the rules of
spec/ they formalise. -/

open Sys2Proof Sys2Proof.Machine

/-! ### Reset, the step, and how a command ends -/

/-- R321: the reset values the spec gives, for every setting of the parameters. -/
def Obligations.ResetLeavesTheStatedValues : Prop :=
  (∀ p : Params,
    let s := State.resetWith p
    s.cfgAllowed = 0x17#5 ∧ s.cfgNative = p.nativeReset ∧ s.status = .idle ∧ s.errKind = .none ∧ s.errCause = .none ∧
      s.dst = none ∧ s.ct = .none ∧ s.res = none ∧ s.cft = .none ∧ s.work = .idle) ∧
  State.reset = State.resetWith {} ∧
  (∀ f : Format, isAllowed State.reset.cfgAllowed f = true ↔ f ≠ .atupx)

/-- A step between commands runs the decoded command word: exec of the decoded instruction on the state whose issue
has been taken up. With nothing issued the ENGINE waits (the model's choice, log entry 5). -/
def Obligations.StepRunsTheIssuedCommand : Prop :=
  (∀ s i, s.work = .idle → s.issued = true → decodeCommand s.cw = .ok i → step s = exec i s.takeIssue) ∧
  (∀ s, s.work = .idle → s.issued = false → step s = .next s)

/-- A step inside a run of PXD runs the element fetched at pc: a command byte, or the operation that the command bit
and the table select (R172, R176); at the end of the payload the command finishes (R174). -/
def Obligations.StepRunsTheFetchedElement : Prop :=
  (∀ s g w c more, s.work = .stream g w → w.cmdb = none → w.rest = c :: more → step s = exec (.cmdb c) s) ∧
  (∀ s g w c op, s.work = .stream g w → w.cmdb = some c → decodeOp w.flags (commandBit c w.k.val) w.rest = .ok op →
    step s = exec op.toInstr s) ∧
  (∀ s g w, s.work = .stream g w → w.rest = [] → step s = .next (s.finishStream g w.out))

/-- The command words that are no command are exactly the reserved ones (rule R119); a reserved word ends at once in
ERROR with IllegalCommand, CFG unchanged. The model's choices: what becomes of the result registers (log entry 9), and
that a reserved candidate id is refused by DCOMP alone, the one command that reads CMD.cand (log entry 10). -/
def Obligations.ReservedCommandWordsAreRefused : Prop :=
  (∀ cw : BitVec 16, (∃ i, decodeCommand cw = .ok i) ↔ legalCommandWord cw.toNat = true) ∧
  (∀ s, s.work = .idle → s.issued = true → legalCommandWord s.cw.toNat = false →
    step s = .next (s.takeIssue.raise ⟨.illegalCommand, .reservedEncoding⟩ {})) ∧
  (∀ s, (∃ v ∈ s.cmdCand, 5 ≤ v.toNat) →
    exec .dcomp s = .next (s.raise ⟨.illegalCommand, .reservedEncoding⟩ { ct := true }))

/-- Every command word of R116's table, written out, decodes to the instruction it is written for; the sixteen words
of 95_test_vectors.md V-E8 are among them. -/
def Obligations.WrittenCommandWordsDecode : Prop :=
  (∀ p ∈ [(0x0100#16, Instr.pxc 0 .seqFirst), (0x0101, .pxc 1 .seqFirst), (0x0102, .pxc 2 .seqFirst),
      (0x0103, .pxc 3 .seqFirst), (0x0104, .pxc 0 .nibFirst), (0x0105, .pxc 1 .nibFirst), (0x0106, .pxc 2 .nibFirst),
      (0x0107, .pxc 3 .nibFirst), (0x0200, .pxd), (0x1400, .fser), (0x1500, .fdec)],
    decodeCommand p.1 = .ok p.2) ∧
  (∀ p ∈ [(0x1000#16, Instr.matchAt4pn), (0x1001, .matchAt3px), (0x1002, .matchAt4px), (0x1003, .matchAtupx),
      (0x1004, .matchPkdpx), (0x1100, .csizeAt4pn), (0x1101, .csizeAt3px), (0x1102, .csizeAt4px),
      (0x1103, .csizeAtupx), (0x1104, .csizePkdpx)],
    decodeCommand p.1 = .ok p.2) ∧
  (∀ p ∈ [(0x1200#16, Instr.fdesAt4pn), (0x1201, .fdesAt3px), (0x1202, .fdesAt4px), (0x1203, .fdesAtupx),
      (0x1204, .fdesPkdpx), (0x1300, .fcompAt4pn), (0x1301, .fcompAt3px), (0x1302, .fcompAt4px),
      (0x1303, .fcompAtupx), (0x1304, .fcompPkdpx)],
    decodeCommand p.1 = .ok p.2) ∧
  (∀ p ∈ [(0x2000#16, Instr.allow .at4pn), (0x2001, .allow .at3px), (0x2002, .allow .at4px), (0x2003, .allow .atupx),
      (0x2004, .allow .pkdpx), (0x2100, .disallow .at4pn), (0x2101, .disallow .at3px), (0x2102, .disallow .at4px),
      (0x2103, .disallow .atupx), (0x2104, .disallow .pkdpx)],
    decodeCommand p.1 = .ok p.2) ∧
  (∀ p ∈ [(0x2200#16, Instr.setnative false), (0x2201, .setnative true), (0x2300, .detect), (0x2400, .ddes),
      (0x2500, .dcomp)],
    decodeCommand p.1 = .ok p.2)

/-- What a command that ends in DONE leaves (the model's reading of R39, log entry 8): its results, ERR 0, nothing in
the other result registers but a HOST-written CT or CFT; parameters, CFG, operands and SRC as before. -/
def Obligations.DoneWritesOnlyTheResults : Prop :=
  ∀ (s : State) (r : Results),
    let t := s.done r
    t.status = .done ∧ t.errKind = .none ∧ t.errCause = .none ∧ t.dst = r.dst ∧ t.res = r.res ∧
      (∀ c, r.ct = some c → t.ct = .byEngine c) ∧ (∀ c, r.cft = some c → t.cft = .byEngine c) ∧
      (r.ct = none → (∀ c, s.ct = .byHost c → t.ct = s.ct) ∧ ((∀ c, s.ct ≠ .byHost c) → t.ct = .none)) ∧
      (r.cft = none → (∀ c, s.cft = .byHost c → t.cft = s.cft) ∧ ((∀ c, s.cft ≠ .byHost c) → t.cft = .none)) ∧
      t.work = .idle ∧ t.issued = s.issued ∧ s.sameOperands t ∧ s.sameConfig t

/-- What a raise leaves (rule R291): ERROR with the kind and cause, no result, CT and CFT without a value if the
command would have written them and otherwise with a HOST-written value only; everything else as before. That an
ENGINE-written CT or CFT which the command only read goes too is the model's reading of R39 (log entry 8). -/
def Obligations.RaiseAbandonsTheCommand : Prop :=
  ∀ (s : State) (e : Raise) (w : Targets),
    let t := s.raise e w
    t.status = .error ∧ t.errKind = e.kind ∧ t.errCause = e.cause ∧ t.dst = none ∧ t.res = none ∧
      (w.ct = true → t.ct = .none) ∧ (w.cft = true → t.cft = .none) ∧
      (w.ct = false → (∀ c, s.ct = .byHost c → t.ct = s.ct) ∧ ((∀ c, s.ct ≠ .byHost c) → t.ct = .none)) ∧
      (w.cft = false → (∀ c, s.cft = .byHost c → t.cft = s.cft) ∧ ((∀ c, s.cft ≠ .byHost c) → t.cft = .none)) ∧
      t.work = .idle ∧ t.issued = s.issued ∧ s.sameOperands t ∧ s.sameConfig t

/-! ### PX stream operations -/

/-- R172: a command byte is loaded, pc moves by one, the block starts at operation 0; OUT and everything else stay. -/
def Obligations.CommandByteOpensABlock : Prop :=
  ∀ s g w c, s.work = .stream g w →
    exec (.cmdb c) s = .next (s.setWork (.stream g { w with pc := w.pc + 1, cmdb := some c, k := 0 }))

/-- R175: a command bit of 1 selects CopyAsIs of the next payload byte, whatever byte it is; it appends the byte and
moves past one payload byte; only the working state changes. -/
def Obligations.CopyAppendsItsByte : Prop :=
  ∀ s g w b, s.work = .stream g w →
    (∀ c more, w.cmdb = some c → commandBit c w.k.val = true → w.rest = b :: more → step s = exec (.copy b) s) ∧
    ∃ w', exec (.copy b) s = .next (s.setWork (.stream g w')) ∧ w.movedPast 1 w' ∧ w'.out.bytes = w.out.bytes ++ [b]

/-- R177: a command bit of 0 and a high nibble equal to CFT[0] select NibblePattern(0, l), which appends `l*16 + l`
twice, for every l. -/
def Obligations.EqualPatternAppendsTwoBytes : Prop :=
  ∀ s g w l, s.work = .stream g w →
    (∀ c b more, w.cmdb = some c → commandBit c w.k.val = false → w.rest = b :: more →
      w.flags.get 0 = (hi4 b).setWidth 8 → lo4 b = l → step s = exec (.np0 l) s) ∧
    ∃ w', exec (.np0 l) s = .next (s.setWork (.stream g w')) ∧ w.movedPast 1 w' ∧
      w'.out.bytes = w.out.bytes ++ nibbleBytes l.toNat l.toNat l.toNat l.toNat

/-- NP1 to NP8 append the four nibbles of their row where it stays in 0..15 (rules R178 to R185). Rows 1 to 8 of the
table are marked "from general knowledge, not in source" by the spec (PRESUMED, log entry 12). -/
def Obligations.NearEqualPatternsAppendTwoBytes : Prop :=
  ∀ s g w (l : Nibble), s.work = .stream g w →
    let n := l.toNat
    let appends : Instr → Bytes → Prop := fun i added =>
      ∃ w', exec i s = .next (s.setWork (.stream g w')) ∧ w.movedPast 1 w' ∧ w'.out.bytes = w.out.bytes ++ added
    (n ≤ 14 → appends (.np1 l) (nibbleBytes n (n + 1) (n + 1) (n + 1)) ∧
      appends (.np6 l) (nibbleBytes n (n + 1) n n) ∧ appends (.np7 l) (nibbleBytes n n (n + 1) n) ∧
      appends (.np8 l) (nibbleBytes n n n (n + 1))) ∧
    (1 ≤ n → appends (.np2 l) (nibbleBytes n (n - 1) n n) ∧ appends (.np3 l) (nibbleBytes n n (n - 1) n) ∧
      appends (.np4 l) (nibbleBytes n n n (n - 1)) ∧ appends (.np5 l) (nibbleBytes n (n - 1) (n - 1) (n - 1)))

/-- Rule R189 over the pattern table whose rows 1 to 8 are PRESUMED (log entry 12): the eight pairs of R102 raise
CorruptContainer(PatternRange) with PATTERN_RANGE = FAULT and append the nibbles of their row taken modulo 16 with
WRAP (`F0 00` for (1, 15), 95_test_vectors.md V-D7); every other pair goes on under both. -/
def Obligations.PatternOutOfRangeFaultsOrWraps : Prop :=
  ∀ s g w (i : Fin 9) (l : Nibble), s.work = .stream g w →
    let n := l.toNat
    let up := (n + 1) % 16
    let down := (n + 15) % 16
    let added : Bytes :=
      match i with
      | 0 => nibbleBytes n n n n
      | 1 => nibbleBytes n up up up
      | 2 => nibbleBytes n down n n
      | 3 => nibbleBytes n n down n
      | 4 => nibbleBytes n n n down
      | 5 => nibbleBytes n down down down
      | 6 => nibbleBytes n up n n
      | 7 => nibbleBytes n n up n
      | 8 => nibbleBytes n n n up
    ((i, l) ∈ outOfRangePairs → s.params.patternRange = .fault →
      exec (Op.nibblePattern i l).toInstr s = .next (s.raise ⟨.corruptContainer, .patternRange⟩ {})) ∧
    ((i, l) ∉ outOfRangePairs ∨ s.params.patternRange = .wrap →
      ∃ w', exec (Op.nibblePattern i l).toInstr s = .next (s.setWork (.stream g w')) ∧ w.movedPast 1 w' ∧
        w'.out.bytes = w.out.bytes ++ added)

/-- R186, R68: a Sequence whose source starts inside OUT appends `length` bytes, byte `len(OUT) + j` of the new OUT
being its byte `len(OUT) + offset + j` (so an overlapping copy is the periodic extension); old bytes stay. -/
def Obligations.SequenceCopiesByteByByte : Prop :=
  ∀ s g w (offset : Int) (length : Nat), s.work = .stream g w → w.out.wf → offset ≤ -1 →
    0 ≤ (w.out.len : Int) + offset →
    ∃ w', exec (.seq offset length) s = .next (s.setWork (.stream g w')) ∧ w.movedPast 2 w' ∧
      w'.out.len = w.out.len + length ∧ (∀ a < w.out.len, w'.out.read a = w.out.read a) ∧
      (∀ j < length, w'.out.read (w.out.len + j) = w'.out.read (((w.out.len : Int) + offset).toNat + j) ∧
        (w'.out.read (w.out.len + j)).isSome)

/-- R187, R188: a Sequence whose source starts before OUT raises CorruptContainer(BackrefUnderflow), as the very first
operation always; a Sequence whose first byte is the last of the payload raises CorruptContainer(TruncatedPayload). -/
def Obligations.SequenceFaultsAreRaised : Prop :=
  ∀ s g w, s.work = .stream g w →
    (∀ (offset : Int) (length : Nat), (w.out.len : Int) + offset < 0 →
      exec (.seq offset length) s = .next (s.raise ⟨.corruptContainer, .backrefUnderflow⟩ {})) ∧
    (∀ (offset : Int) (length : Nat), w.out.len = 0 → offset ≤ -1 →
      exec (.seq offset length) s = .next (s.raise ⟨.corruptContainer, .backrefUnderflow⟩ {})) ∧
    (∀ c b, w.cmdb = some c → commandBit c w.k.val = false → w.rest = [b] →
      (∀ i, w.flags.get i ≠ (hi4 b).setWidth 8) →
      step s = .next (s.raise ⟨.corruptContainer, .truncatedPayload⟩ {}))

/-- R64: operation `k` of a block is governed by bit `7 - k` of the command byte, MSB first (90_conflicts.md C1). R100,
R190: under a command bit of 0 the least index whose entry equals the high nibble selects the pattern; no such index
makes a Sequence with offset `lo*256 + nb - 4096` and length `hi + 3`; a command bit of 1 is a literal. -/
def Obligations.PayloadBytesAreClassifiedByTheTable : Prop :=
  (∀ (c : Byte) (k : Fin 8), commandBit c k.val = decide (c.toNat / 2 ^ (7 - k.val) % 2 = 1)) ∧
  ∀ (t : Cft) (b : Byte) (more : Bytes),
    decodeOp t true (b :: more) = .ok (.copyAsIs b) ∧
    (∀ i, (t.get i).toNat = b.toNat / 16 → (∀ j < i, (t.get j).toNat ≠ b.toNat / 16) →
      decodeOp t false (b :: more) = .ok (.nibblePattern i (BitVec.ofNat 4 (b.toNat % 16)))) ∧
    ((∀ i, (t.get i).toNat ≠ b.toNat / 16) → ∀ nb rest, more = nb :: rest →
      decodeOp t false (b :: more) =
        .ok (.sequence (((b.toNat % 16 * 256 + nb.toNat : Nat) : Int) - 4096) (b.toNat / 16 + 3)))

/-- The frame of the stream operations (R61, R69, R290): a next state keeps the parameters, CFG, operands, SRC and the
issue; either the run goes on with the same program, no result register changed and every byte of OUT as before, or it
was abandoned and OUT is gone. Outside a run of PXD a stream operation stops by name, since the spec gives it no
effect there (log entry 16). -/
def Obligations.StreamOperationsChangeOnlyTheRun : Prop :=
  ∀ (i : Instr) (s : State), (i.toOp.isSome ∨ ∃ c, i = .cmdb c) →
    (∀ t g w, s.work = .stream g w → w.out.wf → exec i s = .next t →
      s.sameOperands t ∧ s.sameConfig t ∧ t.issued = s.issued ∧
        ((∃ w', t.work = .stream g w' ∧ s.sameResults t ∧ w'.payload = w.payload ∧ w'.flags = w.flags ∧
          ∀ a < w.out.len, w'.out.read a = w.out.read a) ∨
         (∃ c, t = s.raise ⟨.corruptContainer, c⟩ {}))) ∧
    ((∀ g w, s.work ≠ .stream g w) → exec i s = .fault .noStreamRun)

/-! ### PXC -/

/-- PXC completes: with a payload bound (R150) that fits 65536 it answers the table and the payload of R130. -/
def Obligations.PxcCompletes : Prop :=
  ∀ (s : State) (level : Level) (order : Order), s.params.granularity = .command → packedBound s.src.len ≤ 65536 →
    ∃ r, pxc s.params.flagFill level order s.src.bytes = .ok r ∧
      exec (.pxc level order) s = .next (s.done { dst := some (Memory.ofBytes r.payload), cft := some r.flags })

/-- R131, R146, R147, R148: PXC as its rule is written: the input check, then planning, the table, emission, the output
check, and the two results. The input check comes first in the small-step view too. Emission writes, for every eight
operations, a command byte whose bit `7 - k` is 1 exactly if operation `k` is there and is a CopyAsIs (so unused bits
are 0, R93), and then the operations. -/
def Obligations.PxcFollowsItsRule : Prop :=
  (∀ t : Cft, emit t [] = [] ∧
    (∀ ops, ops ≠ [] → ∃ c : Byte,
      emit t ops = [c] ++ (ops.take 8).flatMap (encodeOp t) ++ emit t (ops.drop 8) ∧
      ∀ k : Fin 8, c.toNat / 2 ^ (7 - k.val) % 2 = 1 ↔ ∃ b, ops[k.val]? = some (.copyAsIs b)) ∧
    (∀ b, encodeOp t (.copyAsIs b) = [b]) ∧
    (∀ i l, encodeOp t (.nibblePattern i l) = [BitVec.ofNat 8 ((t.get i).toNat * 16 + l.toNat)]) ∧
    (∀ (u : Nat) (length : Nat), encodeOp t (.sequence ((u : Int) - 4096) length) =
      [BitVec.ofNat 8 ((length - 3) * 16 + u / 256), BitVec.ofNat 8 (u % 256)])) ∧
  ∀ (s : State) (level : Level) (order : Order),
    (2147483647 < s.src.len →
      exec (.pxc level order) s = .next (s.raise ⟨.inputTooLarge, .none⟩ { cft := true })) ∧
    (s.src.len ≤ 2147483647 → s.params.granularity = .command →
      let w := plan level order s.src.bytes
      let flags := buildFlags s.params.flagFill w.rls
      let payload := emit flags w.ops
      exec (.pxc level order) s = .next
        (if 65536 < payload.length then s.raise ⟨.outputTooLarge, .none⟩ { cft := true }
        else s.done { dst := some (Memory.ofBytes payload), cft := some flags }))

/-- R150: the payload is at most `n + ceil(n/8)` bytes, reached at level 0. -/
def Obligations.PxcPayloadIsBounded : Prop :=
  ∀ fill level order input r, pxc fill level order input = .ok r →
    r.payload.length ≤ packedBound input.length ∧ (level = 0 → r.payload.length = packedBound input.length)

/-- R134: the priority order of planning at one cursor position: a sequence (level 3), a pattern (index 0 from level
1, indices 1 to 8 from level 2, over two bytes), a sequence after the patterns (NIB_FIRST), the literal. -/
def Obligations.PlanningFollowsThePriorityOrder : Prop :=
  ∀ (level : Level) (order : Order) (input : Bytes) (cur : Nat) (b : Byte) (rls : List Nibble),
    let plan := planOne level order input cur b rls
    (∀ r, level = 3 → order = .seqFirst → findSequence input cur rls = some r → plan = r) ∧
    (∀ op, planPattern level (input.drop cur) = some op →
      (level ≠ 3 ∨ order = .nibFirst ∨ findSequence input cur rls = none) → plan = (op, rls)) ∧
    (∀ r, level = 3 → order = .nibFirst → planPattern level (input.drop cur) = none →
      findSequence input cur rls = some r → plan = r) ∧
    ((level ≠ 3 ∨ findSequence input cur rls = none) → planPattern level (input.drop cur) = none →
      plan = (.copyAsIs b, rls)) ∧
    (∀ b0 b1 more, planPattern level (b0 :: b1 :: more) =
      match classify b0 b1 with
      | some (i, l) =>
        if (i.val = 0 ∧ 1 ≤ level.toNat) ∨ (1 ≤ i.val ∧ 2 ≤ level.toNat) then some (.nibblePattern i l) else none
      | none => none) ∧
    (∀ ahead, ahead.length < 2 → planPattern level ahead = none)

/-- R136, R137: a match found is the longest run of 3 to 18 bytes that equals the bytes at the cursor and lies wholly
in the preceding 4096 bytes, and the first of the longest; where none is found there is none. -/
def Obligations.MatchIsTheFirstOfTheLongest : Prop :=
  ∀ (input : Bytes) (cur : Nat), cur ≤ input.length →
    let equalRun : Nat → Nat → Prop := fun s k =>
      cur - 4096 ≤ s ∧ s < cur ∧ k ≤ 18 ∧ cur + k ≤ input.length ∧ s + k ≤ cur ∧
        ∀ j < k, input[s + j]? = input[cur + j]?
    (∀ m, findMatch input cur = some m →
      3 ≤ m.length ∧ m.distance ≤ cur ∧ equalRun (cur - m.distance) m.length ∧
        ∀ s k, equalRun s k → k ≤ m.length ∧ (k = m.length → cur - m.distance ≤ s)) ∧
    (findMatch input cur = none → ∀ s k, equalRun s k → k < 3)

/-- R138, R139: a length is kept if its code is reserved, reserved if the set has fewer than seven members, and
otherwise shrunk to the first entry, ascending, whose implied length is smaller. -/
def Obligations.LengthsAreReservedOrShrunk : Prop :=
  ∀ (rls : List Nibble) (length : Nat), ReservedSet rls → 3 ≤ length → length ≤ 18 →
    let v := BitVec.ofNat 4 (length - 3)
    let r := reserveOrShrink rls length
    (v ∈ rls → r = (length, rls)) ∧
    (v ∉ rls → rls.length < 7 → r.1 = length ∧ ReservedSet r.2 ∧ ∀ e, e ∈ r.2 ↔ e = v ∨ e ∈ rls) ∧
    (v ∉ rls → ¬ rls.length < 7 → r.2 = rls ∧ ∃ e ∈ rls, r.1 = e.toNat + 3 ∧ r.1 < length ∧
      ∀ e' ∈ rls, e'.toNat < e.toNat → length ≤ e'.toNat + 3)

/-- R154: what PXC plans: every Sequence has a length in 3..18 and an offset in -4096..-3, its length code is in the
final ReservedLengthSet, and every NibblePattern is in range; the set itself is a ReservedLengthSet. -/
def Obligations.PlannedOperationsAreInRange : Prop :=
  ∀ level order input,
    let w := plan level order input
    ReservedSet w.rls ∧
      ∀ op ∈ w.ops,
        (∀ offset length, op = .sequence offset length →
          3 ≤ length ∧ length ≤ 18 ∧ -4096 ≤ offset ∧ offset ≤ -3 ∧ BitVec.ofNat 4 (length - 3) ∈ w.rls) ∧
        (∀ i l, op = .nibblePattern i l → (pattern .fault i l).isSome)

/-- R145: the nine flags are distinct nibbles, ascending, none reserved; LOWEST_NINE leaves out no lower free nibble;
PAD_RESERVED leaves out exactly a set of seven that holds the reserved ones and the lowest others. -/
def Obligations.FlagsAvoidReservedLengths : Prop :=
  ∀ (fill : FlagFill) (rls : List Nibble), rls.Pairwise (fun a b => a.toNat < b.toNat) → rls.length ≤ 7 →
    let t := buildFlags fill rls
    t.wf = true ∧ t.entries.Pairwise (fun a b => a.toNat < b.toNat) ∧ (∀ v ∈ rls, v.setWidth 8 ∉ t.entries) ∧
    (fill = .lowestNine → ∀ v : Nibble, v ∉ rls → v.setWidth 8 ∉ t.entries → ∀ e ∈ t.entries, e.toNat < v.toNat) ∧
    (fill = .padReserved → ∀ v : Nibble, v ∉ rls → v.setWidth 8 ∉ t.entries → ∀ e ∈ t.entries, v.toNat < e.toNat)

/-- R103: `classify` inverts the pattern table: it answers (i, l) exactly for the two bytes that pattern (i, l) makes.
-/
def Obligations.ClassifyInvertsThePatternTable : Prop :=
  ∀ (b0 b1 : Byte) (i : Fin 9) (l : Nibble), classify b0 b1 = some (i, l) ↔ pattern .fault i l = some (b0, b1)

/-- The small-step view of PXC ends in the state of the atomic command (R21, R133): from the start of planning, as
many steps as the input is long, and one, reach it. -/
def Obligations.SmallStepPlanningEndsAsTheCommand : Prop :=
  ∀ (s : State) (level : Level) (order : Order), s.issued = false →
    Host.Core.run core (s.src.len + 1) (s.setWork (.plan (PxcWork.start level order))) =
      .next (s.finishPlan (plan level order s.src.bytes))

/-! ### PXD -/

/-- PXD completes: where the payload decodes it answers OUT in DST (R170, R191). -/
def Obligations.PxdCompletes : Prop :=
  ∀ (s : State) (flags : Cft) (out : Memory), s.cft.value = some flags → s.params.granularity = .command →
    pxd s.params.patternRange s.src flags = .ok out → exec .pxd s = .next (s.done { dst := some out })

/-- The small-step view that R21 allows (the model's choice of it, log entry 6): PXC, PXD and FDEC start with the
working state the rules give (R132, R171) and no result; the input check of PXC is made before (R131). -/
def Obligations.SmallStepCommandsStart : Prop :=
  ∀ s : State, s.params.granularity = .operation →
    let start : Memory → Cft → PxdWork := fun m flags =>
      { payload := m, flags := flags, pc := 0, cmdb := none, k := 0, out := Memory.empty }
    (∀ level order, s.src.len ≤ 2147483647 → exec (.pxc level order) s =
      .next (s.setWork (.plan { level := level, order := order, cur := 0, rls := [0, 15], ops := [] }))) ∧
    (∀ flags, s.cft.value = some flags → exec .pxd s = .next (s.setWork (.stream .pxd (start s.src flags)))) ∧
    (∀ n flags m, s.ct.value = some (.at3px n flags m) →
      exec .fdec s = .next (s.setWork (.stream (.fdec none) (start m flags)))) ∧
    (∀ n flags d m, s.ct.value = some (.at4px n flags d m) →
      exec .fdec s = .next (s.setWork (.stream (.fdec (some d.toNat)) (start m flags)))) ∧
    (∀ n flags d m, s.ct.value = some (.pkdpx n flags d m) →
      exec .fdec s = .next (s.setWork (.stream (.fdec (some d.toNat)) (start m flags))))

/-- A payload that does not decode is CorruptContainer with one of three causes (R170, R187 to R189); a command that
reads CFT or CT holding no value is IllegalCommand(NoValue) (R39, R287). That IllegalCommand is a next state, after
which DST and RES hold nothing, is the model's choice (log entry 9). -/
def Obligations.DecodingErrorsAreReported : Prop :=
  (∀ s flags c, s.cft.value = some flags → s.params.granularity = .command →
    pxd s.params.patternRange s.src flags = .error c →
    exec .pxd s = .next (s.raise ⟨.corruptContainer, c⟩ {}) ∧
      (c = .backrefUnderflow ∨ c = .truncatedPayload ∨ c = .patternRange)) ∧
  (∀ s, s.cft = .none → exec .pxd s = .next (s.raise ⟨.illegalCommand, .noValue⟩ {})) ∧
  (∀ s, s.ct = .none → exec .fser s = .next (s.raise ⟨.illegalCommand, .noValue⟩ {}) ∧
    exec .fdec s = .next (s.raise ⟨.illegalCommand, .noValue⟩ {}))

/-- R192: OUT is at most nine times the payload. -/
def Obligations.PxdOutputIsBounded : Prop :=
  ∀ range (payload : Memory) flags out, pxd range payload flags = .ok out → out.len ≤ 9 * payload.len

/-- The small-step view of PXD and FDEC ends in the state of the atomic command (R21, R174, R191). -/
def Obligations.SmallStepDecodingEndsAsTheCommand : Prop :=
  ∀ (s : State) (goal : Goal) (payload : Memory) (flags : Cft), s.issued = false →
    Host.Core.run core (payload.len + 1) (s.setWork (.stream goal (PxdWork.start payload flags))) =
      .next (s.streamToEnd goal payload flags)

/-- R193: for every input, level, order, FLAG_FILL and PATTERN_RANGE for which PXC succeeds, PXD gives the input back.
-/
def Obligations.DecompressInvertsCompress : Prop :=
  ∀ fill level order range input r, pxc fill level order input = .ok r →
    pxd range (Memory.ofBytes r.payload) r.flags = .ok (Memory.ofBytes input)

/-! ### Container formats -/

/-- MATCH answers 1 if the magic's bytes at the offset are all inside SRC and equal it, else 0, and never fails; AT4PN
uses the plug-in's magic, and answers 0 without a plug-in (rules R202, R235). The bytes of the four magics are those
of R111, which the spec marks as general knowledge (PRESUMED, log entry 13). -/
def Obligations.MatchAnswersWhetherTheMagicIsThere : Prop :=
  ∀ s : State,
    let answer : Bytes → State := fun magic =>
      s.done { res := some (if s.cmdOffset + magic.length ≤ s.src.len ∧
        (s.src.bytes.drop s.cmdOffset).take magic.length = magic then 1#32 else 0#32) }
    exec .matchAt3px s = .next (answer [0x41, 0x54, 0x33, 0x50, 0x58]) ∧
    exec .matchAt4px s = .next (answer [0x41, 0x54, 0x34, 0x50, 0x58]) ∧
    exec .matchPkdpx s = .next (answer [0x50, 0x4B, 0x44, 0x50, 0x58]) ∧
    exec .matchAtupx s = .next (answer [0x41, 0x54, 0x55, 0x50, 0x58]) ∧
    (s.params.plug = none → exec .matchAt4pn s = .next (s.done { res := some 0#32 })) ∧
    (∀ plug, s.params.plug = some plug →
      exec .matchAt4pn s = .next (answer (plug.magicHead :: plug.magicTail)))

/-- R203: CSIZE answers the stored u16, unchecked; without the magic it is MagicMismatch, without both size bytes
TruncatedHeader. -/
def Obligations.SizeIsTheStoredField : Prop :=
  ∀ (s : State) (i : Instr) (magic : Bytes),
    (i, magic) ∈ [(Instr.csizeAt3px, magicAt3px), (.csizeAt4px, magicAt4px), (.csizePkdpx, magicPkdpx),
      (.csizeAtupx, magicAtupx)] →
    let o := s.cmdOffset
    let there : Prop := o + 5 ≤ s.src.len ∧ (s.src.bytes.drop o).take 5 = magic
    (¬ there → exec i s = .next (s.raise ⟨.corruptContainer, .magicMismatch⟩ {})) ∧
    (there → s.src.len < o + 7 → exec i s = .next (s.raise ⟨.corruptContainer, .truncatedHeader⟩ {})) ∧
    (∀ lo hi, there → s.src.bytes[o + 5]? = some lo → s.src.bytes[o + 6]? = some hi →
      exec i s = .next (s.done { res := some (BitVec.ofNat 32 (lo.toNat + 256 * hi.toNat)) }))

/-- R236, R237: CSIZE.AT4PN and FDES.AT4PN forward to the plug-in where its magic is there. -/
def Obligations.PlugSizeAndParseForward : Prop :=
  ∀ s : State,
    (matchesFormat s.params .at4pn s.src.bytes s.cmdOffset = false →
      exec .csizeAt4pn s = .next (s.raise ⟨.corruptContainer, .magicMismatch⟩ {}) ∧
      exec .fdesAt4pn s = .next (s.raise ⟨.corruptContainer, .magicMismatch⟩ { ct := true })) ∧
    (∀ plug, s.params.plug = some plug → matchesFormat s.params .at4pn s.src.bytes s.cmdOffset = true →
      (∀ v, plugContainerSize plug s.src.bytes s.cmdOffset = some v →
        exec .csizeAt4pn s = .next (s.done { res := some v })) ∧
      (plugContainerSize plug s.src.bytes s.cmdOffset = none →
        exec .csizeAt4pn s = .next (s.raise ⟨.corruptContainer, .codecFailed⟩ {})) ∧
      (∀ blob, plugDecode plug s.src.bytes s.cmdOffset = some blob →
        exec .fdesAt4pn s = .next (s.done { ct := some (.at4pn blob) })) ∧
      (plugDecode plug s.src.bytes s.cmdOffset = none →
        exec .fdesAt4pn s = .next (s.raise ⟨.corruptContainer, .codecFailed⟩ { ct := true })))

/-- R204, R212, R218, R224, R230: FDES parses the header and takes the payload up to the declared size, where the four
checks pass. Every header integer is the sum of its bytes, the least significant first (R62). -/
def Obligations.ParseTakesTheDeclaredFields : Prop :=
  ∀ s : State,
    let o := s.cmdOffset
    let src := s.src.bytes
    let b : Nat → Byte := fun i => src.getD (o + i) 0
    let u16 : Nat → BitVec 16 := fun i => BitVec.ofNat 16 ((b i).toNat + 256 * (b (i + 1)).toNat)
    let u32 : Nat → BitVec 32 := fun i => BitVec.ofNat 32
      ((b i).toNat + 256 * (b (i + 1)).toNat + 65536 * (b (i + 2)).toNat + 16777216 * (b (i + 3)).toNat)
    let csize := u16 5
    let flags : Cft := ⟨b 7, b 8, b 9, b 10, b 11, b 12, b 13, b 14, b 15⟩
    let payload : Nat → Memory := fun hdr => Memory.ofBytes ((src.drop (o + hdr)).take (csize.toNat - hdr))
    let passes : Bytes → Nat → Prop := fun magic hdr =>
      (src.drop o).take 5 = magic ∧ o + hdr ≤ src.length ∧ hdr ≤ csize.toNat ∧ o + csize.toNat ≤ src.length
    (passes magicAt3px 16 → exec .fdesAt3px s = .next (s.done { ct := some (.at3px csize flags (payload 16)) })) ∧
    (passes magicAt4px 18 →
      exec .fdesAt4px s = .next (s.done { ct := some (.at4px csize flags (u16 16) (payload 18)) })) ∧
    (passes magicPkdpx 20 →
      exec .fdesPkdpx s = .next (s.done { ct := some (.pkdpx csize flags (u32 16) (payload 20)) })) ∧
    (passes magicAtupx 11 → exec .fdesAtupx s = .next (s.done { ct := some (.atupx csize (u32 7) (payload 11)) }))

/-- R204: the four checks of FDES in order, and the cause each failure gives. -/
def Obligations.ParseChecksInOrder : Prop :=
  ∀ (s : State) (i : Instr) (magic : Bytes) (hdr : Nat),
    (i, magic, hdr) ∈ [(Instr.fdesAt3px, magicAt3px, 16), (.fdesAt4px, magicAt4px, 18), (.fdesPkdpx, magicPkdpx, 20),
      (.fdesAtupx, magicAtupx, 11)] →
    let o := s.cmdOffset
    let avail := s.src.len - o
    let csize := (u16le s.src.bytes (o + 5)).toNat
    let there : Prop := o + 5 ≤ s.src.len ∧ (s.src.bytes.drop o).take 5 = magic
    let raises : Cause → Prop := fun c => exec i s = .next (s.raise ⟨.corruptContainer, c⟩ { ct := true })
    (¬ there → raises .magicMismatch) ∧
    (there → avail < hdr → raises .truncatedHeader) ∧
    (there → hdr ≤ avail → csize < hdr → raises .truncatedHeader) ∧
    (there → hdr ≤ avail → hdr ≤ csize → avail < csize → raises .truncatedContainer)

/-- R206: FCOMP of the PX formats follows its rule whatever PXC answers: AT4PX's own input check, PXC's errors, the
65535 limit, and the container built from PXC's result. -/
def Obligations.PxContainersFollowPxc : Prop :=
  ∀ s : State,
    let b := s.src.bytes
    let p := s.params
    let wrapped : Nat → (BitVec 16 → Cft → Memory → Container) → State := fun hdr mk =>
      match pxc p.flagFill p.fmtLevel p.fmtOrder b with
      | .error e => s.raise e { ct := true }
      | .ok r =>
        if 65535 < hdr + r.payload.length then s.raise ⟨.outputTooLarge, .none⟩ { ct := true }
        else s.done { ct := some (mk (BitVec.ofNat 16 (hdr + r.payload.length)) r.flags (Memory.ofBytes r.payload)) }
    exec .fcompAt3px s = .next (wrapped 16 .at3px) ∧
    (b.length ≤ 65535 → exec .fcompAt4px s =
      .next (wrapped 18 fun n flags m => .at4px n flags (BitVec.ofNat 16 b.length) m)) ∧
    (65535 < b.length → exec .fcompAt4px s = .next (s.raise ⟨.inputTooLarge, .none⟩ { ct := true })) ∧
    exec .fcompPkdpx s = .next (wrapped 20 fun n flags m => .pkdpx n flags (BitVec.ofNat 32 b.length) m)

/-- FCOMP of the PX formats completes on every input whose payload bound fits beside the header (R150, R206, R242). -/
def Obligations.PxContainersComplete : Prop :=
  ∀ s : State,
    let n := s.src.len
    let packs : Packed → Prop := fun r =>
      pxc s.params.flagFill s.params.fmtLevel s.params.fmtOrder s.src.bytes = .ok r
    (packedBound n + 16 ≤ 65535 → ∃ r, packs r ∧
      let c := Container.at3px (BitVec.ofNat 16 (16 + r.payload.length)) r.flags (Memory.ofBytes r.payload)
      exec .fcompAt3px s = .next (s.done { ct := some c })) ∧
    (packedBound n + 18 ≤ 65535 → ∃ r, packs r ∧
      let c := Container.at4px (BitVec.ofNat 16 (18 + r.payload.length)) r.flags (BitVec.ofNat 16 n)
        (Memory.ofBytes r.payload)
      exec .fcompAt4px s = .next (s.done { ct := some c })) ∧
    (packedBound n + 20 ≤ 65535 → ∃ r, packs r ∧
      let c := Container.pkdpx (BitVec.ofNat 16 (20 + r.payload.length)) r.flags (BitVec.ofNat 32 n)
        (Memory.ofBytes r.payload)
      exec .fcompPkdpx s = .next (s.done { ct := some c }))

/-- R232, R239: FCOMP.ATUPX frames what the external codec returns, with its errors in order; FCOMP.AT4PN holds what
the plug-in's compress returns. -/
def Obligations.PlugInCompressionIsHeld : Prop :=
  ∀ s : State,
    let b := s.src.bytes
    (s.params.ext = none → exec .fcompAtupx s = .next (s.raise ⟨.noUsableCompression, .codecAbsent⟩ { ct := true })) ∧
    (∀ ext, s.params.ext = some ext → 4294967295 < b.length →
      exec .fcompAtupx s = .next (s.raise ⟨.inputTooLarge, .none⟩ { ct := true })) ∧
    (∀ ext, s.params.ext = some ext → b.length ≤ 4294967295 → extCompress ext b = none →
      exec .fcompAtupx s = .next (s.raise ⟨.noUsableCompression, .codecFailed⟩ { ct := true })) ∧
    (∀ ext r, s.params.ext = some ext → b.length ≤ 4294967295 → extCompress ext b = some r → 65535 < 11 + r.length →
      exec .fcompAtupx s = .next (s.raise ⟨.outputTooLarge, .none⟩ { ct := true })) ∧
    (∀ ext r, s.params.ext = some ext → b.length ≤ 4294967295 → extCompress ext b = some r → 11 + r.length ≤ 65535 →
      let c := Container.atupx (BitVec.ofNat 16 (11 + r.length)) (BitVec.ofNat 32 b.length) (Memory.ofBytes r)
      exec .fcompAtupx s = .next (s.done { ct := some c })) ∧
    (s.params.plug = none →
      exec .fcompAt4pn s = .next (s.raise ⟨.noUsableCompression, .codecAbsent⟩ { ct := true })) ∧
    (∀ plug, s.params.plug = some plug →
      (plugCompress plug b = none →
        exec .fcompAt4pn s = .next (s.raise ⟨.noUsableCompression, .codecFailed⟩ { ct := true })) ∧
      (∀ blob, plugCompress plug b = some blob →
        exec .fcompAt4pn s = .next (s.done { ct := some (.at4pn blob) })))

/-- FSER writes magic, size, flags, decoded size and payload in wire order, every integer with its least significant
byte first (rules R205, R62). The bytes of the magics are PRESUMED (log entry 13). A CT whose size is not header plus
payload is IllegalCommand(BadContainer), a next state by the model's choice (log entry 9). -/
def Obligations.SerializeWritesTheWireOrder : Prop :=
  ∀ s : State,
    let u16 : BitVec 16 → Bytes := fun v => [BitVec.ofNat 8 (v.toNat % 256), BitVec.ofNat 8 (v.toNat / 256)]
    let u32 : BitVec 32 → Bytes := fun v => [BitVec.ofNat 8 (v.toNat % 256), BitVec.ofNat 8 (v.toNat / 256 % 256),
      BitVec.ofNat 8 (v.toNat / 65536 % 256), BitVec.ofNat 8 (v.toNat / 16777216)]
    (∀ c, s.ct.value = some c → c.consistent = false →
      exec .fser s = .next (s.raise ⟨.illegalCommand, .badContainer⟩ {})) ∧
    (∀ n flags m, s.ct.value = some (.at3px n flags m) → n.toNat = 16 + m.len →
      exec .fser s = .next (s.done { dst := some (Memory.ofBytes
        ([0x41, 0x54, 0x33, 0x50, 0x58] ++ u16 n ++ flags.entries ++ m.bytes)) })) ∧
    (∀ n flags d m, s.ct.value = some (.at4px n flags d m) → n.toNat = 18 + m.len →
      exec .fser s = .next (s.done { dst := some (Memory.ofBytes
        ([0x41, 0x54, 0x34, 0x50, 0x58] ++ u16 n ++ flags.entries ++ u16 d ++ m.bytes)) })) ∧
    (∀ n flags d m, s.ct.value = some (.pkdpx n flags d m) → n.toNat = 20 + m.len →
      exec .fser s = .next (s.done { dst := some (Memory.ofBytes
        ([0x50, 0x4B, 0x44, 0x50, 0x58] ++ u16 n ++ flags.entries ++ u32 d ++ m.bytes)) })) ∧
    (∀ n d m, s.ct.value = some (.atupx n d m) → n.toNat = 11 + m.len →
      exec .fser s = .next (s.done { dst := some (Memory.ofBytes
        ([0x41, 0x54, 0x55, 0x50, 0x58] ++ u16 n ++ u32 d ++ m.bytes)) }))

/-- R207: FDEC of a PX container: a decode error comes first; AT4PX and PKDPX then assert the declared length; AT3PX
does not. -/
def Obligations.PxContainersDecode : Prop :=
  ∀ (s : State) (c : Container) (flags : Cft) (m : Memory) (asserted : Option Nat), s.ct.value = some c →
    s.params.granularity = .command →
    ((∃ n, c = .at3px n flags m ∧ asserted = none) ∨ (∃ n d, c = .at4px n flags d m ∧ asserted = some d.toNat) ∨
      (∃ n d, c = .pkdpx n flags d m ∧ asserted = some d.toNat)) →
    (∀ e, pxd s.params.patternRange m flags = .error e →
      exec .fdec s = .next (s.raise ⟨.corruptContainer, e⟩ {})) ∧
    (∀ out, pxd s.params.patternRange m flags = .ok out →
      ((∀ n, asserted = some n → out.len = n) → exec .fdec s = .next (s.done { dst := some out })) ∧
      (∀ n, asserted = some n → out.len ≠ n →
        exec .fdec s = .next (s.raise ⟨.corruptContainer, .sizeMismatch⟩ {})))

/-- R233, R238, R240: FDEC of ATUPX and FSER and FDEC of AT4PN through the plug-ins. -/
def Obligations.PlugInsSerializeAndDecode : Prop :=
  ∀ s : State,
    (∀ n d m, s.ct.value = some (.atupx n d m) →
      (s.params.ext = none → exec .fdec s = .next (s.raise ⟨.noUsableCompression, .codecAbsent⟩ {})) ∧
      (∀ ext, s.params.ext = some ext →
        (extDecompress ext m.bytes d.toNat = none →
          exec .fdec s = .next (s.raise ⟨.corruptContainer, .codecFailed⟩ {})) ∧
        (∀ r, extDecompress ext m.bytes d.toNat = some r →
          exec .fdec s = .next (s.done { dst := some (Memory.ofBytes r) })))) ∧
    (∀ blob, s.ct.value = some (.at4pn blob) →
      (s.params.plug = none →
        exec .fser s = .next (s.raise ⟨.noUsableCompression, .codecAbsent⟩ {}) ∧
        exec .fdec s = .next (s.raise ⟨.noUsableCompression, .codecAbsent⟩ {})) ∧
      (∀ plug, s.params.plug = some plug →
        exec .fser s = .next (s.done { dst := some (Memory.ofBytes (plugSerialize plug blob)) }) ∧
        (plugDecompress plug blob = none → exec .fdec s = .next (s.raise ⟨.corruptContainer, .codecFailed⟩ {})) ∧
        (∀ r, plugDecompress plug blob = some r →
          exec .fdec s = .next (s.done { dst := some (Memory.ofBytes r) }))))

/-- R205: parsing what FSER writes gives the container back, for the four formats with a layout. -/
def Obligations.ParseInvertsSerialize : Prop :=
  ∀ (p : Params) (c : Container) (b : Bytes), c.format ≠ .at4pn → c.canonical → serialize p c = .ok b →
    parseFormat p c.format b 0 = .ok c ∧ b.length = (u16le b 5).toNat

/-- R241: a container that FCOMP makes for a PX format, serialised, is recognised, parses back to itself and decodes
to the input, unless a plug-in's magic hides it. -/
def Obligations.ContainerRoundTrip : Prop :=
  ∀ (p : Params) (f : Format) (input : Bytes) (c : Container), f ∈ [Format.at3px, .at4px, .pkdpx] →
    compressFormat p f input = .ok c →
    ∃ b, serialize p c = .ok b ∧
      (matchesPlug p b 0 = false → deserialize p b = .ok c) ∧
      ∀ s : State, s.ct.value = some c → s.params = { p with granularity := .command } →
        exec .fdec s = .next (s.done { dst := some (Memory.ofBytes input) })

/-! ### The dispatcher -/

/-- ALLOW puts one format into CFG.allowed and DISALLOW takes it out, no other format changing; SETNATIVE writes
CFG.native; none writes the other part of CFG, and none fails (rules R251 to R253). What they leave in the result
registers is the model's reading of R39 beside R251's "writes no other state" (log entry 8). -/
def Obligations.ConfigCommandsEditTheConfiguration : Prop :=
  ∀ (s : State) (f : Format),
    (∃ a, exec (.allow f) s = .next ((s.setCfg a s.cfgNative).done {}) ∧
      ∀ f', isAllowed a f' = (decide (f' = f) || isAllowed s.cfgAllowed f')) ∧
    (∃ a, exec (.disallow f) s = .next ((s.setCfg a s.cfgNative).done {}) ∧
      ∀ f', isAllowed a f' = (!decide (f' = f) && isAllowed s.cfgAllowed f')) ∧
    (∀ b, exec (.setnative b) s = .next ((s.setCfg s.cfgAllowed b).done {}))

/-- R255, R256: DETECT answers the first format in priority order that matches, or 7; CFG plays no part. -/
def Obligations.DetectAnswersTheFirstMatch : Prop :=
  ∀ s : State,
    let hits : Format → Bool := fun f => matchesFormat s.params f s.src.bytes s.cmdOffset
    (∀ before f after, [Format.at4pn, .at3px, .at4px, .atupx, .pkdpx] = before ++ f :: after → hits f = true →
      (∀ g ∈ before, hits g = false) → exec .detect s = .next (s.done { res := some (f.id.setWidth 32) })) ∧
    ((∀ f, hits f = false) → exec .detect s = .next (s.done { res := some 7 }))

/-- R257: DDES parses with the format detected at offset 0, whatever CMD.offset and CFG hold; none is
UnrecognizedContainer, and the parse's errors come through. -/
def Obligations.DeserializeParsesTheDetectedFormat : Prop :=
  ∀ s : State,
    (detectFormat s.params s.src.bytes 0 = none →
      exec .ddes s = .next (s.raise ⟨.unrecognizedContainer, .none⟩ { ct := true })) ∧
    (∀ f c, detectFormat s.params s.src.bytes 0 = some f → parseFormat s.params f s.src.bytes 0 = .ok c →
      exec .ddes s = .next (s.done { ct := some c })) ∧
    (∀ f e, detectFormat s.params s.src.bytes 0 = some f → parseFormat s.params f s.src.bytes 0 = .error e →
      exec .ddes s = .next (s.raise e { ct := true }))

/-- R258, R259, R265, R266: DCOMP answers a container of a permitted candidate that succeeded, none of them smaller
and no earlier one as small; with no success it is NoUsableCompression. -/
def Obligations.DcompKeepsTheSmallest : Prop :=
  ∀ (s : State) (fs : List Format), candidateFormats s.cmdCand = some fs →
    let makes : Format → Container → Prop := fun f c =>
      permitted s.params.atupxGate s.cfgAllowed s.cfgNative f = true ∧ compressFormat s.params f s.src.bytes = .ok c
    ((∃ f ∈ fs, ∃ c, makes f c) →
      ∃ before f after c, fs = before ++ f :: after ∧ makes f c ∧ exec .dcomp s = .next (s.done { ct := some c }) ∧
        (∀ g ∈ before, ∀ c', makes g c' → serializedSize s.params c < serializedSize s.params c') ∧
        (∀ g ∈ after, ∀ c', makes g c' → serializedSize s.params c ≤ serializedSize s.params c')) ∧
    ((∀ f ∈ fs, ∀ c, ¬ makes f c) →
      exec .dcomp s = .next (s.raise ⟨.noUsableCompression, .none⟩ { ct := true }))

/-- R254, R263: a format outside CFG.allowed is not permitted under any gate; NONE gives CFG.native no effect and the
other gates make ATUPX wait for its value. -/
def Obligations.PermittedFollowsTheGate : Prop :=
  ∀ (gate : AtupxGate) (allowed : BitVec 5) (native : Bool) (f : Format),
    (permitted gate allowed native f = true → allowed.getLsbD f.id.toNat = true) ∧
    (f ≠ .atupx ∨ gate = .none → permitted gate allowed native f = allowed.getLsbD f.id.toNat) ∧
    (gate = .requiresNative → permitted gate allowed native .atupx = (allowed.getLsbD 3 && native)) ∧
    (gate = .requiresNotNative → permitted gate allowed native .atupx = (allowed.getLsbD 3 && !native))

/-! ### Encodings -/

/-- Decode and encode agree for every instruction: an instruction well formed under a table is read back from its
encoding under that table, every operand at every value (R95 to R100, R116). -/
def Obligations.DecodeInvertsEncode : Prop :=
  ∀ (t : Cft) (i : Instr), i.wf t = true → decode t (encode t i) = some i

/-- The other way: a command word that decodes is the word its command is written as (R116, R119), and a payload
operation that decodes is well formed and is written as the bytes it was read from (R94 to R100). -/
def Obligations.EncodeInvertsDecode : Prop :=
  (∀ (t : Cft) (cw : BitVec 16) (i : Instr), decodeCommand cw = .ok i → encode t i = .commandWord cw) ∧
  (∀ (t : Cft) (bit : Bool) (l : Bytes) (op : Op), decodeOp t bit l = .ok op →
    op.wf = true ∧ encode t op.toInstr = .operation bit (l.take op.size) ∧ op.encodable t = true)

/-! ### The whole machine -/

/-- R306: a step never stops: from every state the machine answers a next state. -/
def Obligations.StepAlwaysAnswersANextState : Prop := ∀ s : State, ∃ t, step s = .next t

/-- R22, R25, R69: a step changes no parameter, no operand register and not SRC; it changes CFG only by running ALLOW,
DISALLOW or SETNATIVE; and the HOST's registers stay inside their widths. -/
def Obligations.StepChangesConfigOnlyByItsCommands : Prop :=
  ∀ s t : State, step s = .next t →
    s.sameOperands t ∧ (s.hostFits → t.hostFits) ∧
    ((∀ f, decodeCommand s.cw ≠ .ok (.allow f)) → (∀ f, decodeCommand s.cw ≠ .ok (.disallow f)) →
      (∀ b, decodeCommand s.cw ≠ .ok (.setnative b)) → s.sameConfig t)

/-- Every step keeps every buffer in canonical form (R60). -/
def Obligations.StepKeepsBuffersCanonical : Prop := ∀ s t : State, s.canonical → step s = .next t → t.canonical

/-- Every step keeps STATUS and ERR in agreement: after ERROR a pair of kind and cause of R286, else zero (R29, R30).
-/
def Obligations.StepKeepsErrorCodesLegal : Prop :=
  ∀ s t : State, s.errConsistent = true → step s = .next t → t.errConsistent = true

/-- Every step keeps "no partial output": after ERROR no result register holds what the ENGINE wrote (R39, R290). That
this takes in a CT or CFT which an earlier command wrote and the failed one only read is the model's reading of R39
(log entry 8). -/
def Obligations.StepKeepsNoPartialOutput : Prop :=
  ∀ s t : State, s.noPartialOutput → step s = .next t → t.noPartialOutput

/-- Every step keeps what the ENGINE produces well made: declared sizes (R27), distinct flags (R34), the
ReservedLengthSet (R33). -/
def Obligations.StepKeepsProductsWellMade : Prop := ∀ s t : State, s.wellProduced → step s = .next t → t.wellProduced

/-- Every step keeps the cursors inside their buffers (R36, R37). -/
def Obligations.StepKeepsCursorsInside : Prop := ∀ s t : State, s.cursorsInside → step s = .next t → t.cursorsInside

/-- The invariants hold after reset. -/
def Obligations.ResetMeetsTheInvariants : Prop :=
  ∀ p : Params, 32 ≤ p.lenw →
    (State.resetWith p).canonical ∧ (State.resetWith p).errConsistent = true ∧ (State.resetWith p).noPartialOutput ∧
      (State.resetWith p).wellProduced ∧ (State.resetWith p).cursorsInside ∧ (State.resetWith p).hostFits
end

