-- ==== Sys2Proof/Laws/Memory.lean ====
section
/-! SUPPORT. Buffers: the canonical form is kept by every operation, and in it reading an address is indexing the byte
sequence (20_memory.md R60, R66, R68). -/

namespace Sys2Proof.Machine

/-! ### Lengths and contents -/

@[simp] theorem Memory.len_empty : Memory.empty.len = 0 := rfl

@[simp] theorem Memory.bytes_empty : Memory.empty.bytes = [] := rfl

@[simp] theorem Memory.length_bytes (m : Memory) : m.bytes.length = m.len := by
  simp [Memory.bytes, Memory.len]

@[simp] theorem Memory.len_ofBytes (l : Bytes) : (Memory.ofBytes l).len = l.length := by
  simp [Memory.ofBytes, Memory.len]

@[simp] theorem Memory.bytes_ofBytes (l : Bytes) : (Memory.ofBytes l).bytes = l := by
  simp [Memory.ofBytes, Memory.bytes, Function.comp_def]

@[simp] theorem Memory.len_append (m : Memory) (v : Byte) : (m.append v).len = m.len + 1 := by
  simp [Memory.append, Memory.len]

@[simp] theorem Memory.bytes_append (m : Memory) (v : Byte) : (m.append v).bytes = m.bytes ++ [v] := by
  simp [Memory.append, Memory.bytes]

/-! ### The canonical form -/

theorem Memory.wf_empty : Memory.empty.wf := rfl

theorem Memory.wf_ofBytes (l : Bytes) : (Memory.ofBytes l).wf := by
  simp [Memory.wf, Memory.ofBytes, Function.comp_def, List.zipIdx_map_snd, List.range_eq_range']

theorem Memory.wf_append {m : Memory} (h : m.wf) (v : Byte) : (m.append v).wf := by
  simp only [Memory.wf, Memory.append, Memory.len, List.map_append, List.map_cons, List.map_nil, List.length_append,
    List.length_cons, List.length_nil, List.range_succ] at h ⊢
  rw [h]

/-- A canonical buffer is the buffer of its byte sequence: equal contents are equal data. -/
theorem Memory.ofBytes_bytes {m : Memory} (h : m.wf) : Memory.ofBytes m.bytes = m := by
  obtain ⟨cells⟩ := m
  simp only [Memory.wf] at h
  simp only [Memory.ofBytes, Memory.bytes, Memory.mk.injEq]
  apply List.ext_getElem
  · simp
  · intro i h1 h2
    have hi : i < (cells.map Prod.fst).length := by simpa using h2
    have hfst : (cells.map Prod.fst)[i] = i := by
      have hr : i < (List.range cells.length).length := by simpa using h2
      have : (cells.map Prod.fst)[i] = (List.range cells.length)[i] := List.getElem_of_eq h hi
      rw [this, List.getElem_range]
    rw [List.getElem_map] at hfst
    rw [List.getElem_map, List.getElem_zipIdx, List.getElem_map]
    exact Prod.ext (by simp [hfst]) rfl

theorem Memory.eq_of_bytes_eq {m n : Memory} (hm : m.wf) (hn : n.wf) (h : m.bytes = n.bytes) : m = n := by
  rw [← Memory.ofBytes_bytes hm, ← Memory.ofBytes_bytes hn, h]

theorem Memory.append_ofBytes (l : Bytes) (v : Byte) : (Memory.ofBytes l).append v = Memory.ofBytes (l ++ [v]) :=
  Memory.eq_of_bytes_eq (Memory.wf_append (Memory.wf_ofBytes l) v) (Memory.wf_ofBytes _) (by simp)

/-! ### Reading -/

theorem lookup_zipIdx (l : Bytes) (k a : Nat) :
    List.lookup a ((l.zipIdx k).map (fun p => (p.2, p.1))) = if a < k then none else l[a - k]? := by
  induction l generalizing k with
  | nil => simp
  | cons b l ih =>
    simp only [List.zipIdx_cons, List.map_cons, List.lookup_cons]
    by_cases hak : a = k
    · subst hak
      simp
    · have hne : (a == k) = false := by simpa using hak
      rw [hne, ih (k + 1)]
      by_cases hlt : a < k
      · simp [hlt, Nat.lt_succ_of_lt hlt]
      · have h1 : ¬ a < k + 1 := by omega
        have h2 : a - k = (a - (k + 1)) + 1 := by omega
        simp [hlt, h1, h2]

/-- Reading an address of a canonical buffer is indexing its bytes; past the end there is no value (R66). -/
theorem Memory.read_eq {m : Memory} (h : m.wf) (a : Nat) : m.read a = m.bytes[a]? := by
  rw [← Memory.ofBytes_bytes h]
  simp only [Memory.read, Memory.bytes_ofBytes]
  rw [Memory.ofBytes, lookup_zipIdx]
  simp

/-- `append` leaves every byte of before alone and puts the new byte at the old length (R68). -/
theorem Memory.read_append {m : Memory} (h : m.wf) (v : Byte) (a : Nat) :
    (m.append v).read a = if a = m.len then some v else m.read a := by
  rw [Memory.read_eq (Memory.wf_append h v), Memory.read_eq h, Memory.bytes_append]
  rcases Nat.lt_trichotomy a m.len with hlt | heq | hgt
  · rw [List.getElem?_append_left (by simpa using hlt)]
    simp [Nat.ne_of_lt hlt]
  · subst heq
    simp
  · rw [List.getElem?_eq_none (by simp; omega), List.getElem?_eq_none (by simp; omega)]
    simp [Nat.ne_of_gt hgt]

/-! ### The byte-by-byte copy -/

theorem Memory.wf_copyBack {m : Memory} (h : m.wf) (count src : Nat) : (Memory.copyBack count src m).wf := by
  induction count generalizing src m with
  | zero => exact h
  | succ count ih =>
    unfold Memory.copyBack
    split
    · exact ih (Memory.wf_append h _) _
    · exact h

/-- The copy written on byte sequences: append the byte at the source position, then go on one position further. -/
def copyBytes : Nat → Nat → Bytes → Bytes
  | 0, _, l => l
  | count + 1, src, l =>
    match l[src]? with
    | some v => copyBytes count (src + 1) (l ++ [v])
    | none => l

theorem Memory.bytes_copyBack {m : Memory} (h : m.wf) (count src : Nat) :
    (Memory.copyBack count src m).bytes = copyBytes count src m.bytes := by
  induction count generalizing src m with
  | zero => rfl
  | succ count ih =>
    unfold Memory.copyBack copyBytes
    rw [Memory.read_eq h]
    cases hv : m.bytes[src]? with
    | none => rfl
    | some v => simpa using ih (Memory.wf_append h v) (src + 1)

/-- Everything the copy does from a source inside the sequence: it keeps what was there, and byte `l.length + j` is
byte `src + j` of the result (R68, 70_reset_and_hazards.md R324). -/
theorem copyBytes_spec (count src : Nat) (l : Bytes) (h : src < l.length) :
    ∃ added : Bytes, added.length = count ∧ copyBytes count src l = l ++ added ∧
      ∀ j < count, (l ++ added)[l.length + j]? = (l ++ added)[src + j]? := by
  induction count generalizing src l with
  | zero => exact ⟨[], rfl, by simp [copyBytes], by simp⟩
  | succ count ih =>
    obtain ⟨added, hlen, heq, hval⟩ := ih (src + 1) (l ++ [l[src]]) (by simp; omega)
    refine ⟨l[src] :: added, by simp [hlen], ?_, ?_⟩
    · unfold copyBytes
      rw [List.getElem?_eq_getElem h]
      simpa using heq
    · intro j hj
      cases j with
      | zero => simp [List.getElem?_append_left h, List.getElem?_eq_getElem h]
      | succ j =>
        have hv := hval j (by omega)
        simp only [List.append_assoc, List.cons_append, List.nil_append, List.length_append, List.length_cons,
          List.length_nil] at hv
        rw [show l.length + (j + 1) = l.length + (0 + 1) + j by omega, show src + (j + 1) = src + 1 + j by omega]
        exact hv

end Sys2Proof.Machine
end

