-- ==== Sys2Proof/Laws/State.lean ====
section
/-! SUPPORT. One lemma per field of State per update, true by rfl. -/

namespace Sys2Proof.Machine

variable (s : State)

/-! ### State.done -/

@[simp] theorem State.done_params (r : Results) : (s.done r).params = s.params := rfl
@[simp] theorem State.done_cfgAllowed (r : Results) : (s.done r).cfgAllowed = s.cfgAllowed := rfl
@[simp] theorem State.done_cfgNative (r : Results) : (s.done r).cfgNative = s.cfgNative := rfl
@[simp] theorem State.done_cw (r : Results) : (s.done r).cw = s.cw := rfl
@[simp] theorem State.done_cmdOffset (r : Results) : (s.done r).cmdOffset = s.cmdOffset := rfl
@[simp] theorem State.done_cmdCand (r : Results) : (s.done r).cmdCand = s.cmdCand := rfl
@[simp] theorem State.done_issued (r : Results) : (s.done r).issued = s.issued := rfl
@[simp] theorem State.done_src (r : Results) : (s.done r).src = s.src := rfl
@[simp] theorem State.done_dst (r : Results) : (s.done r).dst = r.dst := rfl
@[simp] theorem State.done_ct (r : Results) : (s.done r).ct = s.ct.update r.ct := rfl
@[simp] theorem State.done_res (r : Results) : (s.done r).res = r.res := rfl
@[simp] theorem State.done_cft (r : Results) : (s.done r).cft = s.cft.update r.cft := rfl
@[simp] theorem State.done_status (r : Results) : (s.done r).status = .done := rfl
@[simp] theorem State.done_errKind (r : Results) : (s.done r).errKind = .none := rfl
@[simp] theorem State.done_errCause (r : Results) : (s.done r).errCause = .none := rfl
@[simp] theorem State.done_work (r : Results) : (s.done r).work = .idle := rfl

/-! ### State.raise -/

@[simp] theorem State.raise_params (e : Raise) (w : Targets) : (s.raise e w).params = s.params := rfl
@[simp] theorem State.raise_cfgAllowed (e : Raise) (w : Targets) : (s.raise e w).cfgAllowed = s.cfgAllowed := rfl
@[simp] theorem State.raise_cfgNative (e : Raise) (w : Targets) : (s.raise e w).cfgNative = s.cfgNative := rfl
@[simp] theorem State.raise_cw (e : Raise) (w : Targets) : (s.raise e w).cw = s.cw := rfl
@[simp] theorem State.raise_cmdOffset (e : Raise) (w : Targets) : (s.raise e w).cmdOffset = s.cmdOffset := rfl
@[simp] theorem State.raise_cmdCand (e : Raise) (w : Targets) : (s.raise e w).cmdCand = s.cmdCand := rfl
@[simp] theorem State.raise_issued (e : Raise) (w : Targets) : (s.raise e w).issued = s.issued := rfl
@[simp] theorem State.raise_src (e : Raise) (w : Targets) : (s.raise e w).src = s.src := rfl
@[simp] theorem State.raise_dst (e : Raise) (w : Targets) : (s.raise e w).dst = none := rfl
@[simp] theorem State.raise_ct (e : Raise) (w : Targets) : (s.raise e w).ct = s.ct.afterError w.ct := rfl
@[simp] theorem State.raise_res (e : Raise) (w : Targets) : (s.raise e w).res = none := rfl
@[simp] theorem State.raise_cft (e : Raise) (w : Targets) : (s.raise e w).cft = s.cft.afterError w.cft := rfl
@[simp] theorem State.raise_status (e : Raise) (w : Targets) : (s.raise e w).status = .error := rfl
@[simp] theorem State.raise_errKind (e : Raise) (w : Targets) : (s.raise e w).errKind = e.kind := rfl
@[simp] theorem State.raise_errCause (e : Raise) (w : Targets) : (s.raise e w).errCause = e.cause := rfl
@[simp] theorem State.raise_work (e : Raise) (w : Targets) : (s.raise e w).work = .idle := rfl

/-! ### State.setCfg -/

@[simp] theorem State.setCfg_params (a : BitVec 5) (n : Bool) : (s.setCfg a n).params = s.params := rfl
@[simp] theorem State.setCfg_cfgAllowed (a : BitVec 5) (n : Bool) : (s.setCfg a n).cfgAllowed = a := rfl
@[simp] theorem State.setCfg_cfgNative (a : BitVec 5) (n : Bool) : (s.setCfg a n).cfgNative = n := rfl
@[simp] theorem State.setCfg_cw (a : BitVec 5) (n : Bool) : (s.setCfg a n).cw = s.cw := rfl
@[simp] theorem State.setCfg_cmdOffset (a : BitVec 5) (n : Bool) : (s.setCfg a n).cmdOffset = s.cmdOffset := rfl
@[simp] theorem State.setCfg_cmdCand (a : BitVec 5) (n : Bool) : (s.setCfg a n).cmdCand = s.cmdCand := rfl
@[simp] theorem State.setCfg_issued (a : BitVec 5) (n : Bool) : (s.setCfg a n).issued = s.issued := rfl
@[simp] theorem State.setCfg_src (a : BitVec 5) (n : Bool) : (s.setCfg a n).src = s.src := rfl
@[simp] theorem State.setCfg_dst (a : BitVec 5) (n : Bool) : (s.setCfg a n).dst = s.dst := rfl
@[simp] theorem State.setCfg_ct (a : BitVec 5) (n : Bool) : (s.setCfg a n).ct = s.ct := rfl
@[simp] theorem State.setCfg_res (a : BitVec 5) (n : Bool) : (s.setCfg a n).res = s.res := rfl
@[simp] theorem State.setCfg_cft (a : BitVec 5) (n : Bool) : (s.setCfg a n).cft = s.cft := rfl
@[simp] theorem State.setCfg_status (a : BitVec 5) (n : Bool) : (s.setCfg a n).status = s.status := rfl
@[simp] theorem State.setCfg_errKind (a : BitVec 5) (n : Bool) : (s.setCfg a n).errKind = s.errKind := rfl
@[simp] theorem State.setCfg_errCause (a : BitVec 5) (n : Bool) : (s.setCfg a n).errCause = s.errCause := rfl
@[simp] theorem State.setCfg_work (a : BitVec 5) (n : Bool) : (s.setCfg a n).work = s.work := rfl

/-! ### State.setWork -/

@[simp] theorem State.setWork_params (w : Work) : (s.setWork w).params = s.params := rfl
@[simp] theorem State.setWork_cfgAllowed (w : Work) : (s.setWork w).cfgAllowed = s.cfgAllowed := rfl
@[simp] theorem State.setWork_cfgNative (w : Work) : (s.setWork w).cfgNative = s.cfgNative := rfl
@[simp] theorem State.setWork_cw (w : Work) : (s.setWork w).cw = s.cw := rfl
@[simp] theorem State.setWork_cmdOffset (w : Work) : (s.setWork w).cmdOffset = s.cmdOffset := rfl
@[simp] theorem State.setWork_cmdCand (w : Work) : (s.setWork w).cmdCand = s.cmdCand := rfl
@[simp] theorem State.setWork_issued (w : Work) : (s.setWork w).issued = s.issued := rfl
@[simp] theorem State.setWork_src (w : Work) : (s.setWork w).src = s.src := rfl
@[simp] theorem State.setWork_dst (w : Work) : (s.setWork w).dst = s.dst := rfl
@[simp] theorem State.setWork_ct (w : Work) : (s.setWork w).ct = s.ct := rfl
@[simp] theorem State.setWork_res (w : Work) : (s.setWork w).res = s.res := rfl
@[simp] theorem State.setWork_cft (w : Work) : (s.setWork w).cft = s.cft := rfl
@[simp] theorem State.setWork_status (w : Work) : (s.setWork w).status = s.status := rfl
@[simp] theorem State.setWork_errKind (w : Work) : (s.setWork w).errKind = s.errKind := rfl
@[simp] theorem State.setWork_errCause (w : Work) : (s.setWork w).errCause = s.errCause := rfl
@[simp] theorem State.setWork_work (w : Work) : (s.setWork w).work = w := rfl

/-! ### State.takeIssue -/

@[simp] theorem State.takeIssue_params : s.takeIssue.params = s.params := rfl
@[simp] theorem State.takeIssue_cfgAllowed : s.takeIssue.cfgAllowed = s.cfgAllowed := rfl
@[simp] theorem State.takeIssue_cfgNative : s.takeIssue.cfgNative = s.cfgNative := rfl
@[simp] theorem State.takeIssue_cw : s.takeIssue.cw = s.cw := rfl
@[simp] theorem State.takeIssue_cmdOffset : s.takeIssue.cmdOffset = s.cmdOffset := rfl
@[simp] theorem State.takeIssue_cmdCand : s.takeIssue.cmdCand = s.cmdCand := rfl
@[simp] theorem State.takeIssue_issued : s.takeIssue.issued = false := rfl
@[simp] theorem State.takeIssue_src : s.takeIssue.src = s.src := rfl
@[simp] theorem State.takeIssue_dst : s.takeIssue.dst = s.dst := rfl
@[simp] theorem State.takeIssue_ct : s.takeIssue.ct = s.ct := rfl
@[simp] theorem State.takeIssue_res : s.takeIssue.res = s.res := rfl
@[simp] theorem State.takeIssue_cft : s.takeIssue.cft = s.cft := rfl
@[simp] theorem State.takeIssue_status : s.takeIssue.status = s.status := rfl
@[simp] theorem State.takeIssue_errKind : s.takeIssue.errKind = s.errKind := rfl
@[simp] theorem State.takeIssue_errCause : s.takeIssue.errCause = s.errCause := rfl
@[simp] theorem State.takeIssue_work : s.takeIssue.work = s.work := rfl

/-! ### State.hostIssue -/

@[simp] theorem State.hostIssue_params (c : BitVec 16) : (s.hostIssue c).params = s.params := rfl
@[simp] theorem State.hostIssue_cfgAllowed (c : BitVec 16) : (s.hostIssue c).cfgAllowed = s.cfgAllowed := rfl
@[simp] theorem State.hostIssue_cfgNative (c : BitVec 16) : (s.hostIssue c).cfgNative = s.cfgNative := rfl
@[simp] theorem State.hostIssue_cw (c : BitVec 16) : (s.hostIssue c).cw = c := rfl
@[simp] theorem State.hostIssue_cmdOffset (c : BitVec 16) : (s.hostIssue c).cmdOffset = s.cmdOffset := rfl
@[simp] theorem State.hostIssue_cmdCand (c : BitVec 16) : (s.hostIssue c).cmdCand = s.cmdCand := rfl
@[simp] theorem State.hostIssue_issued (c : BitVec 16) : (s.hostIssue c).issued = true := rfl
@[simp] theorem State.hostIssue_src (c : BitVec 16) : (s.hostIssue c).src = s.src := rfl
@[simp] theorem State.hostIssue_dst (c : BitVec 16) : (s.hostIssue c).dst = s.dst := rfl
@[simp] theorem State.hostIssue_ct (c : BitVec 16) : (s.hostIssue c).ct = s.ct := rfl
@[simp] theorem State.hostIssue_res (c : BitVec 16) : (s.hostIssue c).res = s.res := rfl
@[simp] theorem State.hostIssue_cft (c : BitVec 16) : (s.hostIssue c).cft = s.cft := rfl
@[simp] theorem State.hostIssue_status (c : BitVec 16) : (s.hostIssue c).status = s.status := rfl
@[simp] theorem State.hostIssue_errKind (c : BitVec 16) : (s.hostIssue c).errKind = s.errKind := rfl
@[simp] theorem State.hostIssue_errCause (c : BitVec 16) : (s.hostIssue c).errCause = s.errCause := rfl
@[simp] theorem State.hostIssue_work (c : BitVec 16) : (s.hostIssue c).work = s.work := rfl

/-! ### State.hostWriteSrc -/

@[simp] theorem State.hostWriteSrc_params (l : Bytes) : (s.hostWriteSrc l).params = s.params := rfl
@[simp] theorem State.hostWriteSrc_cfgAllowed (l : Bytes) : (s.hostWriteSrc l).cfgAllowed = s.cfgAllowed := rfl
@[simp] theorem State.hostWriteSrc_cfgNative (l : Bytes) : (s.hostWriteSrc l).cfgNative = s.cfgNative := rfl
@[simp] theorem State.hostWriteSrc_cw (l : Bytes) : (s.hostWriteSrc l).cw = s.cw := rfl
@[simp] theorem State.hostWriteSrc_cmdOffset (l : Bytes) : (s.hostWriteSrc l).cmdOffset = s.cmdOffset := rfl
@[simp] theorem State.hostWriteSrc_cmdCand (l : Bytes) : (s.hostWriteSrc l).cmdCand = s.cmdCand := rfl
@[simp] theorem State.hostWriteSrc_issued (l : Bytes) : (s.hostWriteSrc l).issued = s.issued := rfl
@[simp] theorem State.hostWriteSrc_src (l : Bytes) : (s.hostWriteSrc l).src = Memory.ofBytes l := rfl
@[simp] theorem State.hostWriteSrc_dst (l : Bytes) : (s.hostWriteSrc l).dst = s.dst := rfl
@[simp] theorem State.hostWriteSrc_ct (l : Bytes) : (s.hostWriteSrc l).ct = s.ct := rfl
@[simp] theorem State.hostWriteSrc_res (l : Bytes) : (s.hostWriteSrc l).res = s.res := rfl
@[simp] theorem State.hostWriteSrc_cft (l : Bytes) : (s.hostWriteSrc l).cft = s.cft := rfl
@[simp] theorem State.hostWriteSrc_status (l : Bytes) : (s.hostWriteSrc l).status = s.status := rfl
@[simp] theorem State.hostWriteSrc_errKind (l : Bytes) : (s.hostWriteSrc l).errKind = s.errKind := rfl
@[simp] theorem State.hostWriteSrc_errCause (l : Bytes) : (s.hostWriteSrc l).errCause = s.errCause := rfl
@[simp] theorem State.hostWriteSrc_work (l : Bytes) : (s.hostWriteSrc l).work = s.work := rfl

/-! ### State.hostWriteOffset -/

@[simp] theorem State.hostWriteOffset_params (o : Nat) : (s.hostWriteOffset o).params = s.params := rfl
@[simp] theorem State.hostWriteOffset_cfgAllowed (o : Nat) : (s.hostWriteOffset o).cfgAllowed = s.cfgAllowed := rfl
@[simp] theorem State.hostWriteOffset_cfgNative (o : Nat) : (s.hostWriteOffset o).cfgNative = s.cfgNative := rfl
@[simp] theorem State.hostWriteOffset_cw (o : Nat) : (s.hostWriteOffset o).cw = s.cw := rfl
@[simp] theorem State.hostWriteOffset_cmdOffset (o : Nat) : (s.hostWriteOffset o).cmdOffset = o := rfl
@[simp] theorem State.hostWriteOffset_cmdCand (o : Nat) : (s.hostWriteOffset o).cmdCand = s.cmdCand := rfl
@[simp] theorem State.hostWriteOffset_issued (o : Nat) : (s.hostWriteOffset o).issued = s.issued := rfl
@[simp] theorem State.hostWriteOffset_src (o : Nat) : (s.hostWriteOffset o).src = s.src := rfl
@[simp] theorem State.hostWriteOffset_dst (o : Nat) : (s.hostWriteOffset o).dst = s.dst := rfl
@[simp] theorem State.hostWriteOffset_ct (o : Nat) : (s.hostWriteOffset o).ct = s.ct := rfl
@[simp] theorem State.hostWriteOffset_res (o : Nat) : (s.hostWriteOffset o).res = s.res := rfl
@[simp] theorem State.hostWriteOffset_cft (o : Nat) : (s.hostWriteOffset o).cft = s.cft := rfl
@[simp] theorem State.hostWriteOffset_status (o : Nat) : (s.hostWriteOffset o).status = s.status := rfl
@[simp] theorem State.hostWriteOffset_errKind (o : Nat) : (s.hostWriteOffset o).errKind = s.errKind := rfl
@[simp] theorem State.hostWriteOffset_errCause (o : Nat) : (s.hostWriteOffset o).errCause = s.errCause := rfl
@[simp] theorem State.hostWriteOffset_work (o : Nat) : (s.hostWriteOffset o).work = s.work := rfl

/-! ### State.hostWriteCand -/

@[simp] theorem State.hostWriteCand_params (l : List (BitVec 3)) : (s.hostWriteCand l).params = s.params := rfl
@[simp] theorem State.hostWriteCand_cfgAllowed (l : List (BitVec 3)) : (s.hostWriteCand l).cfgAllowed = s.cfgAllowed := rfl
@[simp] theorem State.hostWriteCand_cfgNative (l : List (BitVec 3)) : (s.hostWriteCand l).cfgNative = s.cfgNative := rfl
@[simp] theorem State.hostWriteCand_cw (l : List (BitVec 3)) : (s.hostWriteCand l).cw = s.cw := rfl
@[simp] theorem State.hostWriteCand_cmdOffset (l : List (BitVec 3)) : (s.hostWriteCand l).cmdOffset = s.cmdOffset := rfl
@[simp] theorem State.hostWriteCand_cmdCand (l : List (BitVec 3)) : (s.hostWriteCand l).cmdCand = l := rfl
@[simp] theorem State.hostWriteCand_issued (l : List (BitVec 3)) : (s.hostWriteCand l).issued = s.issued := rfl
@[simp] theorem State.hostWriteCand_src (l : List (BitVec 3)) : (s.hostWriteCand l).src = s.src := rfl
@[simp] theorem State.hostWriteCand_dst (l : List (BitVec 3)) : (s.hostWriteCand l).dst = s.dst := rfl
@[simp] theorem State.hostWriteCand_ct (l : List (BitVec 3)) : (s.hostWriteCand l).ct = s.ct := rfl
@[simp] theorem State.hostWriteCand_res (l : List (BitVec 3)) : (s.hostWriteCand l).res = s.res := rfl
@[simp] theorem State.hostWriteCand_cft (l : List (BitVec 3)) : (s.hostWriteCand l).cft = s.cft := rfl
@[simp] theorem State.hostWriteCand_status (l : List (BitVec 3)) : (s.hostWriteCand l).status = s.status := rfl
@[simp] theorem State.hostWriteCand_errKind (l : List (BitVec 3)) : (s.hostWriteCand l).errKind = s.errKind := rfl
@[simp] theorem State.hostWriteCand_errCause (l : List (BitVec 3)) : (s.hostWriteCand l).errCause = s.errCause := rfl
@[simp] theorem State.hostWriteCand_work (l : List (BitVec 3)) : (s.hostWriteCand l).work = s.work := rfl

/-! ### State.hostWriteCt -/

@[simp] theorem State.hostWriteCt_params (c : Container) : (s.hostWriteCt c).params = s.params := rfl
@[simp] theorem State.hostWriteCt_cfgAllowed (c : Container) : (s.hostWriteCt c).cfgAllowed = s.cfgAllowed := rfl
@[simp] theorem State.hostWriteCt_cfgNative (c : Container) : (s.hostWriteCt c).cfgNative = s.cfgNative := rfl
@[simp] theorem State.hostWriteCt_cw (c : Container) : (s.hostWriteCt c).cw = s.cw := rfl
@[simp] theorem State.hostWriteCt_cmdOffset (c : Container) : (s.hostWriteCt c).cmdOffset = s.cmdOffset := rfl
@[simp] theorem State.hostWriteCt_cmdCand (c : Container) : (s.hostWriteCt c).cmdCand = s.cmdCand := rfl
@[simp] theorem State.hostWriteCt_issued (c : Container) : (s.hostWriteCt c).issued = s.issued := rfl
@[simp] theorem State.hostWriteCt_src (c : Container) : (s.hostWriteCt c).src = s.src := rfl
@[simp] theorem State.hostWriteCt_dst (c : Container) : (s.hostWriteCt c).dst = s.dst := rfl
@[simp] theorem State.hostWriteCt_ct (c : Container) : (s.hostWriteCt c).ct = .byHost c := rfl
@[simp] theorem State.hostWriteCt_res (c : Container) : (s.hostWriteCt c).res = s.res := rfl
@[simp] theorem State.hostWriteCt_cft (c : Container) : (s.hostWriteCt c).cft = s.cft := rfl
@[simp] theorem State.hostWriteCt_status (c : Container) : (s.hostWriteCt c).status = s.status := rfl
@[simp] theorem State.hostWriteCt_errKind (c : Container) : (s.hostWriteCt c).errKind = s.errKind := rfl
@[simp] theorem State.hostWriteCt_errCause (c : Container) : (s.hostWriteCt c).errCause = s.errCause := rfl
@[simp] theorem State.hostWriteCt_work (c : Container) : (s.hostWriteCt c).work = s.work := rfl

/-! ### State.hostWriteCft -/

@[simp] theorem State.hostWriteCft_params (t : Cft) : (s.hostWriteCft t).params = s.params := rfl
@[simp] theorem State.hostWriteCft_cfgAllowed (t : Cft) : (s.hostWriteCft t).cfgAllowed = s.cfgAllowed := rfl
@[simp] theorem State.hostWriteCft_cfgNative (t : Cft) : (s.hostWriteCft t).cfgNative = s.cfgNative := rfl
@[simp] theorem State.hostWriteCft_cw (t : Cft) : (s.hostWriteCft t).cw = s.cw := rfl
@[simp] theorem State.hostWriteCft_cmdOffset (t : Cft) : (s.hostWriteCft t).cmdOffset = s.cmdOffset := rfl
@[simp] theorem State.hostWriteCft_cmdCand (t : Cft) : (s.hostWriteCft t).cmdCand = s.cmdCand := rfl
@[simp] theorem State.hostWriteCft_issued (t : Cft) : (s.hostWriteCft t).issued = s.issued := rfl
@[simp] theorem State.hostWriteCft_src (t : Cft) : (s.hostWriteCft t).src = s.src := rfl
@[simp] theorem State.hostWriteCft_dst (t : Cft) : (s.hostWriteCft t).dst = s.dst := rfl
@[simp] theorem State.hostWriteCft_ct (t : Cft) : (s.hostWriteCft t).ct = s.ct := rfl
@[simp] theorem State.hostWriteCft_res (t : Cft) : (s.hostWriteCft t).res = s.res := rfl
@[simp] theorem State.hostWriteCft_cft (t : Cft) : (s.hostWriteCft t).cft = .byHost t := rfl
@[simp] theorem State.hostWriteCft_status (t : Cft) : (s.hostWriteCft t).status = s.status := rfl
@[simp] theorem State.hostWriteCft_errKind (t : Cft) : (s.hostWriteCft t).errKind = s.errKind := rfl
@[simp] theorem State.hostWriteCft_errCause (t : Cft) : (s.hostWriteCft t).errCause = s.errCause := rfl
@[simp] theorem State.hostWriteCft_work (t : Cft) : (s.hostWriteCft t).work = s.work := rfl

/-! ### Ending a command, case by case -/

@[simp] theorem State.finish_ok (w : Targets) (r : Results) : s.finish w (.ok r) = s.done r := rfl

@[simp] theorem State.finish_error (w : Targets) (e : Raise) : s.finish w (.error e) = s.raise e w := rfl

/-- A command that computes `r` ends in DONE or in ERROR, and nothing else. -/
theorem State.finish_cases (w : Targets) (r : Except Raise Results) :
    (∃ v, r = .ok v ∧ s.finish w r = s.done v) ∨ (∃ e, r = .error e ∧ s.finish w r = s.raise e w) := by
  cases r with
  | ok v => exact .inl ⟨v, rfl, rfl⟩
  | error e => exact .inr ⟨e, rfl, rfl⟩

/-- Working state leaves no trace in the state a command ends in (10_state.md R22, R290). -/
@[simp] theorem State.setWork_done (w : Work) (r : Results) : (s.setWork w).done r = s.done r := rfl

@[simp] theorem State.setWork_raise (w : Work) (e : Raise) (t : Targets) : (s.setWork w).raise e t = s.raise e t := rfl

@[simp] theorem State.setWork_setWork (v w : Work) : (s.setWork v).setWork w = s.setWork w := rfl

/-! ### Held registers -/

variable {α : Type}

@[simp] theorem Held.value_none : (Held.none : Held α).value = Option.none := rfl

@[simp] theorem Held.value_byHost (v : α) : (Held.byHost v).value = some v := rfl

@[simp] theorem Held.value_byEngine (v : α) : (Held.byEngine v).value = some v := rfl

@[simp] theorem Held.update_some (v : α) (h : Held α) : h.update (some v) = .byEngine v := rfl

@[simp] theorem Held.update_none (h : Held α) : h.update Option.none = h.kept := rfl

@[simp] theorem Held.afterError_target (h : Held α) : h.afterError true = .none := rfl

@[simp] theorem Held.afterError_other (h : Held α) : h.afterError false = h.kept := rfl

/-- What a register keeps across a command that does not write it was written by the HOST (10_state.md R39). -/
theorem Held.kept_ne_byEngine (h : Held α) (v : α) : h.kept ≠ .byEngine v := by
  cases h <;> simp [Held.kept]

/-- A kept value is the value of before. -/
theorem Held.value_of_kept {h : Held α} {v : α} (hv : h.kept.value = some v) : h.value = some v := by
  cases h <;> simp_all [Held.kept]

/-- After an error a register holds nothing the ENGINE wrote. -/
theorem Held.afterError_ne_byEngine (b : Bool) (h : Held α) (v : α) : h.afterError b ≠ .byEngine v := by
  cases b
  · exact h.kept_ne_byEngine v
  · simp

/-- After an error a register holds at most the value of before. -/
theorem Held.value_of_afterError {b : Bool} {h : Held α} {v : α} (hv : (h.afterError b).value = some v) :
    h.value = some v := by
  cases b
  · exact Held.value_of_kept hv
  · simp at hv

end Sys2Proof.Machine
end

