-- ==== Sys2Proof/Laws/Compressor.lean ====
section
/-! SUPPORT. PXC's shared operations: what each can answer (40_px_compressor.md). -/

namespace Sys2Proof.Machine

/-! ### The ascending set (10_state.md R33) -/

@[simp] theorem mem_insertAscending {v e : Nibble} {l : List Nibble} :
    e ∈ insertAscending v l ↔ e = v ∨ e ∈ l := by
  induction l with
  | nil => simp [insertAscending]
  | cons a l ih =>
    unfold insertAscending
    split
    · simp
    · simp only [List.mem_cons, ih]
      tauto

@[simp] theorem length_insertAscending (v : Nibble) (l : List Nibble) :
    (insertAscending v l).length = l.length + 1 := by
  induction l with
  | nil => rfl
  | cons a l ih =>
    unfold insertAscending
    split <;> simp [ih]

theorem pairwise_insertAscending {v : Nibble} {l : List Nibble} (hv : v ∉ l)
    (h : l.Pairwise (fun a b => a.toNat < b.toNat)) :
    (insertAscending v l).Pairwise (fun a b => a.toNat < b.toNat) := by
  induction l with
  | nil => simp [insertAscending]
  | cons a l ih =>
    rw [List.mem_cons, not_or] at hv
    rw [List.pairwise_cons] at h
    have hne : v.toNat ≠ a.toNat := fun e => hv.1 (BitVec.eq_of_toNat_eq e)
    unfold insertAscending
    split
    · rename_i hlt
      refine List.pairwise_cons.mpr ⟨?_, List.pairwise_cons.mpr h⟩
      intro b hb
      rcases List.mem_cons.mp hb with rfl | hb
      · exact hlt
      · exact Nat.lt_trans hlt (h.1 b hb)
    · refine List.pairwise_cons.mpr ⟨?_, ih hv.2 h.2⟩
      intro b hb
      rcases mem_insertAscending.mp hb with rfl | hb
      · omega
      · exact h.1 b hb

/-- Everything `reserve_or_shrink` can do: keep the length and the set, reserve the length's code, or shrink (R138). -/
theorem reserveOrShrink_cases (rls : List Nibble) (length : Nat) :
    (BitVec.ofNat 4 (length - 3) ∈ rls ∧ reserveOrShrink rls length = (length, rls)) ∨
    (BitVec.ofNat 4 (length - 3) ∉ rls ∧ rls.length < 7 ∧
      reserveOrShrink rls length = (length, insertAscending (BitVec.ofNat 4 (length - 3)) rls)) ∨
    (BitVec.ofNat 4 (length - 3) ∉ rls ∧ ¬ rls.length < 7 ∧
      reserveOrShrink rls length = (shrink length rls, rls)) := by
  unfold reserveOrShrink Config.maxReserved
  dsimp only
  split
  · exact .inl ⟨‹_›, rfl⟩
  · split
    · exact .inr (.inl ⟨‹_›, ‹_›, rfl⟩)
    · exact .inr (.inr ⟨‹_›, ‹_›, rfl⟩)

/-- Shrinking keeps the length or answers an entry's length, which is smaller (R139). -/
theorem shrink_cases (length : Nat) (l : List Nibble) :
    (shrink length l = length ∧ ∀ e ∈ l, length ≤ e.toNat + 3) ∨
    (∃ e ∈ l, e.toNat + 3 < length ∧ shrink length l = e.toNat + 3) := by
  induction l with
  | nil => exact .inl ⟨rfl, by simp⟩
  | cons a l ih =>
    unfold shrink
    split
    · exact .inr ⟨a, by simp, ‹_›, rfl⟩
    · rename_i hlt
      rcases ih with ⟨h1, h2⟩ | ⟨e, he, h1, h2⟩
      · refine .inl ⟨h1, ?_⟩
        intro e he
        rcases List.mem_cons.mp he with rfl | he
        · omega
        · exact h2 e he
      · exact .inr ⟨e, by simp [he], h1, h2⟩

/-! ### The search (R135, R137) -/

/-- The run never exceeds what is available on either side. -/
theorem matchLength_le (avail : Nat) (a b : Bytes) :
    matchLength avail a b ≤ avail ∧ matchLength avail a b ≤ a.length ∧ matchLength avail a b ≤ b.length := by
  induction avail generalizing a b with
  | zero => simp [matchLength]
  | succ avail ih =>
    cases a with
    | nil => simp [matchLength]
    | cons x xs =>
      cases b with
      | nil => simp [matchLength]
      | cons y ys =>
        have h := ih xs ys
        unfold matchLength
        split <;> simp only [List.length_cons] <;> omega

/-- The run is a run of equal bytes. -/
theorem matchLength_get (avail : Nat) (a b : Bytes) : ∀ j < matchLength avail a b, a[j]? = b[j]? := by
  induction avail generalizing a b with
  | zero => simp [matchLength]
  | succ avail ih =>
    cases a with
    | nil => simp [matchLength]
    | cons x xs =>
      cases b with
      | nil => simp [matchLength]
      | cons y ys =>
        unfold matchLength
        split
        · rename_i hxy
          intro j hj
          cases j with
          | zero => simp [hxy]
          | succ j => simpa using ih xs ys j (by omega)
        · simp

/-- No longer run of equal bytes starts the two sequences. -/
theorem matchLength_max (avail : Nat) (a b : Bytes) (k : Nat) (hk : k ≤ avail) (ha : k ≤ a.length)
    (h : ∀ j < k, a[j]? = b[j]?) : k ≤ matchLength avail a b := by
  induction avail generalizing a b k with
  | zero => simpa [matchLength] using hk
  | succ avail ih =>
    cases k with
    | zero => exact Nat.zero_le _
    | succ k =>
      cases a with
      | nil => simp at ha
      | cons x xs =>
        cases b with
        | nil => simpa using h 0 (by omega)
        | cons y ys =>
          have hxy : x = y := by simpa using h 0 (by omega)
          have := ih xs ys k (by omega) (by simpa using ha) (fun j hj => by simpa using h (j + 1) (by omega))
          unfold matchLength
          rw [if_pos hxy]
          omega

/-- A scan answers the best so far or a position of the window, by its distance to the window's end. -/
theorem scanWindow_cases (avail : Nat) (ahead window : Bytes) (best : Match) :
    scanWindow avail ahead window best = best ∨
    (∃ d, 1 ≤ d ∧ d ≤ window.length ∧ best.length < matchLength avail (window.drop (window.length - d)) ahead ∧
      scanWindow avail ahead window best = ⟨matchLength avail (window.drop (window.length - d)) ahead, d⟩) := by
  induction window generalizing best with
  | nil => exact .inl rfl
  | cons b window ih =>
    have hdrop : ∀ d, d ≤ window.length →
        (b :: window).drop ((b :: window).length - d) = window.drop (window.length - d) := by
      intro d hd
      rw [List.length_cons, show window.length + 1 - d = (window.length - d) + 1 by omega, List.drop_succ_cons]
    unfold scanWindow
    dsimp only
    split
    · rename_i hlt
      rcases ih ⟨matchLength avail (b :: window) ahead, window.length + 1⟩ with h | ⟨d, h1, h2, h3, h4⟩
      · exact .inr ⟨window.length + 1, by omega, by simp, by simpa using hlt, by simpa using h⟩
      · exact .inr ⟨d, h1, by simp; omega, by rw [hdrop d h2]; exact Nat.lt_trans hlt h3, by rw [hdrop d h2, h4]⟩
    · rcases ih best with h | ⟨d, h1, h2, h3, h4⟩
      · exact .inl h
      · exact .inr ⟨d, h1, by simp; omega, by rw [hdrop d h2]; exact h3, by rw [hdrop d h2, h4]⟩

/-- A match found has 3 to 18 bytes, all available, and lies inside the window (R135, R137). -/
theorem findMatch_some {input : Bytes} {cur : Nat} {m : Match} (h : findMatch input cur = some m) :
    3 ≤ m.length ∧ m.length ≤ 18 ∧ cur + m.length ≤ input.length ∧ m.length ≤ m.distance ∧ m.distance ≤ 4096 ∧
      m.distance ≤ cur := by
  unfold findMatch at h
  dsimp only at h
  split at h
  · cases h
  · rename_i havail
    split at h
    · cases h
    · rename_i hbest
      have hm := Option.some.inj h
      clear h
      subst hm
      simp only [Config.maxMatch, Config.minMatch] at havail hbest ⊢
      rcases scanWindow_cases (min 18 (input.length - cur)) (input.drop cur) (lookback input cur) ⟨0, 0⟩ with
        hs | ⟨d, h1, h2, h3, h4⟩
      · rw [hs] at hbest
        exact absurd (by decide) hbest
      · rw [h4] at hbest ⊢
        have hle := matchLength_le (min 18 (input.length - cur))
          ((lookback input cur).drop ((lookback input cur).length - d)) (input.drop cur)
        have hlen : (lookback input cur).length ≤ 4096 ∧ (lookback input cur).length ≤ cur := by
          simp only [lookback, slice, Config.window, List.length_take, List.length_drop]
          omega
        simp only [List.length_drop] at hle
        simp only at hbest ⊢
        omega

/-- Everything `find_sequence` can answer: nothing, or the match with its length kept or changed by the set. -/
theorem findSequence_cases (input : Bytes) (cur : Nat) (rls : List Nibble) :
    (findMatch input cur = none ∧ findSequence input cur rls = none) ∨
    (∃ m, findMatch input cur = some m ∧ findSequence input cur rls =
      some (.sequence (-(m.distance : Int)) (reserveOrShrink rls m.length).1, (reserveOrShrink rls m.length).2)) := by
  unfold findSequence
  cases findMatch input cur with
  | none => exact .inl ⟨rfl, rfl⟩
  | some m => exact .inr ⟨m, rfl, rfl⟩

/-! ### Planning (R133, R134, R144) -/

/-- A pattern is planned only over two bytes, from level 1 on, and it is a NibblePattern (R141, R142). -/
theorem planPattern_some {level : Level} {ahead : Bytes} {op : Op} (h : planPattern level ahead = some op) :
    1 ≤ level.toNat ∧ ∃ b0 b1 more i l, ahead = b0 :: b1 :: more ∧ op = .nibblePattern i l := by
  unfold planPattern at h
  split at h
  · rename_i b0 b1 more
    split at h
    · rename_i op' heq
      cases h
      split at heq
      · rename_i hl
        unfold equalNibbles at heq
        split at heq
        · cases heq
          exact ⟨hl, b0, b1, more, _, _, rfl, rfl⟩
        · cases heq
      · cases heq
    · split at h
      · rename_i hl
        unfold nearEqualNibbles at h
        split at h
        · split at h
          · cases h
            exact ⟨by omega, b0, b1, more, _, _, rfl, rfl⟩
          · cases h
        · cases h
      · cases h
  · cases h
  · cases h

/-- Everything `plan_one` can answer: a sequence at level 3, a pattern, or the literal (R134). -/
theorem planOne_cases (level : Level) (order : Order) (input : Bytes) (cur : Nat) (b : Byte) (rls : List Nibble) :
    (∃ r, level = 3#2 ∧ findSequence input cur rls = some r ∧ planOne level order input cur b rls = r) ∨
    (∃ op, planPattern level (input.drop cur) = some op ∧ planOne level order input cur b rls = (op, rls)) ∨
    planOne level order input cur b rls = (.copyAsIs b, rls) := by
  unfold planOne
  dsimp only
  by_cases hl : level = 3#2
  · simp only [hl, if_true]
    cases hs : findSequence input cur rls <;> cases hp : planPattern 3#2 (input.drop cur) <;> cases order <;>
      simp [Option.or]
  · simp only [hl, if_false]
    cases hp : planPattern level (input.drop cur) <;> cases order <;> simp [Option.or]

/-- Planning ends exactly when the input is covered (R133). -/
theorem PxcWork.planNext_eq_none {input : Bytes} {w : PxcWork} : w.planNext input = none ↔ input.length ≤ w.cur := by
  unfold PxcWork.planNext
  rw [← List.drop_eq_nil_iff]
  split <;> simp_all

/-- A turn of the loop plans one operation for the byte at the cursor and moves past what it covers (R133, R144). -/
theorem PxcWork.planNext_some {input : Bytes} {w w' : PxcWork} (h : w.planNext input = some w') :
    ∃ b more op rls, input.drop w.cur = b :: more ∧ planOne w.level w.order input w.cur b w.rls = (op, rls) ∧
      w' = { w with cur := w.cur + consumed op, rls := rls, ops := w.ops ++ [op] } := by
  unfold PxcWork.planNext at h
  split at h
  · cases h
  · rename_i b more heq
    exact ⟨b, more, _, _, heq, rfl, (Option.some.inj h).symm⟩

/-! ### The command -/

/-- Everything PXC can answer (R130, R131, R147). -/
theorem pxc_cases (fill : FlagFill) (level : Level) (order : Order) (input : Bytes) :
    (2147483647 < input.length ∧ pxc fill level order input = .error ⟨.inputTooLarge, .none⟩) ∨
    (input.length ≤ 2147483647 ∧
      let w := plan level order input
      let payload := emit (buildFlags fill w.rls) w.ops
      (65536 < payload.length ∧ pxc fill level order input = .error ⟨.outputTooLarge, .none⟩) ∨
      (payload.length ≤ 65536 ∧ pxc fill level order input = .ok ⟨buildFlags fill w.rls, payload⟩)) := by
  unfold pxc PxcWork.close Config.maxInput Config.maxPayload
  dsimp only
  split
  · exact .inl ⟨‹_›, rfl⟩
  · refine .inr ⟨by omega, ?_⟩
    split
    · exact .inl ⟨‹_›, rfl⟩
    · exact .inr ⟨by omega, rfl⟩

variable (s : State)

/-- The end of planning: DONE with the table and the payload, or OutputTooLarge (R146 to R148). -/
theorem State.finishPlan_cases (w : PxcWork) :
    let flags := buildFlags s.params.flagFill w.rls
    let payload := emit flags w.ops
    (65536 < payload.length ∧ s.finishPlan w = s.raise ⟨.outputTooLarge, .none⟩ { cft := true }) ∨
    (payload.length ≤ 65536 ∧
      s.finishPlan w = s.done { dst := some (Memory.ofBytes payload), cft := some flags }) := by
  unfold State.finishPlan PxcWork.close Config.maxPayload
  dsimp only
  split
  · exact .inl ⟨‹_›, rfl⟩
  · exact .inr ⟨by omega, rfl⟩

/-- A step of planning goes on with the next turn, or ends. -/
theorem State.planStep_cases (w : PxcWork) :
    (∃ w', w.planNext s.src.bytes = some w' ∧ s.planStep w = s.setWork (.plan w')) ∨
    (w.planNext s.src.bytes = none ∧ s.planStep w = s.finishPlan w) := by
  unfold State.planStep
  cases w.planNext s.src.bytes with
  | none => exact .inr ⟨rfl, rfl⟩
  | some w' => exact .inl ⟨w', rfl, rfl⟩

/-! ### Emission (R146) -/

/-- Fuel beyond the number of operations makes no difference. -/
theorem emitBlocks_fuel (t : Cft) (n m : Nat) (ops : List Op) (hn : ops.length ≤ n) (hm : ops.length ≤ m) :
    emitBlocks t n ops = emitBlocks t m ops := by
  induction n generalizing m ops with
  | zero =>
    obtain rfl := List.eq_nil_of_length_eq_zero (Nat.le_zero.mp hn)
    cases m <;> rfl
  | succ n ih =>
    cases ops with
    | nil => cases m <;> rfl
    | cons op ops =>
      cases m with
      | zero => simp at hm
      | succ m =>
        simp only [emitBlocks]
        rw [ih m] <;> simp [Config.opsPerBlock] at * <;> omega

/-- The payload is the first block and the payload of the operations after it. -/
theorem emit_cons (t : Cft) (op : Op) (ops : List Op) :
    emit t (op :: ops) = emitBlock t ((op :: ops).take 8) ++ emit t ((op :: ops).drop 8) := by
  show emitBlocks t (ops.length + 1) (op :: ops) = _
  simp only [emitBlocks, emit, Config.opsPerBlock]
  rw [emitBlocks_fuel t ops.length] <;> simp

/-- Bit `7 - k` of a command byte is the command bit of operation `k`, and 0 where there is none (R92, R93). -/
theorem getLsbD_commandByte {ops : List Op} {j k : Nat} (hlen : j + ops.length ≤ 8) (hk : k < 8) :
    (commandByte ops j).getLsbD (7 - k) = (decide (j ≤ k) && ((ops[k - j]?).map Op.isCopy).getD false) := by
  induction ops generalizing j with
  | nil => simp [commandByte]
  | cons op ops ih =>
    have hlen' : j + 1 + ops.length ≤ 8 := by simp at hlen; omega
    have hbit : (if op.isCopy then 1#8 <<< (7 - j) else 0#8).getLsbD (7 - k) = (decide (k = j) && op.isCopy) := by
      cases op.isCopy
      · simp
      · simp only [if_true, BitVec.getLsbD_shiftLeft, BitVec.getLsbD_one]
        rw [Bool.eq_iff_iff]
        simp
        omega
    rw [commandByte, BitVec.getLsbD_or, ih hlen', hbit]
    rcases Nat.lt_trichotomy k j with h | rfl | h
    · simp [Nat.not_le.mpr h, Nat.ne_of_lt h, show ¬ j + 1 ≤ k by omega]
    · simp
    · obtain ⟨d, rfl⟩ := Nat.exists_eq_add_of_lt h
      simp [show j + d + 1 ≠ j by omega, show j + d + 1 - j = d + 1 by omega, show j + 1 ≤ j + d + 1 by omega,
        show j ≤ j + d + 1 by omega, show j + d + 1 - (j + 1) = d by omega]

end Sys2Proof.Machine
end

