-- ==== Sys2Proof/Laws/Formats.lean ====
section
/-! SUPPORT. The container formats' shared operations: what each can answer, and that a container the ENGINE makes has
the declared size of its format (42_container_formats.md, 43_dispatcher.md). -/

namespace Sys2Proof.Machine

/-! ### Ending a command -/

variable (s : State)

@[simp] theorem State.finishContainer_ok (c : Container) : s.finishContainer (.ok c) = s.done { ct := some c } := rfl

@[simp] theorem State.finishContainer_error (e : Raise) :
    s.finishContainer (.error e) = s.raise e { ct := true } := rfl

/-! ### Bytes and slices -/

@[simp] theorem length_slice (l : Bytes) (a b : Nat) : (slice l a b).length = min (b - a) (l.length - a) := by
  simp [slice]

@[simp] theorem length_le16 (v : BitVec 16) : (le16 v).length = 2 := rfl

@[simp] theorem length_le32 (v : BitVec 32) : (le32 v).length = 4 := rfl

@[simp] theorem Cft.length_entries (t : Cft) : t.entries.length = 9 := rfl

/-- The magic is there: all its bytes are inside the buffer and equal it (R202). -/
theorem startsWith_iff {m src : Bytes} {o : Nat} :
    startsWith m src o = true ↔ o + m.length ≤ src.length ∧ (src.drop o).take m.length = m := by
  simp [startsWith, slice]

/-- Indexing past a front part (20_memory.md R67). -/
theorem byteAt_append_right (front back : Bytes) (k : Nat) :
    byteAt (front ++ back) (front.length + k) = byteAt back k := by
  simp [byteAt, List.getD_eq_getElem?_getD, List.getElem?_append_right]

@[simp] theorem byteAt_zero (b : Byte) (l : Bytes) : byteAt (b :: l) 0 = b := rfl

@[simp] theorem byteAt_succ (b : Byte) (l : Bytes) (i : Nat) : byteAt (b :: l) (i + 1) = byteAt l i := rfl

/-- `u16le` is the sum of its bytes, the least significant first (00_scope.md R11). -/
theorem u16le_eq_sum (l : Bytes) (i : Nat) :
    u16le l i = BitVec.ofNat 16 ((l.getD i 0).toNat + 256 * (l.getD (i + 1) 0).toNat) := by
  unfold u16le byteAt
  generalize l.getD i 0#8 = a
  generalize l.getD (i + 1) 0#8 = b
  apply BitVec.eq_of_toNat_eq
  rw [BitVec.toNat_append, ← Nat.shiftLeft_add_eq_or_of_lt a.isLt, Nat.shiftLeft_eq, BitVec.toNat_ofNat]
  omega

/-- `u32le` is the sum of its bytes, the least significant first (R11). -/
theorem u32le_eq_sum (l : Bytes) (i : Nat) :
    u32le l i = BitVec.ofNat 32 ((l.getD i 0).toNat + 256 * (l.getD (i + 1) 0).toNat +
      65536 * (l.getD (i + 2) 0).toNat + 16777216 * (l.getD (i + 3) 0).toNat) := by
  unfold u32le byteAt
  generalize l.getD i 0#8 = a
  generalize l.getD (i + 1) 0#8 = b
  generalize l.getD (i + 2) 0#8 = c
  generalize l.getD (i + 3) 0#8 = d
  apply BitVec.eq_of_toNat_eq
  rw [BitVec.toNat_append, BitVec.toNat_append, BitVec.toNat_append, ← Nat.shiftLeft_add_eq_or_of_lt a.isLt,
    ← Nat.shiftLeft_add_eq_or_of_lt b.isLt, ← Nat.shiftLeft_add_eq_or_of_lt c.isLt, Nat.shiftLeft_eq,
    Nat.shiftLeft_eq, Nat.shiftLeft_eq, BitVec.toNat_ofNat]
  omega

/-- `u16le` of the two bytes `le16` writes, wherever they stand (20_memory.md R62). -/
theorem u16le_le16 (front back : Bytes) (v : BitVec 16) :
    u16le (front ++ (le16 v ++ back)) front.length = v := by
  have h : u16le (front ++ (le16 v ++ back)) front.length = v.extractLsb' 8 8 ++ v.extractLsb' 0 8 := by
    simp only [u16le, byteAt_append_right]
    rw [show front.length = front.length + 0 from rfl, byteAt_append_right]
    rfl
  rw [h]
  ext i hi
  simp only [BitVec.getElem_append, BitVec.getElem_extractLsb']
  split
  · rw [Nat.zero_add, BitVec.getLsbD_eq_getElem hi]
  · rw [← BitVec.getLsbD_eq_getElem hi]
    congr 1
    omega

/-- `u32le` of the four bytes `le32` writes, wherever they stand (20_memory.md R62). -/
theorem u32le_le32 (front back : Bytes) (v : BitVec 32) :
    u32le (front ++ (le32 v ++ back)) front.length = v := by
  have h : u32le (front ++ (le32 v ++ back)) front.length =
      v.extractLsb' 24 8 ++ v.extractLsb' 16 8 ++ v.extractLsb' 8 8 ++ v.extractLsb' 0 8 := by
    simp only [u32le, byteAt_append_right]
    rw [show front.length = front.length + 0 from rfl, byteAt_append_right]
    rfl
  rw [h]
  ext i hi
  simp only [BitVec.getElem_append, BitVec.getElem_extractLsb']
  rw [← BitVec.getLsbD_eq_getElem hi]
  repeat' split
  all_goals congr 1
  all_goals omega

/-! ### CSIZE and FDES -/

/-- Everything CSIZE can answer for a format with a layout (R203). -/
theorem sizeField_cases (m src : Bytes) (o : Nat) :
    (startsWith m src o = false ∧ sizeField m src o = .error (corrupt .magicMismatch)) ∨
    (startsWith m src o = true ∧ src.length < o + 7 ∧ sizeField m src o = .error (corrupt .truncatedHeader)) ∨
    (startsWith m src o = true ∧ o + 7 ≤ src.length ∧ sizeField m src o = .ok ((u16le src (o + 5)).setWidth 32)) := by
  unfold sizeField
  cases startsWith m src o with
  | false => exact .inl ⟨rfl, rfl⟩
  | true =>
    simp only [if_true]
    split
    · exact .inr (.inl ⟨trivial, ‹_›, rfl⟩)
    · exact .inr (.inr ⟨trivial, by omega, rfl⟩)

/-- Everything the four checks of FDES can answer, in order (R204). -/
theorem parseHeader_cases (m : Bytes) (hdr : Nat) (src : Bytes) (o : Nat) :
    (startsWith m src o = false ∧ parseHeader m hdr src o = .error (corrupt .magicMismatch)) ∨
    (startsWith m src o = true ∧ src.length - o < hdr ∧
      parseHeader m hdr src o = .error (corrupt .truncatedHeader)) ∨
    (startsWith m src o = true ∧ hdr ≤ src.length - o ∧ (u16le src (o + 5)).toNat < hdr ∧
      parseHeader m hdr src o = .error (corrupt .truncatedHeader)) ∨
    (startsWith m src o = true ∧ hdr ≤ src.length - o ∧ hdr ≤ (u16le src (o + 5)).toNat ∧
      src.length - o < (u16le src (o + 5)).toNat ∧
      parseHeader m hdr src o = .error (corrupt .truncatedContainer)) ∨
    (startsWith m src o = true ∧ hdr ≤ src.length - o ∧ hdr ≤ (u16le src (o + 5)).toNat ∧
      (u16le src (o + 5)).toNat ≤ src.length - o ∧ parseHeader m hdr src o = .ok (u16le src (o + 5))) := by
  unfold parseHeader
  cases startsWith m src o with
  | false => exact .inl ⟨rfl, rfl⟩
  | true =>
    simp only [if_true]
    split
    · exact .inr (.inl ⟨trivial, ‹_›, rfl⟩)
    · split
      · exact .inr (.inr (.inl ⟨trivial, by omega, ‹_›, rfl⟩))
      · split
        · exact .inr (.inr (.inr (.inl ⟨trivial, by omega, by omega, ‹_›, rfl⟩)))
        · exact .inr (.inr (.inr (.inr ⟨trivial, by omega, by omega, by omega, rfl⟩)))

/-- The payload of a parsed container has the declared size less the header. -/
theorem len_payloadAt {src : Bytes} {o hdr : Nat} {csize : BitVec 16} (h : csize.toNat ≤ src.length - o) :
    (payloadAt src o hdr csize).len = csize.toNat - hdr := by
  simp only [payloadAt, Memory.len_ofBytes, length_slice]
  omega

theorem wf_payloadAt (src : Bytes) (o hdr : Nat) (csize : BitVec 16) : (payloadAt src o hdr csize).wf :=
  Memory.wf_ofBytes _

/-- The size a header check answers lies between the header and the bytes left. -/
theorem parseHeader_ok {m : Bytes} {hdr : Nat} {src : Bytes} {o : Nat} {csize : BitVec 16}
    (h : parseHeader m hdr src o = .ok csize) :
    startsWith m src o = true ∧ csize = u16le src (o + 5) ∧ hdr ≤ csize.toNat ∧ csize.toNat ≤ src.length - o := by
  obtain ⟨-, e⟩ | ⟨-, -, e⟩ | ⟨-, -, -, e⟩ | ⟨-, -, -, -, e⟩ | ⟨h1, -, h2, h3, e⟩ := parseHeader_cases m hdr src o
  all_goals rw [e] at h; cases h
  exact ⟨h1, rfl, h2, h3⟩

theorem parseHeader_error {m : Bytes} {hdr : Nat} {src : Bytes} {o : Nat} {e : Raise}
    (h : parseHeader m hdr src o = .error e) : e.legal = true := by
  obtain ⟨-, e'⟩ | ⟨-, -, e'⟩ | ⟨-, -, -, e'⟩ | ⟨-, -, -, -, e'⟩ | ⟨-, -, -, -, e'⟩ := parseHeader_cases m hdr src o
  all_goals rw [e'] at h; cases h
  all_goals rfl

theorem sizeField_error {m src : Bytes} {o : Nat} {e : Raise} (h : sizeField m src o = .error e) :
    e.legal = true := by
  obtain ⟨-, e'⟩ | ⟨-, -, e'⟩ | ⟨-, -, e'⟩ := sizeField_cases m src o
  all_goals rw [e'] at h; cases h
  all_goals rfl

theorem sizePlug_error {p : Params} {src : Bytes} {o : Nat} {e : Raise} (h : sizePlug p src o = .error e) :
    e.legal = true := by
  unfold sizePlug at h
  split at h
  · cases h; rfl
  · split at h
    · split at h <;> cases h
      rfl
    · cases h; rfl

/-- A container the ENGINE makes: its declared size is header plus payload, and its buffer is canonical (10_state.md
R27, 20_memory.md R60). -/
structure Container.Made (f : Format) (c : Container) : Prop where
  format : c.format = f
  consistent : c.consistent = true
  canonical : c.canonical

theorem parseFormat_ok {p : Params} {f : Format} {src : Bytes} {o : Nat} {c : Container}
    (h : parseFormat p f src o = .ok c) : c.Made f := by
  cases f with
  | at4pn =>
    simp only [parseFormat, parsePlug] at h
    split at h
    · cases h
    · split at h
      · split at h <;> cases h
        exact ⟨rfl, rfl, trivial⟩
      · cases h
  | at3px =>
    simp only [parseFormat, parseAt3px] at h
    cases hh : parseHeader magicAt3px hdrAt3px src o with
    | error e => rw [hh] at h; cases h
    | ok csize =>
      rw [hh] at h; cases h
      obtain ⟨-, -, h2, h3⟩ := parseHeader_ok hh
      refine ⟨rfl, ?_, wf_payloadAt _ _ _ _⟩
      simp only [Container.consistent, len_payloadAt h3, decide_eq_true_eq]
      omega
  | at4px =>
    simp only [parseFormat, parseAt4px] at h
    cases hh : parseHeader magicAt4px hdrAt4px src o with
    | error e => rw [hh] at h; cases h
    | ok csize =>
      rw [hh] at h; cases h
      obtain ⟨-, -, h2, h3⟩ := parseHeader_ok hh
      refine ⟨rfl, ?_, wf_payloadAt _ _ _ _⟩
      simp only [Container.consistent, len_payloadAt h3, decide_eq_true_eq]
      omega
  | atupx =>
    simp only [parseFormat, parseAtupx] at h
    cases hh : parseHeader magicAtupx hdrAtupx src o with
    | error e => rw [hh] at h; cases h
    | ok csize =>
      rw [hh] at h; cases h
      obtain ⟨-, -, h2, h3⟩ := parseHeader_ok hh
      refine ⟨rfl, ?_, wf_payloadAt _ _ _ _⟩
      simp only [Container.consistent, len_payloadAt h3, decide_eq_true_eq]
      omega
  | pkdpx =>
    simp only [parseFormat, parsePkdpx] at h
    cases hh : parseHeader magicPkdpx hdrPkdpx src o with
    | error e => rw [hh] at h; cases h
    | ok csize =>
      rw [hh] at h; cases h
      obtain ⟨-, -, h2, h3⟩ := parseHeader_ok hh
      refine ⟨rfl, ?_, wf_payloadAt _ _ _ _⟩
      simp only [Container.consistent, len_payloadAt h3, decide_eq_true_eq]
      omega

theorem parseFormat_error {p : Params} {f : Format} {src : Bytes} {o : Nat} {e : Raise}
    (h : parseFormat p f src o = .error e) : e.legal = true := by
  have hmap : ∀ {m : Bytes} {hdr : Nat} {g : BitVec 16 → Container},
      (parseHeader m hdr src o).map g = .error e → e.legal = true := by
    intro m hdr g hg
    cases hh : parseHeader m hdr src o with
    | ok v => rw [hh] at hg; cases hg
    | error e' => rw [hh] at hg; cases hg; exact parseHeader_error hh
  cases f with
  | at4pn =>
    simp only [parseFormat, parsePlug] at h
    split at h
    · cases h; rfl
    · split at h
      · split at h <;> cases h
        rfl
      · cases h; rfl
  | at3px => exact hmap h
  | at4px => exact hmap h
  | atupx => exact hmap h
  | pkdpx => exact hmap h

/-! ### FCOMP -/

/-- Everything the container limit can answer (R206). -/
theorem totalSize_cases (hdr : Nat) (payload : Bytes) :
    (65535 < hdr + payload.length ∧ totalSize hdr payload = .error ⟨.outputTooLarge, .none⟩) ∨
    (hdr + payload.length ≤ 65535 ∧ totalSize hdr payload = .ok (BitVec.ofNat 16 (hdr + payload.length)) ∧
      (BitVec.ofNat 16 (hdr + payload.length)).toNat = hdr + payload.length) := by
  unfold totalSize Config.maxContainer
  split
  · exact .inl ⟨‹_›, rfl⟩
  · exact .inr ⟨by omega, rfl, by rw [BitVec.toNat_ofNat]; omega⟩

/-- Everything the PX formats' common part can answer (R206). -/
theorem wrapPx_cases (p : Params) (hdr : Nat) (b : Bytes) (mk : BitVec 16 → Cft → Memory → Container) :
    (∃ e, formatPxc p b = .error e ∧ wrapPx p hdr b mk = .error e) ∨
    (∃ r, formatPxc p b = .ok r ∧
      ((65535 < hdr + r.payload.length ∧ wrapPx p hdr b mk = .error ⟨.outputTooLarge, .none⟩) ∨
      (hdr + r.payload.length ≤ 65535 ∧ (BitVec.ofNat 16 (hdr + r.payload.length)).toNat = hdr + r.payload.length ∧
        wrapPx p hdr b mk = .ok (mk (BitVec.ofNat 16 (hdr + r.payload.length)) r.flags (Memory.ofBytes r.payload))))) := by
  unfold wrapPx
  cases formatPxc p b with
  | error e => exact .inl ⟨e, rfl, rfl⟩
  | ok r =>
    refine .inr ⟨r, rfl, ?_⟩
    obtain ⟨h, e⟩ | ⟨h, e, hn⟩ := totalSize_cases hdr r.payload
    · exact .inl ⟨h, by dsimp only; rw [e]⟩
    · exact .inr ⟨h, hn, by dsimp only; rw [e]⟩

theorem pxc_error {fill : FlagFill} {level : Level} {order : Order} {input : Bytes} {e : Raise}
    (h : pxc fill level order input = .error e) : e = ⟨.inputTooLarge, .none⟩ ∨ e = ⟨.outputTooLarge, .none⟩ := by
  obtain ⟨-, e'⟩ | ⟨-, ⟨-, e'⟩ | ⟨-, e'⟩⟩ := pxc_cases fill level order input
  all_goals rw [e'] at h; cases h
  · exact .inl rfl
  · exact .inr rfl

theorem wrapPx_error {p : Params} {hdr : Nat} {b : Bytes} {mk : BitVec 16 → Cft → Memory → Container} {e : Raise}
    (h : wrapPx p hdr b mk = .error e) : e.legal = true := by
  obtain ⟨e', hp, he⟩ | ⟨r, -, ⟨-, he⟩ | ⟨-, -, he⟩⟩ := wrapPx_cases p hdr b mk
  all_goals rw [he] at h; cases h
  · obtain rfl | rfl := pxc_error hp <;> rfl
  · rfl

theorem compressFormat_ok {p : Params} {f : Format} {b : Bytes} {c : Container}
    (h : compressFormat p f b = .ok c) : c.Made f := by
  have hmade : ∀ {hdr : Nat} {mk : BitVec 16 → Cft → Memory → Container},
      (∀ n t m, n.toNat = hdr + m.len → m.wf → (mk n t m).Made f) → wrapPx p hdr b mk = .ok c → c.Made f := by
    intro hdr mk hmk hw
    obtain ⟨e', -, he⟩ | ⟨r, -, ⟨-, he⟩ | ⟨-, hn, he⟩⟩ := wrapPx_cases p hdr b mk
    all_goals rw [he] at hw; cases hw
    exact hmk _ _ _ (by simpa using hn) (Memory.wf_ofBytes _)
  cases f with
  | at4pn =>
    simp only [compressFormat, compressPlug] at h
    split at h
    · cases h
    · split at h <;> cases h
      exact ⟨rfl, rfl, trivial⟩
  | at3px =>
    exact hmade (mk := fun n t m => .at3px n t m)
      (fun n t m hn hm => ⟨rfl, by simpa [Container.consistent] using hn, hm⟩) h
  | at4px =>
    simp only [compressFormat, compressAt4px] at h
    split at h
    · cases h
    · exact hmade (mk := fun n t m => .at4px n t (BitVec.ofNat 16 b.length) m)
        (fun n t m hn hm => ⟨rfl, by simpa [Container.consistent] using hn, hm⟩) h
  | pkdpx =>
    exact hmade (mk := fun n t m => .pkdpx n t (BitVec.ofNat 32 b.length) m)
      (fun n t m hn hm => ⟨rfl, by simpa [Container.consistent] using hn, hm⟩) h
  | atupx =>
    simp only [compressFormat, compressAtupx] at h
    split at h
    · cases h
    · split at h
      · cases h
      · split at h
        · cases h
        · rename_i r _
          obtain ⟨-, e⟩ | ⟨-, e, hn⟩ := totalSize_cases hdrAtupx r
          all_goals rw [e] at h; cases h
          exact ⟨rfl, by simpa [Container.consistent] using hn, Memory.wf_ofBytes _⟩

theorem compressFormat_error {p : Params} {f : Format} {b : Bytes} {e : Raise}
    (h : compressFormat p f b = .error e) : e.legal = true := by
  cases f with
  | at4pn =>
    simp only [compressFormat, compressPlug] at h
    split at h
    · cases h; rfl
    · split at h <;> cases h
      rfl
  | at3px => exact wrapPx_error h
  | at4px =>
    simp only [compressFormat, compressAt4px] at h
    split at h
    · cases h; rfl
    · exact wrapPx_error h
  | pkdpx =>
    simp only [compressFormat, compressPkdpx] at h
    exact wrapPx_error h
  | atupx =>
    simp only [compressFormat, compressAtupx] at h
    split at h
    · cases h; rfl
    · split at h
      · cases h; rfl
      · split at h
        · cases h; rfl
        · rename_i r _
          obtain ⟨-, e'⟩ | ⟨-, e', hn⟩ := totalSize_cases hdrAtupx r
          all_goals rw [e'] at h; cases h
          rfl

/-! ### FSER -/

/-- Everything FSER can answer (R205, R238). -/
theorem serialize_cases (p : Params) (c : Container) :
    (c.consistent = false ∧ serialize p c = .error ⟨.illegalCommand, .badContainer⟩) ∨
    (c.consistent = true ∧ containerBytes p c = none ∧ serialize p c = .error ⟨.noUsableCompression, .codecAbsent⟩) ∨
    (c.consistent = true ∧ ∃ b, containerBytes p c = some b ∧ serialize p c = .ok b) := by
  unfold serialize
  cases c.consistent with
  | false => exact .inl ⟨rfl, rfl⟩
  | true =>
    cases containerBytes p c with
    | none => exact .inr (.inl ⟨rfl, rfl, rfl⟩)
    | some b => exact .inr (.inr ⟨rfl, b, rfl, rfl⟩)

/-- Only a container of the plug-in can fail to have bytes, and only without the plug-in. -/
theorem containerBytes_eq_none {p : Params} {c : Container} (h : containerBytes p c = none) :
    (∃ blob, c = .at4pn blob) ∧ p.plug = none := by
  cases c with
  | at4pn blob =>
    simp only [containerBytes] at h
    split at h
    · exact ⟨⟨blob, rfl⟩, ‹_›⟩
    · cases h
  | at3px n t m => cases h
  | at4px n t d m => cases h
  | pkdpx n t d m => cases h
  | atupx n d m => cases h

theorem serialize_error {p : Params} {c : Container} {e : Raise} (h : serialize p c = .error e) : e.legal = true := by
  obtain ⟨-, e'⟩ | ⟨-, -, e'⟩ | ⟨-, b, -, e'⟩ := serialize_cases p c
  all_goals rw [e'] at h; cases h
  all_goals rfl

/-! ### The dispatcher -/

/-- Everything DDES can answer (R257). -/
theorem deserialize_cases (p : Params) (src : Bytes) :
    (detectFormat p src 0 = none ∧ deserialize p src = .error ⟨.unrecognizedContainer, .none⟩) ∨
    (∃ f, detectFormat p src 0 = some f ∧ deserialize p src = parseFormat p f src 0) := by
  unfold deserialize
  cases detectFormat p src 0 with
  | none => exact .inl ⟨rfl, rfl⟩
  | some f => exact .inr ⟨f, rfl, rfl⟩

/-- Everything the comparison of sizes can answer; a tie keeps the best so far (R259). -/
theorem keepSmaller_cases (p : Params) (best : Option Container) (c : Container) :
    (best = none ∧ keepSmaller p best c = some c) ∨
    (∃ b, best = some b ∧ serializedSize p c < serializedSize p b ∧ keepSmaller p best c = some c) ∨
    (∃ b, best = some b ∧ serializedSize p b ≤ serializedSize p c ∧ keepSmaller p best c = some b) := by
  unfold keepSmaller
  cases best with
  | none => exact .inl ⟨rfl, rfl⟩
  | some b =>
    dsimp only
    split
    · exact .inr (.inl ⟨b, rfl, ‹_›, rfl⟩)
    · exact .inr (.inr ⟨b, rfl, by omega, rfl⟩)

/-- Everything one candidate can do: it is skipped, its error is swallowed, or its container is compared (R258). -/
theorem tryCandidates_cons (p : Params) (allowed : BitVec 5) (native : Bool) (b : Bytes) (f : Format)
    (fs : List Format) (best : Option Container) :
    (permitted p.atupxGate allowed native f = false ∧
      tryCandidates p allowed native b (f :: fs) best = tryCandidates p allowed native b fs best) ∨
    (permitted p.atupxGate allowed native f = true ∧ (∃ e, compressFormat p f b = .error e) ∧
      tryCandidates p allowed native b (f :: fs) best = tryCandidates p allowed native b fs best) ∨
    (permitted p.atupxGate allowed native f = true ∧ ∃ c, compressFormat p f b = .ok c ∧
      tryCandidates p allowed native b (f :: fs) best =
        tryCandidates p allowed native b fs (keepSmaller p best c)) := by
  cases hp : permitted p.atupxGate allowed native f with
  | false => exact .inl ⟨rfl, by simp [tryCandidates, hp]⟩
  | true =>
    cases hc : compressFormat p f b with
    | error e => exact .inr (.inl ⟨rfl, ⟨e, rfl⟩, by simp [tryCandidates, hp, hc]⟩)
    | ok c => exact .inr (.inr ⟨rfl, c, rfl, by simp [tryCandidates, hp, hc]⟩)

/-- What the loop answers is the best so far or a container some candidate made. -/
theorem tryCandidates_made (p : Params) (allowed : BitVec 5) (native : Bool) (b : Bytes) (fs : List Format)
    (best : Option Container) {c : Container} (h : tryCandidates p allowed native b fs best = some c) :
    best = some c ∨ ∃ f ∈ fs, permitted p.atupxGate allowed native f = true ∧ compressFormat p f b = .ok c := by
  induction fs generalizing best with
  | nil => exact .inl h
  | cons f fs ih =>
    obtain ⟨-, e⟩ | ⟨-, -, e⟩ | ⟨hp, c', hc, e⟩ := tryCandidates_cons p allowed native b f fs best
    · rw [e] at h
      obtain h | ⟨g, hg, h1⟩ := ih best h
      · exact .inl h
      · exact .inr ⟨g, List.mem_cons_of_mem _ hg, h1⟩
    · rw [e] at h
      obtain h | ⟨g, hg, h1⟩ := ih best h
      · exact .inl h
      · exact .inr ⟨g, List.mem_cons_of_mem _ hg, h1⟩
    · rw [e] at h
      obtain h | ⟨g, hg, h1⟩ := ih _ h
      · obtain ⟨-, k⟩ | ⟨b', -, -, k⟩ | ⟨b', hb, -, k⟩ := keepSmaller_cases p best c'
        all_goals rw [k] at h; cases h
        · exact .inr ⟨f, by simp, hp, hc⟩
        · exact .inr ⟨f, by simp, hp, hc⟩
        · exact .inl hb
      · exact .inr ⟨g, List.mem_cons_of_mem _ hg, h1⟩

/-- Everything DCOMP can answer (R258, R265, 30_encoding.md R119). -/
theorem smallest_cases (p : Params) (allowed : BitVec 5) (native : Bool) (cand : List (BitVec 3)) (b : Bytes) :
    (candidateFormats cand = none ∧ smallest p allowed native cand b = .error ⟨.illegalCommand, .reservedEncoding⟩) ∨
    (∃ fs, candidateFormats cand = some fs ∧ tryCandidates p allowed native b fs none = none ∧
      smallest p allowed native cand b = .error ⟨.noUsableCompression, .none⟩) ∨
    (∃ fs c, candidateFormats cand = some fs ∧ tryCandidates p allowed native b fs none = some c ∧
      smallest p allowed native cand b = .ok c) := by
  unfold smallest
  cases candidateFormats cand with
  | none => exact .inl ⟨rfl, rfl⟩
  | some fs =>
    dsimp only
    cases ht : tryCandidates p allowed native b fs none with
    | none => exact .inr (.inl ⟨fs, rfl, ht, rfl⟩)
    | some c => exact .inr (.inr ⟨fs, c, rfl, ht, rfl⟩)

end Sys2Proof.Machine
end

