-- ==== Sys2Proof/Laws/PerInstr.lean ====
section
/-! SUPPORT. A statement about every instruction as syntax, with one lemma per constructor: the form of its encoding. -/

namespace Sys2Proof.Laws.EncodingForm

/-- The form of an instruction's encoding under every table: a PX operation is written as its command bit and its bytes,
one or two (30_encoding.md R92, R94); a command byte as itself; a host command as a command word that decodes to it
(R116). -/
def Statement (i : Instr) : Prop :=
  ∀ t : Cft,
    match encode t i with
    | .operation bit bytes => ∃ op : Op, op.toInstr = i ∧ i.toOp = some op ∧ bit = op.isCopy ∧
        bytes = encodeOp t op ∧ bytes.length = op.size
    | .blockByte c => i = .cmdb c
    | .commandWord cw => decodeCommand cw = .ok i

theorem cmdb (c : Byte) : Statement (.cmdb c) := fun _ => rfl

theorem copy (b : Byte) : Statement (.copy b) := fun _ => ⟨.copyAsIs b, rfl, rfl, rfl, rfl, rfl⟩

theorem np0 (l : Nibble) : Statement (.np0 l) := fun _ => ⟨.nibblePattern 0 l, rfl, rfl, rfl, rfl, rfl⟩

theorem np1 (l : Nibble) : Statement (.np1 l) := fun _ => ⟨.nibblePattern 1 l, rfl, rfl, rfl, rfl, rfl⟩

theorem np2 (l : Nibble) : Statement (.np2 l) := fun _ => ⟨.nibblePattern 2 l, rfl, rfl, rfl, rfl, rfl⟩

theorem np3 (l : Nibble) : Statement (.np3 l) := fun _ => ⟨.nibblePattern 3 l, rfl, rfl, rfl, rfl, rfl⟩

theorem np4 (l : Nibble) : Statement (.np4 l) := fun _ => ⟨.nibblePattern 4 l, rfl, rfl, rfl, rfl, rfl⟩

theorem np5 (l : Nibble) : Statement (.np5 l) := fun _ => ⟨.nibblePattern 5 l, rfl, rfl, rfl, rfl, rfl⟩

theorem np6 (l : Nibble) : Statement (.np6 l) := fun _ => ⟨.nibblePattern 6 l, rfl, rfl, rfl, rfl, rfl⟩

theorem np7 (l : Nibble) : Statement (.np7 l) := fun _ => ⟨.nibblePattern 7 l, rfl, rfl, rfl, rfl, rfl⟩

theorem np8 (l : Nibble) : Statement (.np8 l) := fun _ => ⟨.nibblePattern 8 l, rfl, rfl, rfl, rfl, rfl⟩

theorem seq (o : Int) (n : Nat) : Statement (.seq o n) := fun _ => ⟨.sequence o n, rfl, rfl, rfl, rfl, rfl⟩

theorem pxc (level : Level) (order : Order) : Statement (.pxc level order) := by
  intro t
  show decodeCommand (commandWord 0x01 (pxcArg level order)) = .ok (.pxc level order)
  cases order <;> revert level <;> decide

theorem pxd : Statement .pxd := fun _ => rfl

theorem matchAt4pn : Statement .matchAt4pn := fun _ => rfl

theorem matchAt3px : Statement .matchAt3px := fun _ => rfl

theorem matchAt4px : Statement .matchAt4px := fun _ => rfl

theorem matchAtupx : Statement .matchAtupx := fun _ => rfl

theorem matchPkdpx : Statement .matchPkdpx := fun _ => rfl

theorem csizeAt4pn : Statement .csizeAt4pn := fun _ => rfl

theorem csizeAt3px : Statement .csizeAt3px := fun _ => rfl

theorem csizeAt4px : Statement .csizeAt4px := fun _ => rfl

theorem csizeAtupx : Statement .csizeAtupx := fun _ => rfl

theorem csizePkdpx : Statement .csizePkdpx := fun _ => rfl

theorem fdesAt4pn : Statement .fdesAt4pn := fun _ => rfl

theorem fdesAt3px : Statement .fdesAt3px := fun _ => rfl

theorem fdesAt4px : Statement .fdesAt4px := fun _ => rfl

theorem fdesAtupx : Statement .fdesAtupx := fun _ => rfl

theorem fdesPkdpx : Statement .fdesPkdpx := fun _ => rfl

theorem fcompAt4pn : Statement .fcompAt4pn := fun _ => rfl

theorem fcompAt3px : Statement .fcompAt3px := fun _ => rfl

theorem fcompAt4px : Statement .fcompAt4px := fun _ => rfl

theorem fcompAtupx : Statement .fcompAtupx := fun _ => rfl

theorem fcompPkdpx : Statement .fcompPkdpx := fun _ => rfl

theorem fser : Statement .fser := fun _ => rfl

theorem fdec : Statement .fdec := fun _ => rfl

theorem allow (f : Format) : Statement (.allow f) := fun _ => by cases f <;> rfl

theorem disallow (f : Format) : Statement (.disallow f) := fun _ => by cases f <;> rfl

theorem setnative (b : Bool) : Statement (.setnative b) := fun _ => by cases b <;> rfl

theorem detect : Statement .detect := fun _ => rfl

theorem ddes : Statement .ddes := fun _ => rfl

theorem dcomp : Statement .dcomp := fun _ => rfl

end Sys2Proof.Laws.EncodingForm
end

