-- ==== Sys2Proof/Laws/Stream.lean ====
section
/-! SUPPORT. The PX stream operations: what one operation does to the working state, what the fetch can find, and how an
operation acts in the machine. -/

namespace Sys2Proof.Machine

/-! ### Moving past an operation -/

variable (w : PxdWork)

@[simp] theorem PxdWork.advance_payload (n : Nat) : (w.advance n).payload = w.payload := by
  unfold PxdWork.advance; split <;> rfl

@[simp] theorem PxdWork.advance_flags (n : Nat) : (w.advance n).flags = w.flags := by
  unfold PxdWork.advance; split <;> rfl

@[simp] theorem PxdWork.advance_out (n : Nat) : (w.advance n).out = w.out := by
  unfold PxdWork.advance; split <;> rfl

@[simp] theorem PxdWork.advance_pc (n : Nat) : (w.advance n).pc = w.pc + n := by
  unfold PxdWork.advance; split <;> rfl

theorem PxdWork.advance_of_last (n : Nat) (h : w.k = 7) : (w.advance n).cmdb = none ∧ (w.advance n).k = 0 := by
  simp [PxdWork.advance, h]

theorem PxdWork.advance_of_inner (n : Nat) (h : w.k ≠ 7) :
    (w.advance n).cmdb = w.cmdb ∧ (w.advance n).k.val = w.k.val + 1 := by
  have hk : w.k.val < 7 := by
    have h1 := w.k.isLt
    have h2 : w.k.val ≠ 7 := fun e => h (Fin.ext e)
    omega
  have hv : (w.k + 1).val = w.k.val + 1 := by
    rw [Fin.val_add]
    exact Nat.mod_eq_of_lt (Nat.succ_lt_succ hk)
  simp [PxdWork.advance, h, hv]

@[simp] theorem PxdWork.loadCommandByte_payload (c : Byte) : (w.loadCommandByte c).payload = w.payload := rfl
@[simp] theorem PxdWork.loadCommandByte_flags (c : Byte) : (w.loadCommandByte c).flags = w.flags := rfl
@[simp] theorem PxdWork.loadCommandByte_pc (c : Byte) : (w.loadCommandByte c).pc = w.pc + 1 := rfl
@[simp] theorem PxdWork.loadCommandByte_cmdb (c : Byte) : (w.loadCommandByte c).cmdb = some c := rfl
@[simp] theorem PxdWork.loadCommandByte_k (c : Byte) : (w.loadCommandByte c).k = 0 := rfl
@[simp] theorem PxdWork.loadCommandByte_out (c : Byte) : (w.loadCommandByte c).out = w.out := rfl

@[simp] theorem PxdWork.start_payload (m : Memory) (t : Cft) : (PxdWork.start m t).payload = m := rfl
@[simp] theorem PxdWork.start_flags (m : Memory) (t : Cft) : (PxdWork.start m t).flags = t := rfl
@[simp] theorem PxdWork.start_pc (m : Memory) (t : Cft) : (PxdWork.start m t).pc = 0 := rfl
@[simp] theorem PxdWork.start_cmdb (m : Memory) (t : Cft) : (PxdWork.start m t).cmdb = none := rfl
@[simp] theorem PxdWork.start_k (m : Memory) (t : Cft) : (PxdWork.start m t).k = 0 := rfl
@[simp] theorem PxdWork.start_out (m : Memory) (t : Cft) : (PxdWork.start m t).out = Memory.empty := rfl

/-! ### One operation -/

/-- Everything an operation can do: append its literal, append its pattern, copy from inside OUT, or raise one of the
two causes an operation raises (R175, R196, R186). -/
theorem PxdWork.apply_cases (range : PatternRange) (op : Op) :
    (∃ b, op = .copyAsIs b ∧ w.apply range op = .ok ({ w with out := w.out.append b }.advance 1)) ∨
    (∃ i l b0 b1, op = .nibblePattern i l ∧ pattern range i l = some (b0, b1) ∧
      w.apply range op = .ok ({ w with out := (w.out.append b0).append b1 }.advance 1)) ∨
    (∃ i l, op = .nibblePattern i l ∧ pattern range i l = none ∧ w.apply range op = .error .patternRange) ∨
    (∃ offset length, op = .sequence offset length ∧ 0 ≤ w.copySource offset ∧ w.apply range op =
      .ok ({ w with out := Memory.copyBack length (w.copySource offset).toNat w.out }.advance 2)) ∨
    (∃ offset length, op = .sequence offset length ∧ w.copySource offset < 0 ∧
      w.apply range op = .error .backrefUnderflow) := by
  cases op with
  | copyAsIs b => exact .inl ⟨b, rfl, rfl⟩
  | nibblePattern i l =>
    cases hp : pattern range i l with
    | none => exact .inr (.inr (.inl ⟨i, l, rfl, hp, by simp [PxdWork.apply, PxdWork.nibblePattern, hp]⟩))
    | some p => exact .inr (.inl ⟨i, l, p.1, p.2, rfl, hp, by simp [PxdWork.apply, PxdWork.nibblePattern, hp]⟩)
  | sequence offset length =>
    by_cases h : w.copySource offset < 0
    · exact .inr (.inr (.inr (.inr ⟨offset, length, rfl, h, by simp [PxdWork.apply, PxdWork.sequence, h]⟩)))
    · exact .inr (.inr (.inr (.inl ⟨offset, length, rfl, Int.not_lt.mp h, by
        simp [PxdWork.apply, PxdWork.sequence, h]⟩)))

/-- An operation that goes on keeps its program and moves `pc` by its size. -/
theorem PxdWork.apply_ok {w w' : PxdWork} {range : PatternRange} {op : Op} (h : w.apply range op = .ok w') :
    w'.payload = w.payload ∧ w'.flags = w.flags ∧ w'.pc = w.pc + op.size := by
  obtain ⟨b, rfl, e⟩ | ⟨i, l, b0, b1, rfl, -, e⟩ | ⟨i, l, rfl, -, e⟩ | ⟨o, n, rfl, -, e⟩ | ⟨o, n, rfl, -, e⟩ :=
    w.apply_cases range op
  all_goals rw [e] at h; cases h
  all_goals simp [Op.size]

/-- The causes an operation can raise (R187, R189). -/
theorem PxdWork.apply_error {w : PxdWork} {range : PatternRange} {op : Op} {c : Cause}
    (h : w.apply range op = .error c) : c = .patternRange ∨ c = .backrefUnderflow := by
  obtain ⟨b, rfl, e⟩ | ⟨i, l, b0, b1, rfl, -, e⟩ | ⟨i, l, rfl, -, e⟩ | ⟨o, n, rfl, -, e⟩ | ⟨o, n, rfl, -, e⟩ :=
    w.apply_cases range op
  all_goals rw [e] at h; cases h
  all_goals simp

/-- An operation keeps OUT canonical. -/
theorem PxdWork.apply_out_wf {w w' : PxdWork} {range : PatternRange} {op : Op} (hw : w.out.wf)
    (h : w.apply range op = .ok w') : w'.out.wf := by
  obtain ⟨b, rfl, e⟩ | ⟨i, l, b0, b1, rfl, -, e⟩ | ⟨i, l, rfl, -, e⟩ | ⟨o, n, rfl, -, e⟩ | ⟨o, n, rfl, -, e⟩ :=
    w.apply_cases range op
  all_goals rw [e] at h; cases h
  · simpa using Memory.wf_append hw b
  · simpa using Memory.wf_append (Memory.wf_append hw b0) b1
  · simpa using Memory.wf_copyBack hw n _

/-! ### The fetch -/

@[simp] theorem decodeOp_nil (t : Cft) (bit : Bool) : decodeOp t bit [] = .error .endOfPayload := rfl

@[simp] theorem decodeOp_literal (t : Cft) (b : Byte) (more : Bytes) :
    decodeOp t true (b :: more) = .ok (.copyAsIs b) := rfl

/-- A decoded operation lies inside the bytes it was read from (R94). -/
theorem decodeOp_size {t : Cft} {bit : Bool} {l : Bytes} {op : Op} (h : decodeOp t bit l = .ok op) :
    op.size ≤ l.length := by
  unfold decodeOp at h
  split at h
  · cases h
  · split at h
    · cases h; simp [Op.size]
    · split at h
      · cases h; simp [Op.size]
      · split at h
        · cases h
        · cases h; simp [Op.size]

/-- While a byte is left the payload has not ended (R174). -/
theorem decodeOp_cons_ne_end (t : Cft) (bit : Bool) (b : Byte) (more : Bytes) :
    decodeOp t bit (b :: more) ≠ .error .endOfPayload := by
  intro h
  cases bit with
  | true => cases h
  | false =>
    simp only [decodeOp, Bool.false_eq_true, if_false] at h
    split at h
    · cases h
    · split at h <;> cases h

/-- The fetch says it is finished exactly at the end of the payload (R174). -/
theorem PxdWork.fetch_finished_iff : w.fetch = .finished ↔ w.rest = [] := by
  unfold PxdWork.fetch
  cases hc : w.cmdb with
  | none => cases hr : w.rest <;> simp
  | some c =>
    cases hr : w.rest with
    | nil => simp
    | cons b more =>
      simp only [reduceCtorEq, iff_false]
      cases hd : decodeOp w.flags (commandBit c w.k.val) (b :: more) with
      | ok op => simp
      | error r =>
        cases r with
        | endOfPayload => exact absurd hd (decodeOp_cons_ne_end _ _ _ _)
        | truncatedSequence => simp

/-- A command byte is fetched where none is in force (R172). -/
theorem PxdWork.fetch_commandByte {c : Byte} (h : w.fetch = .commandByte c) :
    w.cmdb = none ∧ ∃ more, w.rest = c :: more := by
  unfold PxdWork.fetch at h
  cases hc : w.cmdb with
  | none =>
    cases hr : w.rest with
    | nil => simp [hc, hr] at h
    | cons b more => simp [hc, hr] at h; simp [h]
  | some d => simp only [hc] at h; split at h <;> cases h

/-- An operation is fetched under the command byte in force (R175, R176). -/
theorem PxdWork.fetch_operation {op : Op} (h : w.fetch = .operation op) :
    ∃ c, w.cmdb = some c ∧ decodeOp w.flags (commandBit c w.k.val) w.rest = .ok op := by
  unfold PxdWork.fetch at h
  cases hc : w.cmdb with
  | none => cases hr : w.rest <;> simp [hc, hr] at h
  | some c =>
    refine ⟨c, rfl, ?_⟩
    simp only [hc] at h
    split at h <;> simp_all

theorem PxdWork.length_rest : w.rest.length = w.payload.len - w.pc := by
  simp [PxdWork.rest]

/-! ### In the machine -/

variable (s : State)

theorem State.onStream_stream {g : Goal} {w : PxdWork} (h : s.work = .stream g w) (f : PxdWork → Except Cause PxdWork) :
    s.onStream f = match f w with
      | .ok w' => .next (s.setWork (.stream g w'))
      | .error c => .next (s.raise ⟨.corruptContainer, c⟩ {}) := by
  cases hf : f w <;> simp [State.onStream, h, hf]

theorem State.onStream_outside (h : ∀ g w, s.work ≠ .stream g w) (f : PxdWork → Except Cause PxdWork) :
    s.onStream f = .fault .noStreamRun := by
  unfold State.onStream
  split
  · exact absurd ‹_› (h _ _)
  · rfl
  · rfl

/-- Executing an operation is applying it to the working state of the run: the one meaning behind COPY, NP0 to NP8 and
SEQ (R175 to R186). -/
theorem exec_toInstr (op : Op) : exec op.toInstr s = s.onStream (fun w => w.apply s.params.patternRange op) := by
  cases op with
  | copyAsIs b => rfl
  | nibblePattern i l => fin_cases i <;> rfl
  | sequence offset length => rfl

/-- A finished run ends the command in DONE with OUT as DST, or, where FDEC asserts another length, in SizeMismatch. -/
theorem State.finishStream_cases (g : Goal) (out : Memory) :
    s.finishStream g out = s.done { dst := some out } ∨
      ((∃ n, g = .fdec (some n) ∧ out.len ≠ n) ∧
        s.finishStream g out = s.raise ⟨.corruptContainer, .sizeMismatch⟩ {}) := by
  unfold State.finishStream
  split
  · exact .inl rfl
  · exact .inl rfl
  · split
    · exact .inl rfl
    · exact .inr ⟨⟨_, rfl, ‹_›⟩, rfl⟩

/-- A run of PXD or FDEC ends in one of three ways, or, in the small-step view, has just started. -/
theorem State.runStream_cases (g : Goal) (m : Memory) (t : Cft) :
    (s.params.granularity = .operation ∧ s.runStream g m t = s.setWork (.stream g (PxdWork.start m t))) ∨
    (s.params.granularity = .command ∧ ∃ out, pxd s.params.patternRange m t = .ok out ∧
      s.runStream g m t = s.finishStream g out) ∨
    (s.params.granularity = .command ∧ ∃ c, pxd s.params.patternRange m t = .error c ∧
      s.runStream g m t = s.raise ⟨.corruptContainer, c⟩ {}) := by
  unfold State.runStream State.streamToEnd
  cases hg : s.params.granularity with
  | operation => exact .inl ⟨rfl, rfl⟩
  | command =>
    cases hp : pxd s.params.patternRange m t with
    | ok out => exact .inr (.inl ⟨rfl, out, rfl, rfl⟩)
    | error c => exact .inr (.inr ⟨rfl, c, rfl, rfl⟩)

end Sys2Proof.Machine
end

