-- ==== Sys2Proof/Laws/Step.lean ====
section
/-! SUPPORT. What one step can do, said once: the inversion lemmas of exec and step. -/

namespace Sys2Proof.Machine

/-! ### Runs of PXD -/

/-- What a finished run answers is canonical, whatever the payload. -/
theorem pxdLoop_wf {range : PatternRange} {fuel : Nat} {w : PxdWork} {out : Memory} (hw : w.out.wf)
    (h : pxdLoop range fuel w = .ok out) : out.wf := by
  induction fuel generalizing w with
  | zero => cases h; exact hw
  | succ fuel ih =>
    unfold pxdLoop at h
    split at h
    · cases h; exact hw
    · exact ih (w := w.loadCommandByte _) hw h
    · split at h
      · rename_i w' hw'
        exact ih (PxdWork.apply_out_wf hw hw') h
      · cases h
    · cases h

theorem pxd_wf {range : PatternRange} {payload : Memory} {flags : Cft} {out : Memory}
    (h : pxd range payload flags = .ok out) : out.wf :=
  pxdLoop_wf (w := PxdWork.start payload flags) Memory.wf_empty h

/-- A decode error is one of three causes (41_px_decompressor.md R187 to R189). -/
theorem pxdLoop_error {range : PatternRange} {fuel : Nat} {w : PxdWork} {c : Cause}
    (h : pxdLoop range fuel w = .error c) : c = .patternRange ∨ c = .backrefUnderflow ∨ c = .truncatedPayload := by
  induction fuel generalizing w with
  | zero => cases h
  | succ fuel ih =>
    unfold pxdLoop at h
    split at h
    · cases h
    · exact ih h
    · split at h
      · exact ih h
      · rename_i c' hc'
        cases h
        obtain h | h := PxdWork.apply_error hc'
        · exact .inl h
        · exact .inr (.inl h)
    · cases h; exact .inr (.inr rfl)

theorem legal_of_streamCause {c : Cause} (h : c = .patternRange ∨ c = .backrefUnderflow ∨ c = .truncatedPayload) :
    Raise.legal ⟨.corruptContainer, c⟩ = true := by
  rcases h with rfl | rfl | rfl <;> rfl

/-! ### What a command can do -/

variable {s t : State}

/-- A ControlFlagTable that a command of the state `s` builds: from the plan of SRC, or from the planning in progress. -/
def State.buildsFlags (s : State) (flags : Cft) : Prop :=
  (∃ level order, flags = buildFlags s.params.flagFill (plan level order s.src.bytes).rls) ∨
  (∃ w, s.work = .plan w ∧ flags = buildFlags s.params.flagFill w.rls)

/-- What a command can put into the result registers. -/
structure State.Yields (s : State) (r : Results) : Prop where
  dst : ∀ m, r.dst = some m → s.canonical → m.wf
  ct : ∀ c, r.ct = some c → c.canonical ∧ c.consistent = true
  cft : ∀ flags, r.cft = some flags → s.buildsFlags flags

/-- Everything a step can do to the state in which it acts: end a command, raise, edit CFG, start or go on planning,
start or go on decoding. -/
inductive State.Moves (s : State) : State → Prop
  | done (r : Results) (h : s.Yields r) : State.Moves s (s.done r)
  | raise (e : Raise) (w : Targets) (h : e.legal = true) : State.Moves s (s.raise e w)
  | config (i : Instr) (a : BitVec 5) (b : Bool) (h : exec i s = .next ((s.setCfg a b).done {}))
      (hi : (∃ f, i = .allow f) ∨ (∃ f, i = .disallow f) ∨ ∃ v, i = .setnative v) :
      State.Moves s ((s.setCfg a b).done {})
  | startPlan (level : Level) (order : Order) (h : s.src.len ≤ 2147483647) :
      State.Moves s (s.setWork (.plan (PxcWork.start level order)))
  | planned (w w' : PxcWork) (hw : s.work = .plan w) (h : w.planNext s.src.bytes = some w') :
      State.Moves s (s.setWork (.plan w'))
  | startStream (g : Goal) (m : Memory) (flags : Cft) (h : s.canonical → m.wf) :
      State.Moves s (s.setWork (.stream g (PxdWork.start m flags)))
  | loaded (g : Goal) (w : PxdWork) (c : Byte) (hw : s.work = .stream g w) :
      State.Moves s (s.setWork (.stream g (w.loadCommandByte c)))
  | applied (g : Goal) (w w' : PxdWork) (op : Op) (hw : s.work = .stream g w)
      (h : w.apply s.params.patternRange op = .ok w') : State.Moves s (s.setWork (.stream g w'))

theorem State.yields_empty : s.Yields {} := ⟨nofun, nofun, nofun⟩

theorem State.yields_res (v : BitVec 32) : s.Yields { res := some v } := ⟨nofun, nofun, nofun⟩

theorem State.yields_dst {m : Memory} (h : s.canonical → m.wf) : s.Yields { dst := some m } :=
  ⟨fun _ e => by cases e; exact h, nofun, nofun⟩

theorem State.yields_ct {f : Format} {c : Container} (h : c.Made f) : s.Yields { ct := some c } :=
  ⟨nofun, fun _ e => by cases e; exact ⟨h.canonical, h.consistent⟩, nofun⟩

theorem State.moves_finish {w : Targets} {r : Except Raise Results} (hok : ∀ v, r = .ok v → s.Yields v)
    (herr : ∀ e, r = .error e → e.legal = true) : s.Moves (s.finish w r) := by
  cases r with
  | ok v => exact .done v (hok v rfl)
  | error e => exact .raise e w (herr e rfl)

theorem State.moves_finishContainer {r : Except Raise Container} (hok : ∀ c, r = .ok c → ∃ f, c.Made f)
    (herr : ∀ e, r = .error e → e.legal = true) : s.Moves (s.finishContainer r) := by
  cases r with
  | ok c =>
    obtain ⟨f, hf⟩ := hok c rfl
    exact .done _ (State.yields_ct hf)
  | error e => exact .raise e _ (herr e rfl)

theorem State.moves_parse {f : Format} {b : Bytes} {o : Nat} :
    s.Moves (s.finishContainer (parseFormat s.params f b o)) :=
  State.moves_finishContainer (fun _ h => ⟨f, parseFormat_ok h⟩) fun _ => parseFormat_error

theorem State.moves_compress {f : Format} {b : Bytes} : s.Moves (s.finishContainer (compressFormat s.params f b)) :=
  State.moves_finishContainer (fun _ h => ⟨f, compressFormat_ok h⟩) fun _ => compressFormat_error

theorem State.moves_size {r : Except Raise (BitVec 32)} (herr : ∀ e, r = .error e → e.legal = true) :
    s.Moves (s.finish {} (r.map sizeResult)) := by
  cases r with
  | ok v => exact .done _ (State.yields_res v)
  | error e => exact .raise e _ (herr e rfl)

theorem State.moves_bytes {r : Except Raise Bytes} (herr : ∀ e, r = .error e → e.legal = true) :
    s.Moves (s.finish {} (r.map bytesResult)) := by
  cases r with
  | ok v => exact .done _ (State.yields_dst fun _ => Memory.wf_ofBytes v)
  | error e => exact .raise e _ (herr e rfl)

theorem State.moves_finishStream (g : Goal) {out : Memory} (h : s.canonical → out.wf) :
    s.Moves (s.finishStream g out) := by
  obtain e | ⟨-, e⟩ := s.finishStream_cases g out
  · rw [e]; exact .done _ (State.yields_dst h)
  · rw [e]; exact .raise _ _ rfl

theorem State.moves_runStream (g : Goal) (m : Memory) (flags : Cft) (h : s.canonical → m.wf) :
    s.Moves (s.runStream g m flags) := by
  obtain ⟨-, e⟩ | ⟨-, out, hp, e⟩ | ⟨-, c, hp, e⟩ := s.runStream_cases g m flags
  · rw [e]; exact .startStream g m flags h
  · rw [e]; exact State.moves_finishStream g fun _ => pxd_wf hp
  · rw [e]; exact .raise _ _ (legal_of_streamCause (pxdLoop_error hp))

theorem State.moves_match (b : Bool) : s.Moves (s.done (matchResult b)) := .done _ (State.yields_res _)

theorem State.moves_finishPlan (w : PxcWork) (h : s.buildsFlags (buildFlags s.params.flagFill w.rls)) :
    s.Moves (s.finishPlan w) := by
  obtain ⟨-, e⟩ | ⟨-, e⟩ := s.finishPlan_cases w
  · rw [e]; exact .raise _ _ rfl
  · rw [e]
    exact .done _ ⟨fun _ e => by cases e; exact fun _ => Memory.wf_ofBytes _, nofun,
      fun _ e => by cases e; exact h⟩

/-- Everything PXC can do (40_px_compressor.md R130). -/
theorem State.moves_pxc (level : Level) (order : Order) (h : exec (.pxc level order) s = .next t) : s.Moves t := by
  simp only [exec, execPxc] at h
  split at h
  · split at h
    · cases h; exact .raise _ _ rfl
    · cases h; exact .startPlan level order (by simp only [Config.maxInput] at *; omega)
  · cases h
    obtain ⟨-, e⟩ | ⟨-, ⟨-, e⟩ | ⟨-, e⟩⟩ := pxc_cases s.params.flagFill level order s.src.bytes
    · rw [e]; exact .raise _ _ rfl
    · rw [e]; exact .raise _ _ rfl
    · rw [e]
      exact .done _ ⟨fun _ e => by cases e; exact fun _ => Memory.wf_ofBytes _, nofun,
        fun _ e => by cases e; exact .inl ⟨level, order, rfl⟩⟩

theorem decompressAtupx_error {p : Params} {d : BitVec 32} {m : Memory} {e : Raise}
    (h : decompressAtupx p d m = .error e) : e.legal = true := by
  unfold decompressAtupx at h
  split at h
  · cases h; rfl
  · split at h <;> cases h
    rfl

theorem decompressPlug_error {p : Params} {blob : Bytes} {e : Raise} (h : decompressPlug p blob = .error e) :
    e.legal = true := by
  unfold decompressPlug at h
  split at h
  · cases h; rfl
  · split at h <;> cases h
    rfl

/-- Everything FDEC can do (42_container_formats.md R207). -/
theorem State.moves_decompress {c : Container} (hc : s.ct.value = some c) : s.Moves (s.decompress c) := by
  cases c with
  | at3px n flags m => exact State.moves_runStream _ m flags fun h => h.ct _ hc
  | at4px n flags d m => exact State.moves_runStream _ m flags fun h => h.ct _ hc
  | pkdpx n flags d m => exact State.moves_runStream _ m flags fun h => h.ct _ hc
  | atupx n d m => exact State.moves_bytes fun _ => decompressAtupx_error
  | at4pn blob => exact State.moves_bytes fun _ => decompressPlug_error

theorem smallest_ok {p : Params} {a : BitVec 5} {n : Bool} {cand : List (BitVec 3)} {b : Bytes} {c : Container}
    (h : smallest p a n cand b = .ok c) : ∃ f, c.Made f := by
  obtain ⟨-, e⟩ | ⟨fs, -, -, e⟩ | ⟨fs, c', -, ht, e⟩ := smallest_cases p a n cand b
  all_goals rw [e] at h; cases h
  obtain h | ⟨f, -, -, hf⟩ := tryCandidates_made p a n b fs none ht
  · cases h
  · exact ⟨f, compressFormat_ok hf⟩

theorem smallest_error {p : Params} {a : BitVec 5} {n : Bool} {cand : List (BitVec 3)} {b : Bytes} {e : Raise}
    (h : smallest p a n cand b = .error e) : e.legal = true := by
  obtain ⟨-, e'⟩ | ⟨fs, -, -, e'⟩ | ⟨fs, c', -, -, e'⟩ := smallest_cases p a n cand b
  all_goals rw [e'] at h; cases h
  all_goals rfl

theorem deserialize_ok {p : Params} {b : Bytes} {c : Container} (h : deserialize p b = .ok c) :
    ∃ f, c.Made f := by
  obtain ⟨-, e⟩ | ⟨f, -, e⟩ := deserialize_cases p b
  · rw [e] at h; cases h
  · rw [e] at h; exact ⟨f, parseFormat_ok h⟩

theorem deserialize_error {p : Params} {b : Bytes} {e : Raise} (h : deserialize p b = .error e) :
    e.legal = true := by
  obtain ⟨-, e'⟩ | ⟨f, -, e'⟩ := deserialize_cases p b
  · rw [e'] at h; cases h; rfl
  · rw [e'] at h; exact parseFormat_error h

/-- A stream operation loads a command byte, applies its operation, or raises, and only inside a run. -/
theorem State.moves_onStream_apply {op : Op}
    (h : s.onStream (fun w => w.apply s.params.patternRange op) = .next t) : s.Moves t := by
  cases hw : s.work with
  | stream g w =>
    rw [State.onStream_stream s hw] at h
    split at h
    · cases h; exact .applied g w _ op hw ‹_›
    · cases h
      rename_i c hc
      refine .raise _ _ (legal_of_streamCause ?_)
      obtain hc | hc := PxdWork.apply_error hc
      · exact .inl hc
      · exact .inr (.inl hc)
  | idle => simp [State.onStream, hw] at h
  | plan w => simp [State.onStream, hw] at h

theorem State.moves_cmdb {c : Byte} (h : exec (.cmdb c) s = .next t) : s.Moves t := by
  simp only [exec, execCmdb] at h
  cases hw : s.work with
  | stream g w =>
    rw [State.onStream_stream s hw] at h
    cases h
    exact .loaded g w c hw
  | idle => simp [State.onStream, hw] at h
  | plan w => simp [State.onStream, hw] at h

/-- Everything an instruction can do, where exec answers a next state. -/
theorem exec_moves {i : Instr} (h : exec i s = .next t) : s.Moves t := by
  cases hi : i.toOp with
  | some op =>
    have hop : i = op.toInstr := by cases i <;> cases hi <;> rfl
    rw [hop, exec_toInstr] at h
    exact State.moves_onStream_apply h
  | none =>
    cases i with
    | cmdb c => exact State.moves_cmdb h
    | copy b => cases hi
    | np0 l => cases hi
    | np1 l => cases hi
    | np2 l => cases hi
    | np3 l => cases hi
    | np4 l => cases hi
    | np5 l => cases hi
    | np6 l => cases hi
    | np7 l => cases hi
    | np8 l => cases hi
    | seq o n => cases hi
    | pxc level order => exact State.moves_pxc level order h
    | pxd =>
      simp only [exec, execPxd] at h
      split at h <;> cases h
      · exact .raise _ _ rfl
      · exact State.moves_runStream _ _ _ fun h => h.src
    | matchAt4pn => cases h; exact State.moves_match _
    | matchAt3px => cases h; exact State.moves_match _
    | matchAt4px => cases h; exact State.moves_match _
    | matchAtupx => cases h; exact State.moves_match _
    | matchPkdpx => cases h; exact State.moves_match _
    | csizeAt4pn => cases h; exact State.moves_size fun _ => sizePlug_error
    | csizeAt3px => cases h; exact State.moves_size fun _ => sizeField_error
    | csizeAt4px => cases h; exact State.moves_size fun _ => sizeField_error
    | csizeAtupx => cases h; exact State.moves_size fun _ => sizeField_error
    | csizePkdpx => cases h; exact State.moves_size fun _ => sizeField_error
    | fdesAt4pn => cases h; exact State.moves_parse
    | fdesAt3px => cases h; exact State.moves_parse
    | fdesAt4px => cases h; exact State.moves_parse
    | fdesAtupx => cases h; exact State.moves_parse
    | fdesPkdpx => cases h; exact State.moves_parse
    | fcompAt4pn => cases h; exact State.moves_compress
    | fcompAt3px => cases h; exact State.moves_compress
    | fcompAt4px => cases h; exact State.moves_compress
    | fcompAtupx => cases h; exact State.moves_compress
    | fcompPkdpx => cases h; exact State.moves_compress
    | fser =>
      simp only [exec, execFser] at h
      split at h <;> cases h
      · exact .raise _ _ rfl
      · exact State.moves_bytes fun _ => serialize_error
    | fdec =>
      simp only [exec, execFdec] at h
      split at h <;> cases h
      · exact .raise _ _ rfl
      · exact State.moves_decompress ‹_›
    | allow f => cases h; exact .config (.allow f) _ _ rfl (.inl ⟨f, rfl⟩)
    | disallow f => cases h; exact .config (.disallow f) _ _ rfl (.inr (.inl ⟨f, rfl⟩))
    | setnative b => cases h; exact .config (.setnative b) _ _ rfl (.inr (.inr ⟨b, rfl⟩))
    | detect =>
      cases h
      refine .done _ ?_
      unfold detectResult
      split <;> exact State.yields_res _
    | ddes => cases h; exact State.moves_finishContainer (fun _ => deserialize_ok) fun _ => deserialize_error
    | dcomp => cases h; exact State.moves_finishContainer (fun _ => smallest_ok) fun _ => smallest_error

/-- Everything a step can do: wait, run the issued command or refuse its reserved word, go on planning, or go on
decoding. The state a command acts in is the one whose issue has been taken up. -/
theorem step_cases (h : step s = .next t) :
    (s.work = .idle ∧ s.issued = false ∧ t = s) ∨
    (s.work = .idle ∧ s.issued = true ∧ ∃ i, decodeCommand s.cw = .ok i ∧ exec i s.takeIssue = .next t ∧
      s.takeIssue.Moves t) ∨
    (s.work = .idle ∧ s.issued = true ∧ (∃ r, decodeCommand s.cw = .error r) ∧
      t = s.takeIssue.raise ⟨.illegalCommand, .reservedEncoding⟩ {}) ∨
    ((∃ w, s.work = .plan w ∧ t = s.planStep w) ∧ s.Moves t) ∨
    ((∃ g w, s.work = .stream g w ∧
      ((w.fetch = .finished ∧ t = s.finishStream g w.out) ∨
        (∃ c, w.fetch = .commandByte c ∧ exec (.cmdb c) s = .next t) ∨
        (∃ op : Op, w.fetch = .operation op ∧ exec op.toInstr s = .next t) ∨
        (w.fetch = .truncated ∧ t = s.raise ⟨.corruptContainer, .truncatedPayload⟩ {}))) ∧ s.Moves t) := by
  unfold step at h
  split at h
  · rename_i hw
    split at h
    · rename_i hi
      split at h
      · rename_i i hd
        exact .inr (.inl ⟨hw, hi, i, hd, h, exec_moves h⟩)
      · rename_i r hd
        cases h
        exact .inr (.inr (.inl ⟨hw, hi, ⟨r, hd⟩, by cases r <;> rfl⟩))
    · rename_i hi
      cases h
      exact .inl ⟨hw, by simpa using hi, rfl⟩
  · rename_i w hw
    cases h
    refine .inr (.inr (.inr (.inl ⟨⟨w, hw, rfl⟩, ?_⟩)))
    obtain ⟨w', hn, e⟩ | ⟨-, e⟩ := s.planStep_cases w
    · rw [e]; exact .planned w w' hw hn
    · rw [e]; exact State.moves_finishPlan w (.inr ⟨w, hw, rfl⟩)
  · rename_i g w hw
    refine .inr (.inr (.inr (.inr ?_)))
    split at h
    · rename_i hf
      cases h
      exact ⟨⟨g, w, hw, .inl ⟨hf, rfl⟩⟩, State.moves_finishStream g fun hc => (hc.work g w hw).2⟩
    · rename_i c hf
      exact ⟨⟨g, w, hw, .inr (.inl ⟨c, hf, h⟩)⟩, exec_moves h⟩
    · rename_i op hf
      exact ⟨⟨g, w, hw, .inr (.inr (.inl ⟨op, hf, h⟩))⟩, exec_moves h⟩
    · rename_i hf
      cases h
      exact ⟨⟨g, w, hw, .inr (.inr (.inr ⟨hf, rfl⟩))⟩, .raise _ _ rfl⟩

end Sys2Proof.Machine
end

