-- ==== Sys2Proof/Tests/Slice0.lean ====
section
/-! SUPPORT. Tests: ill-formed terms that WellFormed refuses, decoding of words written out from the spec's encodings,
one-step tests from 95_test_vectors.md (each names its vector), and for every statement with hypotheses a concrete
state and operands that meet them. -/

namespace Sys2Proof.Tests

open Sys2Proof.Machine

/-! ### Small states -/

/-- The table of flags 1 to 9, `F19` of 95_test_vectors.md. -/
def f19 : Cft := ⟨1, 2, 3, 4, 5, 6, 7, 8, 9⟩

/-- The table of flags 2 to 10 (V-C1). -/
def f210 : Cft := ⟨2, 3, 4, 5, 6, 7, 8, 9, 10⟩

/-- Ten bytes 41. -/
def tenA : Bytes := [0x41, 0x41, 0x41, 0x41, 0x41, 0x41, 0x41, 0x41, 0x41, 0x41]

/-- The payload of V-C1. -/
def payloadC1 : Bytes := [0xE0, 0x41, 0x41, 0x41, 0x0F, 0xFD, 0x1F, 0xFA]

/-- The AT4PX container of V-F2. -/
def at4pxF2 : Bytes :=
  [0x41, 0x54, 0x34, 0x50, 0x58, 0x1A, 0x00, 0x02, 0x03, 0x04, 0x05, 0x06, 0x07, 0x08, 0x09, 0x0A, 0x0A, 0x00] ++ payloadC1

/-- The AT3PX container of V-F2. -/
def at3pxF2 : Bytes :=
  [0x41, 0x54, 0x33, 0x50, 0x58, 0x18, 0x00, 0x02, 0x03, 0x04, 0x05, 0x06, 0x07, 0x08, 0x09, 0x0A] ++ payloadC1

/-- The PKDPX container of V-F2. -/
def pkdpxF2 : Bytes :=
  [0x50, 0x4B, 0x44, 0x50, 0x58, 0x1C, 0x00, 0x02, 0x03, 0x04, 0x05, 0x06, 0x07, 0x08, 0x09, 0x0A, 0x0A, 0x00, 0x00,
    0x00] ++ payloadC1

/-- The ATUPX container of V-F8. -/
def atupxF8 : Bytes := [0x41, 0x54, 0x55, 0x50, 0x58, 0x0D, 0x00, 0x05, 0x00, 0x00, 0x00, 0xAA, 0xBB]

/-- An empty container of each layout: the size field equals the header's length. -/
def emptyAt3px : Bytes := [0x41, 0x54, 0x33, 0x50, 0x58, 16, 0, 1, 2, 3, 4, 5, 6, 7, 8, 9]

def emptyAt4px : Bytes := [0x41, 0x54, 0x34, 0x50, 0x58, 18, 0, 1, 2, 3, 4, 5, 6, 7, 8, 9, 0, 0]

def emptyPkdpx : Bytes := [0x50, 0x4B, 0x44, 0x50, 0x58, 20, 0, 1, 2, 3, 4, 5, 6, 7, 8, 9, 0, 0, 0, 0]

def emptyAtupx : Bytes := [0x41, 0x54, 0x55, 0x50, 0x58, 11, 0, 0, 0, 0, 0]

/-- The containers of V-F2 as values of CT. -/
def ctAt3px : Container := .at3px 24 f210 (Memory.ofBytes payloadC1)

def ctAt4px : Container := .at4px 26 f210 10 (Memory.ofBytes payloadC1)

def ctPkdpx : Container := .pkdpx 28 f210 10 (Memory.ofBytes payloadC1)

/-- The container of V-F8. -/
def ctAtupx : Container := .atupx 13 5 (Memory.ofBytes [0xAA, 0xBB])

/-- Reset, then SRC written. -/
def withSrc (l : Bytes) : State := State.reset.hostWriteSrc l

/-- Reset under other parameters, then SRC written. -/
def withParams (p : Params) (l : Bytes) : State := (State.resetWith p).hostWriteSrc l

/-- The state after the step that runs the command word `cw` issued at `s`. -/
def after (s : State) (cw : BitVec 16) : Option State := nextState (step (s.hostIssue cw))

/-- The bytes of DST. -/
def dstOf (o : Option State) : Option Bytes := (o.bind State.dst).map Memory.bytes

/-- The value of CT. -/
def ctOf (o : Option State) : Option Container := o.bind (fun s => s.ct.value)

/-- RES. -/
def resOf (o : Option State) : Option (BitVec 32) := o.bind State.res

/-- The kind and cause of the error. -/
def errOf (o : Option State) : Option (ErrKind × Cause) := o.map (fun s => (s.errKind, s.errCause))

/-- PXD's working state at the first operation of a block: command byte, OUT so far, remaining payload. -/
def opWork (t : Cft) (c : Byte) (out rest : Bytes) : PxdWork where
  payload := Memory.ofBytes rest
  flags := t
  pc := 0
  cmdb := some c
  k := 0
  out := Memory.ofBytes out

/-- A run of PXD at that point. -/
def atOp (t : Cft) (c : Byte) (out rest : Bytes) : State := State.reset.setWork (.stream .pxd (opWork t c out rest))

/-- OUT of the run a step goes on with. -/
def outOf (o : Option State) : Option Bytes :=
  o.bind fun s =>
    match s.work with
    | .stream _ w => some w.out.bytes
    | .idle => none
    | .plan _ => none

/-- The codec of V-F8 (identity) on the bytes it is asked about. -/
def identityExt : ExtCodec where
  compressGraph := [([0xAA, 0xBB, 0xCC], some [0xAA, 0xBB, 0xCC]), ([1], none)]
  decompressGraph := [(([0xAA, 0xBB, 0xCC], 3), some [0xAA, 0xBB, 0xCC]), (([0xAA, 0xBB], 5), none)]

/-- A plug-in of one-byte magic 50 with known values on small arguments. -/
def smallPlug : PlugIn where
  magicHead := 0x50
  containerSizeGraph := [(([0x50, 1], 0), some 2), (([0x50, 2], 0), none)]
  decodeGraph := [(([0x50, 1], 0), some [7]), (([0x50, 2], 0), none)]
  serializeGraph := [([7], [0x50, 1])]
  compressGraph := [([9], some [7]), ([8], none)]
  decompressGraph := [([7], some [9]), ([6], none)]

def extParams : Params := { ext := some identityExt }

def plugParams : Params := { plug := some smallPlug }

def smallSteps : Params := { granularity := .operation }

/-! ### WellFormed refuses -/

theorem test_wf_offset_too_low : Instr.wf f19 (.seq (-4097) 3) = false := by decide

theorem test_wf_offset_too_high : Instr.wf f19 (.seq 0 3) = false := by decide

theorem test_wf_length_too_low : Instr.wf f19 (.seq (-1) 2) = false := by decide

theorem test_wf_length_too_high : Instr.wf f19 (.seq (-1) 19) = false := by decide

theorem test_wf_flag_not_nibble : Instr.wf ⟨0x13, 2, 3, 4, 5, 6, 7, 8, 9⟩ (.np0 3) = false := by decide

theorem test_wf_flag_not_least : Instr.wf ⟨3, 3, 4, 5, 6, 7, 8, 9, 10⟩ (.np1 5) = false := by decide

theorem test_wf_length_code_in_table : Instr.wf f19 (.seq (-3) 4) = false := by decide

theorem test_wf_table_nibbles : Cft.wf ⟨16, 2, 3, 4, 5, 6, 7, 8, 9⟩ = false := by decide

theorem test_wf_table_distinct : Cft.wf ⟨3, 3, 4, 5, 6, 7, 8, 9, 10⟩ = false := by decide

/-! ### Decoding words written out from the spec's encodings -/

/-- 30_encoding.md R116, the codecs; V-E8. -/
theorem test_decode_codecs :
    decodeCommand 0x0103 = .ok (.pxc 3 .seqFirst) ∧ decodeCommand 0x0107 = .ok (.pxc 3 .nibFirst) ∧
      decodeCommand 0x0100 = .ok (.pxc 0 .seqFirst) ∧ decodeCommand 0x0200 = .ok .pxd := by decide

/-- R116, MATCH and CSIZE. -/
theorem test_decode_match_csize :
    decodeCommand 0x1000 = .ok .matchAt4pn ∧ decodeCommand 0x1001 = .ok .matchAt3px ∧
      decodeCommand 0x1002 = .ok .matchAt4px ∧ decodeCommand 0x1003 = .ok .matchAtupx ∧
      decodeCommand 0x1004 = .ok .matchPkdpx ∧ decodeCommand 0x1100 = .ok .csizeAt4pn ∧
      decodeCommand 0x1101 = .ok .csizeAt3px ∧ decodeCommand 0x1102 = .ok .csizeAt4px ∧
      decodeCommand 0x1103 = .ok .csizeAtupx ∧ decodeCommand 0x1104 = .ok .csizePkdpx := by decide

/-- R116, FDES, FCOMP, FSER and FDEC. -/
theorem test_decode_containers :
    decodeCommand 0x1200 = .ok .fdesAt4pn ∧ decodeCommand 0x1201 = .ok .fdesAt3px ∧
      decodeCommand 0x1202 = .ok .fdesAt4px ∧ decodeCommand 0x1203 = .ok .fdesAtupx ∧
      decodeCommand 0x1204 = .ok .fdesPkdpx ∧ decodeCommand 0x1300 = .ok .fcompAt4pn ∧
      decodeCommand 0x1301 = .ok .fcompAt3px ∧ decodeCommand 0x1302 = .ok .fcompAt4px ∧
      decodeCommand 0x1303 = .ok .fcompAtupx ∧ decodeCommand 0x1304 = .ok .fcompPkdpx ∧
      decodeCommand 0x1400 = .ok .fser ∧ decodeCommand 0x1500 = .ok .fdec := by decide

/-- R116, the dispatcher. -/
theorem test_decode_dispatcher :
    decodeCommand 0x2003 = .ok (.allow .atupx) ∧ decodeCommand 0x2100 = .ok (.disallow .at4pn) ∧
      decodeCommand 0x2200 = .ok (.setnative false) ∧ decodeCommand 0x2201 = .ok (.setnative true) ∧
      decodeCommand 0x2300 = .ok .detect ∧ decodeCommand 0x2400 = .ok .ddes ∧ decodeCommand 0x2500 = .ok .dcomp := by
  decide

/-- R119; the reserved words of V-E8, by name. -/
theorem test_decode_reserved :
    decodeCommand 0x0000 = .error .reservedOp ∧ decodeCommand 0x0108 = .error .reservedArgument ∧
      decodeCommand 0x0201 = .error .reservedArgument ∧ decodeCommand 0x1005 = .error .reservedFormat ∧
      decodeCommand 0x2202 = .error .reservedArgument ∧ decodeCommand 0x3000 = .error .reservedOp := by decide

/-- R95 to R100 under F19: COPY 7F, NP0 3 as 13, ..., NP8 0 as 90, SEQ -3,3 as 0F FD (V-E2, V-E3). -/
theorem test_decode_stream :
    decodeOp f19 true [0x7F] = .ok (.copyAsIs 0x7F) ∧ decodeOp f19 false [0x13] = .ok (.nibblePattern 0 3) ∧
      decodeOp f19 false [0x2E] = .ok (.nibblePattern 1 14) ∧ decodeOp f19 false [0x31] = .ok (.nibblePattern 2 1) ∧
      decodeOp f19 false [0x41] = .ok (.nibblePattern 3 1) ∧ decodeOp f19 false [0x51] = .ok (.nibblePattern 4 1) ∧
      decodeOp f19 false [0x62] = .ok (.nibblePattern 5 2) ∧ decodeOp f19 false [0x71] = .ok (.nibblePattern 6 1) ∧
      decodeOp f19 false [0x81] = .ok (.nibblePattern 7 1) ∧ decodeOp f19 false [0x90] = .ok (.nibblePattern 8 0) ∧
      decodeOp f19 false [0x0F, 0xFD] = .ok (.sequence (-3) 3) := by decide

/-- R97 to R99, the pairs of V-E2 that are decodable under tables without their high nibble. -/
theorem test_decode_sequences :
    decodeOp f19 false [0xFF, 0xFF] = .ok (.sequence (-1) 18) ∧ decodeOp f19 false [0xF0, 0x00] = .ok (.sequence (-4096) 18) ∧
      decodeOp f19 false [0x00, 0x00] = .ok (.sequence (-4096) 3) ∧ decodeOp f19 false [0xAF, 0xFE] = .ok (.sequence (-2) 13) ∧
      decodeOp f210 false [0x1F, 0xFA] = .ok (.sequence (-6) 4) := by decide

/-- R92, V-E1: the command bits of `E0` and the byte of `N, C, S`. -/
theorem test_command_byte :
    (List.range 8).map (commandBit 0xE0) = [true, true, true, false, false, false, false, false] ∧
      commandByte [.nibblePattern 0 1, .copyAsIs 0x22, .sequence (-3) 3] 0 = 0x40 := by decide

/-- R96, R97: the encoder on V-E2 and V-E3. -/
theorem test_encode_stream :
    encodeOp f19 (.sequence (-257) 10) = [0x7E, 0xFF] ∧ encodeOp f19 (.sequence (-69) 3) = [0x0F, 0xBB] ∧
      encodeOp f210 (.nibblePattern 0 3) = [0x23] ∧ encodeOp f19 (.nibblePattern 8 0) = [0x90] := by decide

/-- The opcode table's numbering: a 16-bit row is the command word, an 8-bit row a command byte. -/
theorem test_table_words :
    decodeTableWord 16 0x0105 = some (.pxc 1 .nibFirst) ∧ decodeTableWord 16 0x2500 = some .dcomp ∧
      decodeTableWord 16 0x1005 = none ∧ decodeTableWord 16 0x10000 = none ∧ decodeTableWord 8 0xE0 = some (.cmdb 0xE0) ∧
      decodeTableWord 8 0x100 = none := by decide

/-- `withFetchWord` makes the next step run exactly the word. -/
theorem test_fetch_word :
    nextState (step (State.reset.withFetchWord 16 0x2201)) =
        nextState (exec (.setnative true) (State.reset.hostIssue 0x2201).takeIssue) ∧
      nextState (step (State.reset.withFetchWord 8 0xE0)) =
        nextState (exec (.cmdb 0xE0) (State.reset.withFetchWord 8 0xE0)) := by decide

/-! ### PX stream operations, one step each -/

/-- CMDB: R172; program P1, step 0. -/
theorem test_cmdb :
    let s := State.reset.setWork (.stream .pxd (PxdWork.start (Memory.ofBytes [0x80, 0x7F]) f19))
    let w : PxdWork :=
      { payload := Memory.ofBytes [0x80, 0x7F], flags := f19, pc := 1, cmdb := some 0x80, k := 0, out := Memory.empty }
    (nextState (step s)).map State.work = some (.stream .pxd w) := by decide

/-- COPY: R175; program P1, step 1. -/
theorem test_copy : outOf (nextState (step (atOp f19 0x80 [0x41] [0x7F]))) = some [0x41, 0x7F] := by decide

/-- NP0: V-D6 and V-D12 (duplicate entries: index 0 wins). -/
theorem test_np0 : outOf (nextState (step (atOp f19 0 [] [0x15]))) = some [0x55, 0x55] := by decide

theorem test_np0_duplicate :
    outOf (nextState (step (atOp ⟨3, 3, 4, 5, 6, 7, 8, 9, 10⟩ 0 [] [0x35]))) = some [0x55, 0x55] := by decide

/-- NP1: V-D6; V-D7 out of range. -/
theorem test_np1 : outOf (nextState (step (atOp f19 0 [] [0x25]))) = some [0x56, 0x66] := by decide

theorem test_np1_range :
    errOf (nextState (step (atOp f19 0 [] [0x2F]))) = some (.corruptContainer, .patternRange) := by decide

/-- NP2: V-D6; V-D7 out of range. -/
theorem test_np2 : outOf (nextState (step (atOp f19 0 [] [0x35]))) = some [0x54, 0x55] := by decide

theorem test_np2_range :
    errOf (nextState (step (atOp f19 0 [] [0x30]))) = some (.corruptContainer, .patternRange) := by decide

/-- NP3: V-D6. -/
theorem test_np3 : outOf (nextState (step (atOp f19 0 [] [0x45]))) = some [0x55, 0x45] := by decide

/-- NP4: V-D6. -/
theorem test_np4 : outOf (nextState (step (atOp f19 0 [] [0x55]))) = some [0x55, 0x54] := by decide

/-- NP5: V-D6; V-D7 the edge `00 61`. -/
theorem test_np5 : outOf (nextState (step (atOp f19 0 [] [0x65]))) = some [0x54, 0x44] := by decide

theorem test_np5_edge : outOf (nextState (step (atOp f19 0 [] [0x61]))) = some [0x10, 0x00] := by decide

/-- NP6: V-D6; V-D7 with PATTERN_RANGE = WRAP. -/
theorem test_np6 : outOf (nextState (step (atOp f19 0 [] [0x75]))) = some [0x56, 0x55] := by decide

theorem test_np6_wrap :
    let s := (State.resetWith { patternRange := .wrap }).setWork (atOp f19 0 [] [0x7F]).work
    outOf (nextState (step s)) = some [0xF0, 0xFF] := by decide

/-- NP7: V-D6. -/
theorem test_np7 : outOf (nextState (step (atOp f19 0 [] [0x85]))) = some [0x55, 0x65] := by decide

/-- NP8: V-D6. -/
theorem test_np8 : outOf (nextState (step (atOp f19 0 [] [0x95]))) = some [0x55, 0x56] := by decide

/-- SEQ: V-D3, the overlapping copy with period 2; V-D8, the underflow. -/
theorem test_seq :
    outOf (nextState (step (atOp f19 0 [0xAB, 0xCD] [0xAF, 0xFE]))) =
      some [0xAB, 0xCD, 0xAB, 0xCD, 0xAB, 0xCD, 0xAB, 0xCD, 0xAB, 0xCD, 0xAB, 0xCD, 0xAB, 0xCD, 0xAB] := by decide

theorem test_seq_underflow :
    errOf (nextState (step (atOp f19 0 [0x41] [0x0F, 0xFE]))) = some (.corruptContainer, .backrefUnderflow) := by decide

/-! ### Codecs -/

/-- PXC: V-C1 at level 3; V-C9 with NIB_FIRST. -/
theorem test_pxc :
    let o := after (withSrc tenA) 0x0103
    dstOf o = some payloadC1 ∧ o.bind (fun s => s.cft.value) = some f210 := by decide

theorem test_pxc_nibFirst :
    dstOf (after (withSrc [0x11, 0x11, 0x22, 0x11, 0x11, 0x22]) 0x0107) = some [0x50, 0x11, 0x22, 0x11, 0x22] := by decide

/-- PXD: V-D15; V-D14 under a wrong table. -/
theorem test_pxd :
    dstOf (after ((withSrc [0xA0, 0x48, 0x10, 0x69, 0xFF, 0xFE]).hostWriteCft f19) 0x0200) =
      some [0x48, 0, 0, 0x69, 0, 0x69, 0, 0x69, 0, 0x69, 0, 0x69, 0, 0x69, 0, 0x69, 0, 0x69, 0, 0x69, 0, 0x69] := by decide

theorem test_pxd_wrong_table :
    errOf (after ((withSrc payloadC1).hostWriteCft f19) 0x0200) = some (.corruptContainer, .truncatedPayload) := by decide

/-! ### Container formats -/

/-- MATCH: V-F1 and V-F9. -/
theorem test_matchAt4pn : resOf (after (withSrc [0x50, 1]) 0x1000) = some 0 := by decide

theorem test_matchAt4pn_plug : resOf (after (withParams plugParams [0x50, 1]) 0x1000) = some 1 := by decide

theorem test_matchAt3px : resOf (after (withSrc [0x41, 0x54, 0x33, 0x50, 0x58]) 0x1001) = some 1 := by decide

theorem test_matchAt3px_short : resOf (after (withSrc [0x41, 0x54, 0x33, 0x50]) 0x1001) = some 0 := by decide

theorem test_matchAt4px_offset :
    resOf (after ((withSrc [0, 0x41, 0x54, 0x34, 0x50, 0x58]).hostWriteOffset 1) 0x1002) = some 1 := by decide

theorem test_matchAt4px_outside :
    resOf (after ((withSrc [0, 0x41, 0x54, 0x34, 0x50, 0x58]).hostWriteOffset 100) 0x1002) = some 0 := by decide

theorem test_matchAtupx : resOf (after (withSrc atupxF8) 0x1003) = some 1 := by decide

theorem test_matchPkdpx : resOf (after (withSrc pkdpxF2) 0x1004) = some 1 := by decide

/-- CSIZE: V-F5 and V-F9. -/
theorem test_csizeAt4pn : errOf (after (withSrc at4pxF2) 0x1100) = some (.corruptContainer, .magicMismatch) := by decide

theorem test_csizeAt4pn_plug : resOf (after (withParams plugParams [0x50, 1]) 0x1100) = some 2 := by decide

theorem test_csizeAt3px : resOf (after (withSrc [0x41, 0x54, 0x33, 0x50, 0x58, 5, 0]) 0x1101) = some 5 := by decide

theorem test_csizeAt3px_short :
    errOf (after (withSrc [0x41, 0x54, 0x33, 0x50, 0x58, 0x18]) 0x1101) = some (.corruptContainer, .truncatedHeader) := by
  decide

theorem test_csizeAt4px : resOf (after (withSrc at4pxF2) 0x1102) = some 26 := by decide

theorem test_csizeAt4px_magic :
    errOf (after (withSrc at3pxF2) 0x1102) = some (.corruptContainer, .magicMismatch) := by decide

theorem test_csizeAtupx : resOf (after (withSrc atupxF8) 0x1103) = some 13 := by decide

theorem test_csizePkdpx : resOf (after (withSrc pkdpxF2) 0x1104) = some 28 := by decide

/-- FDES: V-F2 read back, V-F6 and V-F8. -/
theorem test_fdesAt4pn : errOf (after (withSrc at4pxF2) 0x1200) = some (.corruptContainer, .magicMismatch) := by decide

theorem test_fdesAt4pn_plug : ctOf (after (withParams plugParams [0x50, 1]) 0x1200) = some (.at4pn [7]) := by decide

theorem test_fdesAt3px : ctOf (after (withSrc at3pxF2) 0x1201) = some ctAt3px := by decide

/-- V-F7: an embedded container, read at its offset. -/
theorem test_fdesAt4px :
    ctOf (after ((withSrc ([0, 0, 0] ++ at4pxF2 ++ [0xEE, 0xEE])).hostWriteOffset 3) 0x1202) = some ctAt4px := by decide

/-- V-F6: only the first ten bytes are there. -/
theorem test_fdesAt4px_short :
    errOf (after (withSrc (at4pxF2.take 10)) 0x1202) = some (.corruptContainer, .truncatedHeader) := by decide

theorem test_fdesAtupx : ctOf (after (withSrc atupxF8) 0x1203) = some ctAtupx := by decide

theorem test_fdesPkdpx : ctOf (after (withSrc pkdpxF2) 0x1204) = some ctPkdpx := by decide

/-- FCOMP: V-F2, V-F8 and V-F9. -/
theorem test_fcompAt4pn : errOf (after (withSrc tenA) 0x1300) = some (.noUsableCompression, .codecAbsent) := by decide

theorem test_fcompAt4pn_plug : ctOf (after (withParams plugParams [9]) 0x1300) = some (.at4pn [7]) := by decide

theorem test_fcompAt3px : ctOf (after (withSrc tenA) 0x1301) = some ctAt3px := by decide

theorem test_fcompAt4px : ctOf (after (withSrc tenA) 0x1302) = some ctAt4px := by decide

theorem test_fcompAtupx : errOf (after (withSrc tenA) 0x1303) = some (.noUsableCompression, .codecAbsent) := by decide

theorem test_fcompAtupx_ext :
    ctOf (after (withParams extParams [0xAA, 0xBB, 0xCC]) 0x1303) =
      some (.atupx 14 3 (Memory.ofBytes [0xAA, 0xBB, 0xCC])) := by decide

theorem test_fcompPkdpx : ctOf (after (withSrc tenA) 0x1304) = some ctPkdpx := by decide

/-- FSER: V-F2 (program P5, step 2); a HOST-made CT whose size is wrong (10_state.md R27). -/
theorem test_fser : dstOf (after (State.reset.hostWriteCt ctAt4px) 0x1400) = some at4pxF2 := by decide

theorem test_fser_badContainer :
    errOf (after (State.reset.hostWriteCt (.at3px 23 f210 (Memory.ofBytes payloadC1))) 0x1400) =
      some (.illegalCommand, .badContainer) := by decide

/-- FDEC: program P5, step 4; V-F6, declared length 11. -/
theorem test_fdec : dstOf (after (State.reset.hostWriteCt ctAt4px) 0x1500) = some tenA := by decide

theorem test_fdec_sizeMismatch :
    errOf (after (State.reset.hostWriteCt (.at4px 26 f210 11 (Memory.ofBytes payloadC1))) 0x1500) =
      some (.corruptContainer, .sizeMismatch) := by decide

/-! ### The dispatcher -/

/-- ALLOW and DISALLOW: V-X1. -/
theorem test_allow : (after State.reset 0x2003).map State.cfgAllowed = some 0x1F := by decide

theorem test_allow_reserved : errOf (after State.reset 0x2005) = some (.illegalCommand, .reservedEncoding) := by decide

theorem test_disallow : (after State.reset 0x2101).map State.cfgAllowed = some 0x15 := by decide

/-- SETNATIVE: 43_dispatcher.md R253. -/
theorem test_setnative : (after State.reset 0x2201).map State.cfgNative = some true := by decide

/-- DETECT: V-X2. -/
theorem test_detect : resOf (after (withSrc atupxF8) 0x2300) = some 3 := by decide

theorem test_detect_none : resOf (after (withSrc [0, 1, 2]) 0x2300) = some 7 := by decide

/-- DDES: V-X3. -/
theorem test_ddes : ctOf (after (withSrc at4pxF2) 0x2400) = some ctAt4px := by decide

theorem test_ddes_none : errOf (after (withSrc [0, 1, 2]) 0x2400) = some (.unrecognizedContainer, .none) := by decide

/-- DCOMP: V-X4 with BEST_4, and the list [3] whose format is not permitted. -/
theorem test_dcomp : ctOf (after ((withSrc tenA).hostWriteCand best4) 0x2500) = some ctAt4px := by decide

theorem test_dcomp_none :
    errOf (after ((withSrc tenA).hostWriteCand [3]) 0x2500) = some (.noUsableCompression, .none) := by decide

/-! ### Witnesses: states and operands that meet the hypotheses of the statements, clause by clause -/

/-- Compressed sizes at their bounds need long inputs; only their lengths matter. -/
theorem len_withParams (p : Params) (n : Nat) : (withParams p (List.replicate n 0)).src.len = n := by
  simp [withParams, State.hostWriteSrc]

theorem length_withParams (p : Params) (n : Nat) : (withParams p (List.replicate n 0)).src.bytes.length = n := by
  simp [withParams, State.hostWriteSrc]

theorem witness_StepRunsTheIssuedCommand :
    let s := State.reset.hostIssue 0x2300
    s.work = .idle ∧ s.issued = true ∧ decodeCommand s.cw = .ok .detect ∧
      State.reset.work = .idle ∧ State.reset.issued = false := by decide

theorem witness_StepRunsTheFetchedElement :
    let w := PxdWork.start (Memory.ofBytes [0x80, 0x7F]) f19
    let w1 := opWork f19 0x80 [] [0x7F]
    (State.reset.setWork (.stream .pxd w)).work = .stream .pxd w ∧ w.cmdb = none ∧ w.rest = 0x80 :: [0x7F] ∧
      (atOp f19 0x80 [] [0x7F]).work = .stream .pxd w1 ∧ w1.cmdb = some 0x80 ∧
      decodeOp w1.flags (commandBit 0x80 w1.k.val) w1.rest = .ok (.copyAsIs 0x7F) ∧
      (atOp f19 0x80 [1] []).work = .stream .pxd (opWork f19 0x80 [1] []) ∧ (opWork f19 0x80 [1] []).rest = [] := by
  decide

theorem witness_ReservedCommandWordsAreRefused :
    let s := State.reset.hostIssue 0x1005
    s.work = .idle ∧ s.issued = true ∧ legalCommandWord s.cw.toNat = false ∧ legalCommandWord 0x1004 = true ∧
      legalCommandWord 0x0107 = true ∧ legalCommandWord 0x0108 = false ∧ legalCommandWord 0x00FF = false ∧
      (∃ v ∈ (State.reset.hostWriteCand [4, 5]).cmdCand, 5 ≤ v.toNat) ∧
      ∃ v ∈ (State.reset.hostWriteCand [7]).cmdCand, 5 ≤ v.toNat := by decide

theorem witness_DoneWritesOnlyTheResults :
    let r : Results := { ct := some ctAt4px, cft := some f19 }
    let h := (State.reset.hostWriteCt ctAt3px).hostWriteCft f210
    let e := { h with ct := .byEngine ctAt3px, cft := .byEngine f210 }
    r.ct = some ctAt4px ∧ r.cft = some f19 ∧ (Results.ct {}) = none ∧ (Results.cft {}) = none ∧
      h.ct = .byHost ctAt3px ∧ h.cft = .byHost f210 ∧ (∀ c, e.ct ≠ .byHost c) ∧ ∀ c, e.cft ≠ .byHost c :=
  ⟨rfl, rfl, rfl, rfl, rfl, rfl, nofun, nofun⟩

theorem witness_RaiseAbandonsTheCommand :
    let h := (State.reset.hostWriteCt ctAt3px).hostWriteCft f210
    let e := { h with ct := .byEngine ctAt3px, cft := .byEngine f210 }
    ({ ct := true, cft := true } : Targets).ct = true ∧ ({ ct := true, cft := true } : Targets).cft = true ∧
      ({} : Targets).ct = false ∧ ({} : Targets).cft = false ∧ h.ct = .byHost ctAt3px ∧ h.cft = .byHost f210 ∧
      (∀ c, e.ct ≠ .byHost c) ∧ ∀ c, e.cft ≠ .byHost c :=
  ⟨rfl, rfl, rfl, rfl, rfl, rfl, nofun, nofun⟩

theorem witness_CommandByteOpensABlock :
    (atOp f19 0x80 [] [0x7F]).work = .stream .pxd (opWork f19 0x80 [] [0x7F]) := rfl

theorem witness_CopyAppendsItsByte :
    let w := opWork f19 0x80 [0x41] [0x7F]
    (atOp f19 0x80 [0x41] [0x7F]).work = .stream .pxd w ∧ w.cmdb = some 0x80 ∧ commandBit 0x80 w.k.val = true ∧
      w.rest = 0x7F :: [] := by decide

theorem witness_EqualPatternAppendsTwoBytes :
    let w := opWork f19 0 [] [0x1F]
    (atOp f19 0 [] [0x1F]).work = .stream .pxd w ∧ w.cmdb = some 0 ∧ commandBit 0 w.k.val = false ∧
      w.rest = 0x1F :: [] ∧ w.flags.get 0 = (hi4 0x1F).setWidth 8 ∧ lo4 0x1F = 15 := by decide

/-- Both ranges of the low nibble, at both ends. -/
theorem witness_NearEqualPatternsAppendTwoBytes :
    (atOp f19 0 [] [0x2E]).work = .stream .pxd (opWork f19 0 [] [0x2E]) ∧ (0#4).toNat ≤ 14 ∧ (14#4).toNat ≤ 14 ∧
      1 ≤ (1#4).toNat ∧ 1 ≤ (15#4).toNat := by decide

theorem witness_PatternOutOfRangeFaultsOrWraps :
    let wrap := (State.resetWith { patternRange := .wrap }).setWork (atOp f19 0 [] [0x2F]).work
    (atOp f19 0 [] [0x2F]).work = .stream .pxd (opWork f19 0 [] [0x2F]) ∧
      ((1 : Fin 9), 15#4) ∈ outOfRangePairs ∧ (atOp f19 0 [] [0x2F]).params.patternRange = .fault ∧
      ((1 : Fin 9), 14#4) ∉ outOfRangePairs ∧ ((8 : Fin 9), 15#4) ∈ outOfRangePairs ∧ wrap.work = .stream .pxd (opWork f19 0 [] [0x2F]) ∧
      wrap.params.patternRange = .wrap := by decide

/-- The source at the very first byte of OUT. -/
theorem witness_SequenceCopiesByteByByte :
    let w := opWork f19 0 [0x41] [0xFF, 0xFF]
    (atOp f19 0 [0x41] [0xFF, 0xFF]).work = .stream .pxd w ∧ w.out.wf ∧ (-1 : Int) ≤ -1 ∧
      0 ≤ (w.out.len : Int) + -1 := by decide

theorem witness_SequenceFaultsAreRaised :
    let w := opWork f19 0 [0x41] [0x0F]
    (atOp f19 0 [0x41] [0x0F]).work = .stream .pxd w ∧ (w.out.len : Int) + -2 < 0 ∧ w.cmdb = some 0 ∧
      commandBit 0 w.k.val = false ∧ w.rest = [0x0F] ∧ (∀ i, w.flags.get i ≠ (hi4 0x0F).setWidth 8) ∧
      (atOp f19 0 [] []).work = .stream .pxd (opWork f19 0 [] []) ∧ (opWork f19 0 [] []).out.len = 0 ∧
      (-1 : Int) ≤ -1 := by decide

theorem witness_PayloadBytesAreClassifiedByTheTable :
    (f19.get 0).toNat = (0x13 : Byte).toNat / 16 ∧ (f19.get 8).toNat = (0x95 : Byte).toNat / 16 ∧
      (∀ j < (8 : Fin 9), (f19.get j).toNat ≠ (0x95 : Byte).toNat / 16) ∧
      ∀ i, (f19.get i).toNat ≠ (0x0F : Byte).toNat / 16 := by decide

theorem witness_StreamOperationsChangeOnlyTheRun :
    let s := atOp f19 0 [1] [0x2F]
    let w := opWork f19 0 [1] [0x2F]
    (Instr.np1 15).toOp.isSome = true ∧ s.work = .stream .pxd w ∧ w.out.wf ∧
      exec (.np1 15) s = .next (s.raise ⟨.corruptContainer, .patternRange⟩ {}) ∧
      exec (.cmdb 7) s = .next (s.setWork (.stream .pxd (w.loadCommandByte 7))) ∧
      ∀ g w, State.reset.work ≠ .stream g w :=
  ⟨rfl, rfl, by decide, rfl, rfl, nofun⟩

/-- V-C13: 58254 bytes are the longest input whose bound is 65536. -/
theorem witness_PxcCompletes :
    (withParams {} (List.replicate 58254 0)).params.granularity = .command ∧
      packedBound (withParams {} (List.replicate 58254 0)).src.len ≤ 65536 := by
  rw [len_withParams]
  exact ⟨rfl, by decide⟩

/-- MAX_INPUT bytes start a small-step compression. -/
theorem witness_SmallStepCommandsStart :
    let s := withParams smallSteps (List.replicate 2147483647 0)
    s.params.granularity = .operation ∧ s.src.len ≤ 2147483647 ∧ (s.hostWriteCft f19).cft.value = some f19 ∧
      (s.hostWriteCt ctAt3px).ct.value = some ctAt3px ∧ (s.hostWriteCt ctAt4px).ct.value = some ctAt4px ∧
      (s.hostWriteCt ctPkdpx).ct.value = some ctPkdpx :=
  ⟨rfl, by rw [len_withParams], rfl, rfl, rfl, rfl⟩

theorem witness_PxcFollowsItsRule :
    2147483647 < (withParams {} (List.replicate 2147483648 0)).src.len ∧
      (withParams {} (List.replicate 2147483647 0)).src.len ≤ 2147483647 ∧
      (withParams {} (List.replicate 2147483647 0)).params.granularity = .command ∧ [Op.copyAsIs 0x41] ≠ [] := by
  rw [len_withParams, len_withParams]
  exact ⟨by decide, by decide, rfl, nofun⟩

/-- V-C10 at level 0 and V-C11 at level 3. -/
theorem witness_PxcPayloadIsBounded :
    pxc .lowestNine 0 .seqFirst [0x30, 0x31, 0x32, 0x33, 0x34, 0x35, 0x36, 0x37, 0x38] =
        .ok ⟨f19, [0xFF, 0x30, 0x31, 0x32, 0x33, 0x34, 0x35, 0x36, 0x37, 0x80, 0x38]⟩ ∧
      pxc .lowestNine 3 .seqFirst [0x01, 0x23, 0x45, 0x67, 0x89, 0xAB, 0xCD, 0xEF, 0x02] =
        .ok ⟨f19, [0xFF, 0x01, 0x23, 0x45, 0x67, 0x89, 0xAB, 0xCD, 0xEF, 0x80, 0x02]⟩ := by decide

/-- V-C9 at cursor 3 (sequence and pattern), V-C12 at cursors 3 (sequence only) and 0 (neither). -/
theorem witness_PlanningFollowsThePriorityOrder :
    let c9 : Bytes := [0x11, 0x11, 0x22, 0x11, 0x11, 0x22]
    let c12 : Bytes := [0x61, 0x62, 0x63, 0x61, 0x62, 0x63]
    findSequence c9 3 [0, 15] = some (.sequence (-3) 3, [0, 15]) ∧
      planPattern 3 (c9.drop 3) = some (.nibblePattern 0 1) ∧ findSequence c9 0 [0, 15] = none ∧
      planPattern 3 (c12.drop 3) = none ∧ findSequence c12 3 [0, 15] = some (.sequence (-3) 3, [0, 15]) ∧
      planPattern 3 (c12.drop 0) = none ∧ findSequence c12 0 [0, 15] = none ∧ ([0x61] : Bytes).length < 2 := by decide

/-- V-C8 at cursor 8: two equal runs, the first wins; no match at the ends. -/
theorem witness_MatchIsTheFirstOfTheLongest :
    let c8 : Bytes := [1, 2, 3, 9, 1, 2, 3, 8, 1, 2, 3]
    8 ≤ c8.length ∧ findMatch c8 8 = some ⟨3, 8⟩ ∧ (∀ j < 3, c8[4 + j]? = c8[8 + j]?) ∧ findMatch c8 0 = none ∧
      findMatch c8 11 = none := by decide

theorem witness_LengthsAreReservedOrShrunk :
    ReservedSet [0, 15] ∧ BitVec.ofNat 4 (3 - 3) ∈ [0#4, 15] ∧ BitVec.ofNat 4 (18 - 3) ∈ [0#4, 15] ∧
      BitVec.ofNat 4 (4 - 3) ∉ [0#4, 15] ∧ [0#4, 15].length < 7 ∧ ReservedSet [0, 2, 4, 6, 8, 10, 15] ∧
      BitVec.ofNat 4 (6 - 3) ∉ [0#4, 2, 4, 6, 8, 10, 15] ∧ ¬ [0#4, 2, 4, 6, 8, 10, 15].length < 7 :=
  ⟨⟨by decide, by decide, by decide, by decide⟩, by decide, by decide, by decide, by decide,
    ⟨by decide, by decide, by decide, by decide⟩, by decide, by decide⟩

theorem witness_PlannedOperationsAreInRange :
    (plan 3 .seqFirst tenA).ops =
        [.copyAsIs 0x41, .copyAsIs 0x41, .copyAsIs 0x41, .sequence (-3) 3, .sequence (-6) 4] ∧
      (plan 2 .seqFirst [0x12, 0x22]).ops = [.nibblePattern 1 1] := by decide

/-- V-C7's full set and the seed; values left out under each setting. -/
theorem witness_FlagsAvoidReservedLengths :
    [0#4, 2, 4, 6, 8, 10, 15].Pairwise (fun a b => a.toNat < b.toNat) ∧ [0#4, 2, 4, 6, 8, 10, 15].length ≤ 7 ∧
      [0#4, 15].Pairwise (fun a b => a.toNat < b.toNat) ∧ 10#4 ∉ [0#4, 15] ∧
      (10#4).setWidth 8 ∉ (buildFlags .lowestNine [0, 15]).entries ∧ 1#4 ∉ [0#4, 15] ∧
      (1#4).setWidth 8 ∉ (buildFlags .padReserved [0, 15]).entries := by decide

theorem witness_SmallStepPlanningEndsAsTheCommand : (withParams smallSteps tenA).issued = false := rfl

theorem witness_PxdCompletes :
    let s := (withSrc [0x80, 0x41, 0xFF, 0xFF]).hostWriteCft f19
    s.cft.value = some f19 ∧ s.params.granularity = .command ∧
      pxd .fault s.src f19 = .ok (Memory.ofBytes (List.replicate 19 0x41)) := by decide

/-- V-D8, V-D9, V-D7. -/
theorem witness_DecodingErrorsAreReported :
    let s := (withSrc [0x00, 0x0F, 0xFF]).hostWriteCft f19
    s.cft.value = some f19 ∧ s.params.granularity = .command ∧
      pxd s.params.patternRange s.src f19 = .error .backrefUnderflow ∧
      pxd .fault (Memory.ofBytes [0x80, 0x41, 0x0F]) f19 = .error .truncatedPayload ∧
      pxd .fault (Memory.ofBytes [0x00, 0x2F]) f19 = .error .patternRange ∧
      State.reset.cft = .none ∧ State.reset.ct = .none := by decide

theorem witness_PxdOutputIsBounded :
    pxd .fault (Memory.ofBytes [0x80, 0x41, 0xFF, 0xFF]) f19 = .ok (Memory.ofBytes (List.replicate 19 0x41)) := by decide

theorem witness_SmallStepDecodingEndsAsTheCommand : (withParams smallSteps payloadC1).issued = false := rfl

theorem witness_DecompressInvertsCompress : pxc .lowestNine 3 .seqFirst tenA = .ok ⟨f210, payloadC1⟩ := by decide

theorem witness_MatchAnswersWhetherTheMagicIsThere :
    State.reset.params.plug = none ∧ (withParams plugParams [0x50]).params.plug = some smallPlug := by decide

/-- Without the magic, with the magic and one size byte, with both. -/
theorem witness_SizeIsTheStoredField :
    let s6 := withSrc [0x41, 0x54, 0x33, 0x50, 0x58, 0x18]
    let s7 := withSrc [0x41, 0x54, 0x33, 0x50, 0x58, 5, 0]
    (Instr.csizeAt3px, magicAt3px) ∈ [(Instr.csizeAt3px, magicAt3px), (.csizeAt4px, magicAt4px),
        (.csizePkdpx, magicPkdpx), (.csizeAtupx, magicAtupx)] ∧
      ¬ ((withSrc [1, 2]).cmdOffset + 5 ≤ (withSrc [1, 2]).src.len) ∧
      s6.cmdOffset + 5 ≤ s6.src.len ∧ (s6.src.bytes.drop s6.cmdOffset).take 5 = magicAt3px ∧
      s6.src.len < s6.cmdOffset + 7 ∧ (s7.src.bytes.drop s7.cmdOffset).take 5 = magicAt3px ∧
      s7.src.bytes[s7.cmdOffset + 5]? = some 5 ∧ s7.src.bytes[s7.cmdOffset + 6]? = some 0 := by decide

theorem witness_PlugSizeAndParseForward :
    matchesFormat {} .at4pn [0x50, 1] 0 = false ∧ plugParams.plug = some smallPlug ∧
      matchesFormat plugParams .at4pn [0x50, 1] 0 = true ∧ matchesFormat plugParams .at4pn [0x50, 2] 0 = true ∧
      plugContainerSize smallPlug [0x50, 1] 0 = some 2 ∧ plugContainerSize smallPlug [0x50, 2] 0 = none ∧
      plugDecode smallPlug [0x50, 1] 0 = some [7] ∧ plugDecode smallPlug [0x50, 2] 0 = none := by decide

/-- The smallest container of each layout: size field, header and buffer of one length. -/
theorem witness_ParseTakesTheDeclaredFields :
    let size : Bytes → Nat := fun l => (l.getD 5 0).toNat + 256 * (l.getD 6 0).toNat
    emptyAt3px.take 5 = magicAt3px ∧ emptyAt3px.length = 16 ∧ size emptyAt3px = 16 ∧
      emptyAt4px.take 5 = magicAt4px ∧ emptyAt4px.length = 18 ∧ size emptyAt4px = 18 ∧
      emptyPkdpx.take 5 = magicPkdpx ∧ emptyPkdpx.length = 20 ∧ size emptyPkdpx = 20 ∧
      emptyAtupx.take 5 = magicAtupx ∧ emptyAtupx.length = 11 ∧ size emptyAtupx = 11 := by decide

/-- Each check of FDES.AT4PX failing by one byte. -/
theorem witness_ParseChecksInOrder :
    let short := withSrc (emptyAt4px.take 17)
    let low := withSrc ([0x41, 0x54, 0x34, 0x50, 0x58, 17, 0] ++ emptyAt4px.drop 7)
    let long := withSrc ([0x41, 0x54, 0x34, 0x50, 0x58, 19, 0] ++ emptyAt4px.drop 7)
    (Instr.fdesAt4px, magicAt4px, 18) ∈ [(Instr.fdesAt3px, magicAt3px, 16), (.fdesAt4px, magicAt4px, 18),
        (.fdesPkdpx, magicPkdpx, 20), (.fdesAtupx, magicAtupx, 11)] ∧
      ¬ ((withSrc at3pxF2).src.bytes.drop 0).take 5 = magicAt4px ∧
      5 ≤ short.src.len ∧ (short.src.bytes.drop 0).take 5 = magicAt4px ∧ short.src.len - 0 = 17 ∧
      (low.src.bytes.drop 0).take 5 = magicAt4px ∧ low.src.len = 18 ∧ (u16le low.src.bytes 5).toNat = 17 ∧
      (long.src.bytes.drop 0).take 5 = magicAt4px ∧ long.src.len = 18 ∧ (u16le long.src.bytes 5).toNat = 19 := by decide

theorem witness_PxContainersFollowPxc :
    (withParams {} (List.replicate 65535 0)).src.bytes.length ≤ 65535 ∧
      65535 < (withParams {} (List.replicate 65536 0)).src.bytes.length := by
  rw [length_withParams, length_withParams]
  decide

/-- The longest inputs whose bound fits, one for each format. -/
theorem witness_PxContainersComplete :
    packedBound (withParams {} (List.replicate 58239 0)).src.len + 16 ≤ 65535 ∧
      packedBound (withParams {} (List.replicate 58237 0)).src.len + 18 ≤ 65535 ∧
      packedBound (withParams {} (List.replicate 58235 0)).src.len + 20 ≤ 65535 := by
  rw [len_withParams, len_withParams, len_withParams]
  decide

/-- A codec that answers 65524 bytes for one input, the most a container can hold, and 65525 for another. -/
def longExt : ExtCodec where
  compressGraph := [([1], some (List.replicate 65524 0)), ([2], some (List.replicate 65525 0)), ([3], none)]

theorem witness_PlugInCompressionIsHeld :
    State.reset.params.ext = none ∧ (withParams { ext := some longExt } [1]).params.ext = some longExt ∧
      4294967295 < (withParams { ext := some longExt } (List.replicate 4294967296 0)).src.bytes.length ∧
      (withParams { ext := some longExt } [1]).src.bytes = [1] ∧ extCompress longExt [3] = none ∧
      extCompress longExt [2] = some (List.replicate 65525 0) ∧ 65535 < 11 + (List.replicate 65525 (0 : Byte)).length ∧
      extCompress longExt [1] = some (List.replicate 65524 0) ∧ 11 + (List.replicate 65524 (0 : Byte)).length ≤ 65535 ∧
      State.reset.params.plug = none ∧ (withParams plugParams [9]).params.plug = some smallPlug ∧
      plugCompress smallPlug [9] = some [7] ∧ plugCompress smallPlug [8] = none := by
  rw [length_withParams, List.length_replicate, List.length_replicate]
  exact ⟨rfl, rfl, by decide, by decide, rfl, rfl, by decide, rfl, by decide, rfl, rfl, by decide, by decide⟩

theorem witness_SerializeWritesTheWireOrder :
    let bad : Container := .at3px 15 f19 Memory.empty
    (State.reset.hostWriteCt bad).ct.value = some bad ∧ bad.consistent = false ∧
      (State.reset.hostWriteCt (.at3px 16 f19 Memory.empty)).ct.value = some (.at3px 16 f19 Memory.empty) ∧
      (16 : BitVec 16).toNat = 16 + Memory.empty.len ∧ (State.reset.hostWriteCt ctAt4px).ct.value = some ctAt4px ∧
      (26 : BitVec 16).toNat = 18 + (Memory.ofBytes payloadC1).len ∧
      (State.reset.hostWriteCt ctPkdpx).ct.value = some ctPkdpx ∧
      (28 : BitVec 16).toNat = 20 + (Memory.ofBytes payloadC1).len ∧
      (State.reset.hostWriteCt ctAtupx).ct.value = some ctAtupx ∧
      (13 : BitVec 16).toNat = 11 + (Memory.ofBytes [0xAA, 0xBB]).len := by decide

/-- V-F2 with each container; V-F6 with a payload cut to six bytes (10 declared) and one with no second byte. -/
theorem witness_PxContainersDecode :
    let m := Memory.ofBytes payloadC1
    (State.reset.hostWriteCt ctAt3px).ct.value = some (.at3px 24 f210 m) ∧
      (State.reset.hostWriteCt ctAt4px).ct.value = some (.at4px 26 f210 10 m) ∧
      (State.reset.hostWriteCt ctPkdpx).ct.value = some (.pkdpx 28 f210 10 m) ∧
      State.reset.params.granularity = .command ∧ pxd .fault m f210 = .ok (Memory.ofBytes tenA) ∧
      (Memory.ofBytes tenA).len = (10 : BitVec 16).toNat ∧
      pxd .fault (Memory.ofBytes (payloadC1.take 6)) f210 = .ok (Memory.ofBytes (tenA.take 6)) ∧
      (Memory.ofBytes (tenA.take 6)).len ≠ (10 : BitVec 16).toNat ∧
      pxd .fault (Memory.ofBytes (payloadC1.take 7)) f210 = .error .truncatedPayload := by decide

theorem witness_PlugInsSerializeAndDecode :
    (State.reset.hostWriteCt ctAtupx).ct.value = some (.atupx 13 5 (Memory.ofBytes [0xAA, 0xBB])) ∧
      State.reset.params.ext = none ∧ ((State.resetWith extParams).hostWriteCt ctAtupx).params.ext = some identityExt ∧
      extDecompress identityExt (Memory.ofBytes [0xAA, 0xBB]).bytes (5 : BitVec 32).toNat = none ∧
      extDecompress identityExt [0xAA, 0xBB, 0xCC] 3 = some [0xAA, 0xBB, 0xCC] ∧
      (State.reset.hostWriteCt (.at4pn [7])).ct.value = some (.at4pn [7]) ∧ State.reset.params.plug = none ∧
      (State.resetWith plugParams).params.plug = some smallPlug ∧ plugDecompress smallPlug [6] = none ∧
      plugDecompress smallPlug [7] = some [9] := by decide

theorem witness_ParseInvertsSerialize :
    ctAt4px.format ≠ .at4pn ∧ ctAt4px.canonical ∧ serialize {} ctAt4px = .ok at4pxF2 ∧
      (Container.atupx 11 0 Memory.empty).format ≠ .at4pn ∧ (Container.atupx 11 0 Memory.empty).canonical ∧
      serialize {} (.atupx 11 0 Memory.empty) = .ok emptyAtupx :=
  ⟨by decide, Memory.wf_ofBytes _, by decide, by decide, Memory.wf_empty, by decide⟩

theorem witness_ContainerRoundTrip :
    Format.at4px ∈ [Format.at3px, .at4px, .pkdpx] ∧ compressFormat {} .at4px tenA = .ok ctAt4px ∧
      matchesPlug {} at4pxF2 0 = false ∧ (State.reset.hostWriteCt ctAt4px).ct.value = some ctAt4px ∧
      (State.reset.hostWriteCt ctAt4px).params = { ({} : Params) with granularity := .command } := by decide

theorem witness_DetectAnswersTheFirstMatch :
    let hits : Bytes → Format → Bool := fun b f => matchesFormat {} f b 0
    [Format.at4pn, .at3px, .at4px, .atupx, .pkdpx] = [.at4pn, .at3px] ++ .at4px :: [.atupx, .pkdpx] ∧
      hits at4pxF2 .at4px = true ∧ (∀ g ∈ [Format.at4pn, .at3px], hits at4pxF2 g = false) ∧
      hits [0, 1, 2] .at4pn = false ∧ hits [0, 1, 2] .at3px = false ∧ hits [0, 1, 2] .at4px = false ∧
      hits [0, 1, 2] .atupx = false ∧ hits [0, 1, 2] .pkdpx = false := by decide

/-- V-X3. -/
theorem witness_DeserializeParsesTheDetectedFormat :
    let low := [0x41, 0x54, 0x34, 0x50, 0x58, 0x0A, 0x00] ++ at4pxF2.drop 7
    detectFormat {} [0, 1, 2] 0 = none ∧ detectFormat {} at4pxF2 0 = some .at4px ∧
      parseFormat {} .at4px at4pxF2 0 = .ok ctAt4px ∧ detectFormat {} low 0 = some .at4px ∧
      parseFormat {} .at4px low 0 = .error ⟨.corruptContainer, .truncatedHeader⟩ := by decide

/-- V-X4: `cand = [4, 2]`, and `cand = []` and `[3]` without a permitted candidate. -/
theorem witness_DcompKeepsTheSmallest :
    candidateFormats [4, 2] = some [.pkdpx, .at4px] ∧ permitted .none 0x17 false .at4px = true ∧
      compressFormat {} .at4px tenA = .ok ctAt4px ∧ compressFormat {} .pkdpx tenA = .ok ctPkdpx ∧
      candidateFormats [] = some [] ∧ candidateFormats [3] = some [.atupx] ∧
      permitted .none 0x17 false .atupx = false := by decide

theorem witness_PermittedFollowsTheGate :
    permitted .requiresNative 0x1F true .atupx = true ∧ Format.at3px ≠ .atupx ∧
      permitted .requiresNotNative 0x1F false .atupx = true ∧ permitted .none 0x17 true .atupx = false := by decide

/-- Operands at the ends of their ranges. -/
theorem witness_DecodeInvertsEncode :
    Instr.wf f19 (.seq (-4096) 18) = true ∧ Instr.wf f19 (.seq (-1) 3) = true ∧ Instr.wf f19 (.np0 0) = true ∧
      Instr.wf f19 (.np8 15) = true ∧ Instr.wf f19 (.copy 0xFF) = true ∧ Instr.wf f19 (.cmdb 0) = true ∧
      Instr.wf f19 (.pxc 3 .nibFirst) = true := by decide

theorem witness_EncodeInvertsDecode :
    decodeCommand 0x0107 = .ok (.pxc 3 .nibFirst) ∧ decodeOp f19 false [0x0F, 0xFD, 0x1F] = .ok (.sequence (-3) 3) ∧
      decodeOp f19 false [0x9F] = .ok (.nibblePattern 8 15) ∧ decodeOp f19 true [0] = .ok (.copyAsIs 0) := by decide

/-- A state of each kind that a step goes on from: a command issued, planning, and a run of PXD. -/
def issuedState : State := ((withSrc tenA).hostWriteCft f19).hostIssue 0x0103

def planningState : State := (withParams smallSteps tenA).setWork (.plan (PxcWork.start 3 .seqFirst))

def runningState : State :=
  ((withParams smallSteps [0x80, 0x7F]).hostWriteCft f19).setWork
    (.stream .pxd (PxdWork.start (Memory.ofBytes [0x80, 0x7F]) f19))

theorem witness_StepChangesConfigOnlyByItsCommands :
    (∃ t, step issuedState = .next t) ∧ issuedState.hostFits ∧
      (∀ f, decodeCommand issuedState.cw ≠ .ok (.allow f)) ∧ (∀ f, decodeCommand issuedState.cw ≠ .ok (.disallow f)) ∧
      ∀ b, decodeCommand issuedState.cw ≠ .ok (.setnative b) :=
  ⟨⟨_, rfl⟩, ⟨by decide, by decide, by decide, by decide⟩, nofun, nofun, nofun⟩

theorem witness_StepKeepsBuffersCanonical :
    runningState.canonical ∧ ∃ t, step runningState = .next t :=
  ⟨⟨by decide, nofun, nofun, fun _ _ h => by cases h; exact ⟨by decide, by decide⟩⟩, _, rfl⟩

/-- A state after an error, from which the next command runs (program P6, step 4). -/
def failedState : State :=
  ((withSrc tenA).hostWriteCand [1, 2, 4]).raise ⟨.noUsableCompression, .none⟩ { ct := true } |>.hostIssue 0x2500

theorem witness_StepKeepsErrorCodesLegal :
    failedState.errConsistent = true ∧ failedState.status = .error ∧ ∃ t, step failedState = .next t :=
  ⟨by decide, rfl, _, rfl⟩

theorem witness_StepKeepsNoPartialOutput :
    failedState.noPartialOutput ∧ failedState.status = .error ∧ ∃ t, step failedState = .next t :=
  ⟨⟨fun _ => rfl, fun _ => rfl, fun _ => nofun, fun _ => nofun⟩, rfl, _, rfl⟩

theorem witness_StepKeepsProductsWellMade :
    planningState.wellProduced ∧ ∃ t, step planningState = .next t :=
  ⟨⟨nofun, nofun, fun _ h => by cases h; exact ⟨by decide, by decide, by decide, by decide⟩⟩, _, rfl⟩

theorem witness_StepKeepsCursorsInside :
    runningState.cursorsInside ∧ planningState.cursorsInside ∧ (∃ t, step runningState = .next t) ∧
      ∃ t, step planningState = .next t :=
  ⟨⟨nofun, fun _ _ h => by cases h; exact Nat.zero_le _, fun _ _ h _ => by cases h; rfl⟩,
    ⟨fun _ h => by cases h; exact Nat.zero_le _, nofun, nofun⟩, ⟨_, rfl⟩, _, rfl⟩

theorem witness_ResetMeetsTheInvariants : 32 ≤ ({} : Params).lenw := by decide

end Sys2Proof.Tests
end

section
/-! SUPPORT. The classification of payload bytes: the command bits and nibbles as arithmetic on byte values, the
ControlFlagTable as a search for the least index, one equation of `decodeOp` for each outcome, and O15
(20_memory.md R64, 30_encoding.md R92, R100). -/

namespace Sys2Proof

/-! ### Bits and nibbles as numbers -/

/-- R64: MSB first, position `k` of a byte is the binary digit of weight `2 ^ (7 - k)`. -/
theorem commandBit_eq_decide (c : Byte) (k : Fin 8) :
    commandBit c k.val = decide (c.toNat / 2 ^ (7 - k.val) % 2 = 1) := by
  have hk : k.val < 8 := k.isLt
  calc commandBit c k.val
      = c.toNat.testBit (8 - 1 - k.val) := by simp [commandBit, BitVec.getMsbD, BitVec.getLsbD, hk]
    _ = decide (c.toNat / 2 ^ (7 - k.val) % 2 = 1) := Nat.testBit_eq_decide_div_mod_eq

@[simp] theorem toNat_hi4 (b : Byte) : (hi4 b).toNat = b.toNat / 16 := by
  have hb : b.toNat / 16 < 16 := by omega
  simp [hi4, Nat.shiftRight_eq_div_pow, Nat.mod_eq_of_lt hb]

@[simp] theorem toNat_lo4 (b : Byte) : (lo4 b).toNat = b.toNat % 16 := by
  simp [lo4]

theorem lo4_eq_ofNat (b : Byte) : lo4 b = BitVec.ofNat 4 (b.toNat % 16) := by
  rw [← toNat_lo4, BitVec.ofNat_toNat, BitVec.setWidth_eq]

/-- A table entry is compared with a high nibble as a whole byte, so an entry above 15 equals none (R190). -/
theorem eq_setWidth_hi4_iff (x b : Byte) : x = (hi4 b).setWidth 8 ↔ x.toNat = b.toNat / 16 := by
  rw [← BitVec.toNat_inj, BitVec.toNat_setWidth_of_le (by decide), toNat_hi4]

/-! ### The table as a search for the least index -/

/-- The nine comparisons of the model, in index order, are the library's search over `Fin 9`. -/
theorem Cft.find_eq_finFind (t : Cft) (h : Nibble) :
    t.find h = Fin.find? fun i => decide (t.get i = h.setWidth 8) := by
  simp only [Fin.find?_succ, decide_eq_true_eq, apply_ite (Option.map _)]
  rfl

theorem Cft.find_eq_some_iff {t : Cft} {h : Nibble} {i : Fin 9} :
    t.find h = some i ↔ t.get i = h.setWidth 8 ∧ ∀ j < i, t.get j ≠ h.setWidth 8 := by
  simp [Cft.find_eq_finFind]

theorem Cft.find_eq_none_iff {t : Cft} {h : Nibble} : t.find h = none ↔ ∀ i, t.get i ≠ h.setWidth 8 := by
  simp [Cft.find_eq_finFind]

/-! ### The outcomes of `decodeOp` under a command bit of 0 -/

theorem decodeOp_pattern {t : Cft} {b : Byte} {i : Fin 9} (h : t.find (hi4 b) = some i) (more : Bytes) :
    decodeOp t false (b :: more) = .ok (.nibblePattern i (lo4 b)) := by
  simp [decodeOp, h]

theorem decodeOp_sequence {t : Cft} {b : Byte} (h : t.find (hi4 b) = none) (nb : Byte) (rest : Bytes) :
    decodeOp t false (b :: nb :: rest) = .ok (.sequence (seqOffset (lo4 b) nb) (seqLength (hi4 b))) := by
  simp [decodeOp, h]

/-! ### The obligation -/

/-- Settles O15: the clause of each outcome of the table's search is the equation of `decodeOp` for it. -/
theorem payloadBytesAreClassifiedByTheTable : Obligations.PayloadBytesAreClassifiedByTheTable := by
  refine ⟨commandBit_eq_decide, fun t b more => ⟨Machine.decodeOp_literal t b more, ?pattern, ?sequence⟩⟩
  case pattern =>
    intro i hentry hleast
    have hfind : t.find (hi4 b) = some i :=
      Cft.find_eq_some_iff.mpr
        ⟨(eq_setWidth_hi4_iff _ b).mpr hentry, fun j hj => mt (eq_setWidth_hi4_iff _ b).mp (hleast j hj)⟩
    rw [decodeOp_pattern hfind, lo4_eq_ofNat]
  case sequence =>
    rintro hno nb rest rfl
    have hfind : t.find (hi4 b) = none :=
      Cft.find_eq_none_iff.mpr fun i => mt (eq_setWidth_hi4_iff _ b).mp (hno i)
    rw [decodeOp_sequence hfind, seqOffset, seqLength, toNat_lo4, toNat_hi4]

end Sys2Proof
end

section
/-! SUPPORT. The ReservedLengthSet: which entry a length is shrunk to, and O22 (40_px_compressor.md R138, R139). -/

namespace Sys2Proof.Machine

/-- R139: in an ascending set that has an entry with a smaller implied length, the scan stops at the least of them. -/
theorem shrink_eq_least {length : Nat} {l : List Nibble} (hasc : l.Pairwise (fun a b => a.toNat < b.toNat))
    (hsmall : ∃ e ∈ l, e.toNat + 3 < length) :
    ∃ e ∈ l, shrink length l = e.toNat + 3 ∧ e.toNat + 3 < length ∧
      ∀ e' ∈ l, e'.toNat < e.toNat → length ≤ e'.toNat + 3 := by
  induction l with
  | nil => simp at hsmall
  | cons a l ih =>
    obtain ⟨ha, hl⟩ := List.pairwise_cons.mp hasc
    by_cases hlt : a.toNat + 3 < length
    · have hnone : ∀ e' ∈ a :: l, ¬ e'.toNat < a.toNat := by
        rintro e' (_ | ⟨_, he'⟩)
        · exact Nat.lt_irrefl _
        · exact Nat.lt_asymm (ha e' he')
      exact ⟨a, List.mem_cons_self, by simp [shrink, hlt], hlt, fun e' he' h => absurd h (hnone e' he')⟩
    · obtain ⟨e, he, hshrink, hless, hleast⟩ := ih hl (by simpa [hlt] using hsmall)
      refine ⟨e, List.mem_cons_of_mem a he, by simpa [shrink, hlt] using hshrink, hless, ?_⟩
      rintro e' (_ | ⟨_, he'⟩) h
      · omega
      · exact hleast e' he' h

theorem ReservedSet.insertAscending {rls : List Nibble} (h : ReservedSet rls) {v : Nibble} (hv : v ∉ rls)
    (hsize : rls.length < 7) : ReservedSet (insertAscending v rls) where
  ascending := pairwise_insertAscending hv h.ascending
  size := by rw [length_insertAscending]; omega
  low := mem_insertAscending.mpr (.inr h.low)
  high := mem_insertAscending.mpr (.inr h.high)

/-- R140: the code of length 3 is always reserved, so a length without a reserved code is above 3. -/
theorem ReservedSet.three_lt {rls : List Nibble} (h : ReservedSet rls) {length : Nat} (hlen : 3 ≤ length)
    (hv : BitVec.ofNat 4 (length - 3) ∉ rls) : 3 < length := by
  refine Nat.lt_of_le_of_ne hlen ?_
  rintro rfl
  exact hv h.low

/-- Settles O22: the three clauses are the three outcomes of `reserve_or_shrink`. -/
theorem lengthsAreReservedOrShrunk : Obligations.LengthsAreReservedOrShrunk := by
  intro rls length hset hmin _hmax v r
  obtain ⟨hmem, heq⟩ | ⟨hnew, hroom, heq⟩ | ⟨hnew, hfull, heq⟩ := reserveOrShrink_cases rls length
  case inl =>
    exact ⟨fun _ => heq, fun h => absurd hmem h, fun h => absurd hmem h⟩
  case inr.inl =>
    refine ⟨fun h => absurd h hnew, fun _ _ => ?_, fun _ h => absurd hroom h⟩
    rw [show r = _ from heq]
    exact ⟨rfl, hset.insertAscending hnew hroom, fun e => mem_insertAscending⟩
  case inr.inr =>
    refine ⟨fun h => absurd h hnew, fun _ h => absurd h hfull, fun _ _ => ?_⟩
    rw [show r = _ from heq]
    obtain ⟨e, he, hshrink, hless, hleast⟩ :=
      shrink_eq_least hset.ascending ⟨0#4, hset.low, hset.three_lt hmin hnew⟩
    exact ⟨rfl, e, he, hshrink, by omega, hleast⟩

end Sys2Proof.Machine
end

section
/-! SUPPORT. The ControlFlagTable PXC builds: the complement of a set of nibbles, the padding of a set to seven members,
the nine entries of a table, and O24 (40_px_compressor.md R145). -/

namespace Sys2Proof.Machine

/-! ### The sixteen nibbles and the complement of a set -/

theorem mem_allNibbles (v : Nibble) : v ∈ allNibbles := by
  revert v
  decide

theorem pairwise_allNibbles : allNibbles.Pairwise (fun a b => a.toNat < b.toNat) := by decide

theorem nodup_of_pairwise_toNat {n : Nat} {l : List (BitVec n)} (h : l.Pairwise (fun a b => a.toNat < b.toNat)) :
    l.Nodup :=
  h.imp fun hlt heq => absurd (congrArg BitVec.toNat heq) (Nat.ne_of_lt hlt)

theorem mem_complement {v : Nibble} {set : List Nibble} : v ∈ complement set ↔ v ∉ set := by
  simp [complement, mem_allNibbles]

theorem pairwise_complement (set : List Nibble) : (complement set).Pairwise (fun a b => a.toNat < b.toNat) :=
  pairwise_allNibbles.filter _

theorem length_le_of_covers {l : List Nibble} (h : ∀ v, v ∈ l) : 16 ≤ l.length :=
  (nodup_of_pairwise_toNat pairwise_allNibbles).length_le_of_subset fun v _ => h v

/-- A set and its complement together hold every nibble. -/
theorem le_length_complement (set : List Nibble) : 16 ≤ (complement set).length + set.length := by
  rw [← List.length_append]
  refine length_le_of_covers fun v => List.mem_append.mpr ?_
  rw [mem_complement]
  exact (em (v ∈ set)).symm

/-- A set without repetitions and its complement share nothing and repeat nothing. -/
theorem length_complement_le {set : List Nibble} (h : set.Nodup) : (complement set).length + set.length ≤ 16 := by
  rw [← List.length_append]
  have hnodup : (complement set ++ set).Nodup :=
    (nodup_of_pairwise_toNat (pairwise_complement set)).append h fun v hv => mem_complement.mp hv
  exact hnodup.length_le_of_subset (l₂ := allNibbles) fun v _ => mem_allNibbles v

/-! ### Padding to seven members (PAD_RESERVED) -/

theorem padReserved_full {set : List Nibble} (h : ¬ set.length < 7) (vs : List Nibble) : padReserved vs set = set := by
  induction vs with
  | nil => rfl
  | cons v vs ih => simpa [padReserved, Config.maxReserved, h] using ih

/-- One turn of the padding adds the candidate to a set with room that does not hold it, or leaves the set as it is. -/
theorem padReserved_cons_cases (v : Nibble) (vs set : List Nibble) :
    (v ∉ set ∧ set.length < 7 ∧ padReserved (v :: vs) set = padReserved vs (insertAscending v set)) ∨
    (v ∈ set ∧ padReserved (v :: vs) set = padReserved vs set) ∨
    (¬ set.length < 7 ∧ padReserved (v :: vs) set = set) := by
  by_cases hroom : set.length < 7
  · by_cases hv : v ∈ set
    · exact .inr (.inl ⟨hv, by simp [padReserved, hv]⟩)
    · exact .inl ⟨hv, hroom, by simp [padReserved, Config.maxReserved, hv, hroom]⟩
  · exact .inr (.inr ⟨hroom, padReserved_full hroom _⟩)

theorem mem_padReserved {e : Nibble} {set : List Nibble} (he : e ∈ set) (vs : List Nibble) :
    e ∈ padReserved vs set := by
  induction vs generalizing set with
  | nil => exact he
  | cons v vs ih =>
    obtain ⟨-, -, heq⟩ | ⟨-, heq⟩ | ⟨-, heq⟩ := padReserved_cons_cases v vs set <;> rw [heq]
    · exact ih (mem_insertAscending.mpr (.inr he))
    · exact ih he
    · exact he

theorem pairwise_padReserved {set : List Nibble} (h : set.Pairwise (fun a b => a.toNat < b.toNat)) (vs : List Nibble) :
    (padReserved vs set).Pairwise (fun a b => a.toNat < b.toNat) := by
  induction vs generalizing set with
  | nil => exact h
  | cons v vs ih =>
    obtain ⟨hv, -, heq⟩ | ⟨-, heq⟩ | ⟨-, heq⟩ := padReserved_cons_cases v vs set <;> rw [heq]
    · exact ih (pairwise_insertAscending hv h)
    · exact ih h
    · exact h

theorem length_padReserved_le {set : List Nibble} (h : set.length ≤ 7) (vs : List Nibble) :
    (padReserved vs set).length ≤ 7 := by
  induction vs generalizing set with
  | nil => exact h
  | cons v vs ih =>
    obtain ⟨-, hroom, heq⟩ | ⟨-, heq⟩ | ⟨-, heq⟩ := padReserved_cons_cases v vs set <;> rw [heq]
    · exact ih (by rw [length_insertAscending]; omega)
    · exact ih h
    · exact h

/-- Padding takes every candidate, unless it ends with seven members. -/
theorem padReserved_takes (vs set : List Nibble) :
    (∀ v ∈ vs, v ∈ padReserved vs set) ∨ 7 ≤ (padReserved vs set).length := by
  induction vs generalizing set with
  | nil => exact .inl (by simp)
  | cons v vs ih =>
    obtain ⟨-, -, heq⟩ | ⟨hv, heq⟩ | ⟨hfull, heq⟩ := padReserved_cons_cases v vs set <;> rw [heq]
    · exact (ih _).imp_left fun h => List.forall_mem_cons.mpr
        ⟨mem_padReserved (mem_insertAscending.mpr (.inl rfl)) vs, h⟩
    · exact (ih _).imp_left fun h => List.forall_mem_cons.mpr ⟨mem_padReserved hv vs, h⟩
    · exact .inr (Nat.le_of_not_lt hfull)

/-- Candidates are taken in their order: one that is taken stands below every one that is left out. -/
theorem padReserved_lowest {vs set : List Nibble} (hasc : vs.Pairwise (fun a b => a.toNat < b.toNat)) {v e : Nibble}
    (hv : v ∉ set) (hpad : v ∈ padReserved vs set) (he : e ∈ vs) (hout : e ∉ padReserved vs set) :
    v.toNat < e.toNat := by
  induction vs generalizing set with
  | nil => simp at he
  | cons x vs ih =>
    obtain ⟨hx, hvs⟩ := List.pairwise_cons.mp hasc
    obtain ⟨-, -, heq⟩ | ⟨hmem, heq⟩ | ⟨-, heq⟩ := padReserved_cons_cases x vs set <;> rw [heq] at hpad hout
    · have hxpad : x ∈ padReserved vs (insertAscending x set) := mem_padReserved (mem_insertAscending.mpr (.inl rfl)) vs
      have hevs : e ∈ vs := (List.mem_cons.mp he).resolve_left fun h => hout (h ▸ hxpad)
      by_cases hvx : v = x
      · exact hvx ▸ hx e hevs
      · exact ih hvs (by simp [hvx, hv]) hpad hevs hout
    · have hevs : e ∈ vs := (List.mem_cons.mp he).resolve_left fun h => hout (h ▸ mem_padReserved hmem vs)
      exact ih hvs hv hpad hevs hout
    · exact absurd hpad hv

/-- Padded over all sixteen nibbles, a set of at most seven has exactly seven members. -/
theorem length_padReserved {set : List Nibble} (h : set.length ≤ 7) : (padReserved allNibbles set).length = 7 := by
  refine Nat.le_antisymm (length_padReserved_le h _) ?_
  obtain hall | hseven := padReserved_takes allNibbles set
  · exact Nat.le_trans (by decide) (length_le_of_covers fun v => hall v (mem_allNibbles v))
  · exact hseven

/-! ### The nine entries -/

theorem entries_tableOfNibbles {l : List Nibble} (h : 9 ≤ l.length) :
    (tableOfNibbles l).entries = (l.take 9).map (fun v => v.setWidth 8) := by
  apply List.ext_getElem (by simp; omega)
  intro i hi _
  have hentries : (tableOfNibbles l).entries = (List.range 9).map (fun i => (l.getD i 0#4).setWidth 8) := rfl
  have hil : i < l.length := by simp at hi; omega
  simp [hentries, hil]

theorem toNat_setWidth_nibble (v : Nibble) : (v.setWidth 8).toNat = v.toNat :=
  BitVec.toNat_setWidth_of_le (by decide)

theorem setWidth_mem_entries {l : List Nibble} (h : 9 ≤ l.length) {v : Nibble} :
    v.setWidth 8 ∈ (tableOfNibbles l).entries ↔ v ∈ l.take 9 := by
  rw [entries_tableOfNibbles h, List.mem_map_of_injective]
  intro a b hab
  rwa [← BitVec.toNat_inj, toNat_setWidth_nibble, toNat_setWidth_nibble, BitVec.toNat_inj] at hab

/-- A table made of ascending nibbles is ascending, so its entries are nibbles and distinct (10_state.md R34). -/
theorem pairwise_entries {l : List Nibble} (h : 9 ≤ l.length) (hasc : l.Pairwise (fun a b => a.toNat < b.toNat)) :
    (tableOfNibbles l).entries.Pairwise (fun a b => a.toNat < b.toNat) := by
  rw [entries_tableOfNibbles h, List.pairwise_map]
  simpa only [toNat_setWidth_nibble] using hasc.take

theorem wf_tableOfNibbles {l : List Nibble} (h : 9 ≤ l.length) (hasc : l.Pairwise (fun a b => a.toNat < b.toNat)) :
    (tableOfNibbles l).wf = true := by
  have hnodup : (tableOfNibbles l).entries.Nodup := nodup_of_pairwise_toNat (pairwise_entries h hasc)
  have hnibble : ∀ e ∈ (tableOfNibbles l).entries, e.toNat < 16 := by
    rw [entries_tableOfNibbles h, List.forall_mem_map]
    intro v _
    rw [toNat_setWidth_nibble]
    exact v.isLt
  simpa [Cft.wf, hnodup] using hnibble

/-! ### The table of a set -/

/-- The set a table leaves out under `FLAG_FILL`: LOWEST_NINE starts from the ReservedLengthSet itself, PAD_RESERVED
from the set padded to seven. -/
def reservedFor (fill : FlagFill) (rls : List Nibble) : List Nibble :=
  match fill with
  | .lowestNine => rls
  | .padReserved => padReserved allNibbles rls

theorem buildFlags_eq (fill : FlagFill) (rls : List Nibble) :
    buildFlags fill rls = tableOfNibbles (complement (reservedFor fill rls)) := by
  cases fill <;> rfl

theorem mem_reservedFor {rls : List Nibble} {v : Nibble} (h : v ∈ rls) (fill : FlagFill) :
    v ∈ reservedFor fill rls := by
  cases fill with
  | lowestNine => exact h
  | padReserved => exact mem_padReserved h _

theorem length_reservedFor_le {rls : List Nibble} (h : rls.length ≤ 7) (fill : FlagFill) :
    (reservedFor fill rls).length ≤ 7 := by
  cases fill with
  | lowestNine => exact h
  | padReserved => exact Nat.le_of_eq (length_padReserved h)

theorem nine_le_length_complement {rls : List Nibble} (h : rls.length ≤ 7) (fill : FlagFill) :
    9 ≤ (complement (reservedFor fill rls)).length := by
  have hset := length_reservedFor_le h fill
  have hall := le_length_complement (reservedFor fill rls)
  omega

/-- A nibble in the table is one of the first nine outside the set that the table leaves out. -/
theorem setWidth_mem_buildFlags {rls : List Nibble} (h : rls.length ≤ 7) {fill : FlagFill} {v : Nibble} :
    v.setWidth 8 ∈ (buildFlags fill rls).entries ↔ v ∈ (complement (reservedFor fill rls)).take 9 := by
  rw [buildFlags_eq, setWidth_mem_entries (nine_le_length_complement h fill)]

theorem forall_mem_buildFlags {rls : List Nibble} (h : rls.length ≤ 7) {fill : FlagFill} {p : Byte → Prop} :
    (∀ e ∈ (buildFlags fill rls).entries, p e) ↔
      ∀ v ∈ (complement (reservedFor fill rls)).take 9, p (v.setWidth 8) := by
  rw [buildFlags_eq, entries_tableOfNibbles (nine_le_length_complement h fill), List.forall_mem_map]

theorem pairwise_buildFlags {rls : List Nibble} (h : rls.length ≤ 7) (fill : FlagFill) :
    (buildFlags fill rls).entries.Pairwise (fun a b => a.toNat < b.toNat) := by
  rw [buildFlags_eq]
  exact pairwise_entries (nine_le_length_complement h fill) (pairwise_complement _)

/-- The table PXC builds has nine distinct nibbles (10_state.md R34, R40). -/
theorem wf_buildFlags {rls : List Nibble} (h : rls.length ≤ 7) (fill : FlagFill) : (buildFlags fill rls).wf = true := by
  rw [buildFlags_eq]
  exact wf_tableOfNibbles (nine_le_length_complement h fill) (pairwise_complement _)

/-- No flag is a reserved length code, so a Sequence under the table reads back as one (R145, R190). -/
theorem reserved_notMem_buildFlags {rls : List Nibble} (h : rls.length ≤ 7) {v : Nibble} (hv : v ∈ rls)
    (fill : FlagFill) : v.setWidth 8 ∉ (buildFlags fill rls).entries := by
  rw [setWidth_mem_buildFlags h]
  exact fun hmem => mem_complement.mp (List.mem_of_mem_take hmem) (mem_reservedFor hv fill)

/-- A free nibble that LOWEST_NINE leaves out stands after the first nine free ones. -/
theorem lowestNine_takes_lowest {rls : List Nibble} (h : rls.length ≤ 7) {v : Nibble} (hv : v ∉ rls)
    (hout : v.setWidth 8 ∉ (buildFlags .lowestNine rls).entries) :
    ∀ e ∈ (buildFlags .lowestNine rls).entries, e.toNat < v.toNat := by
  rw [setWidth_mem_buildFlags h] at hout
  rw [forall_mem_buildFlags h]
  intro e he
  obtain ⟨-, -, hbelow⟩ := List.pairwise_append.mp
    ((List.take_append_drop 9 (complement rls)).symm ▸ pairwise_complement rls)
  have hdrop : v ∈ (complement rls).drop 9 := by
    have hmem : v ∈ complement rls := mem_complement.mpr hv
    rw [← List.take_append_drop 9 (complement rls), List.mem_append] at hmem
    exact hmem.resolve_left hout
  rw [toNat_setWidth_nibble]
  exact hbelow e he v hdrop

/-- A free nibble that PAD_RESERVED leaves out was taken into the padded set, before every nibble of the table. -/
theorem padReserved_leaves_lowest {rls : List Nibble} (hasc : rls.Pairwise (fun a b => a.toNat < b.toNat))
    (h : rls.length ≤ 7) {v : Nibble} (hv : v ∉ rls) (hout : v.setWidth 8 ∉ (buildFlags .padReserved rls).entries) :
    ∀ e ∈ (buildFlags .padReserved rls).entries, v.toNat < e.toNat := by
  have hnine : (complement (padReserved allNibbles rls)).length ≤ 9 := by
    have hle := length_complement_le (nodup_of_pairwise_toNat (pairwise_padReserved hasc allNibbles))
    rw [length_padReserved h] at hle
    omega
  have htake : (complement (reservedFor .padReserved rls)).take 9 = complement (padReserved allNibbles rls) :=
    List.take_of_length_le hnine
  rw [setWidth_mem_buildFlags h, htake, mem_complement, not_not] at hout
  rw [forall_mem_buildFlags h, htake]
  intro e he
  rw [toNat_setWidth_nibble]
  exact padReserved_lowest pairwise_allNibbles hv hout (mem_allNibbles e) (mem_complement.mp he)

/-- Settles O24: the entries are the first nine nibbles, ascending, outside the set that `FLAG_FILL` leaves out. -/
theorem flagsAvoidReservedLengths : Obligations.FlagsAvoidReservedLengths := by
  intro fill rls hasc hlen
  refine ⟨wf_buildFlags hlen fill, pairwise_buildFlags hlen fill,
    fun v hv => reserved_notMem_buildFlags hlen hv fill, ?lowest, ?padded⟩
  case lowest =>
    rintro rfl v hv hout
    exact lowestNine_takes_lowest hlen hv hout
  case padded =>
    rintro rfl v hv hout
    exact padReserved_leaves_lowest hasc hlen hv hout

end Sys2Proof.Machine
end

section
/-! SUPPORT. One turn of planning: the patterns as `classify` answers, the priority order, and O20 (40_px_compressor.md
R134, R141, R142). -/

namespace Sys2Proof.Machine

/-! ### The patterns -/

/-- A nibble that differs is no row 0: its index is one of the two that its position has. -/
theorem one_le_of_oddNibble {down up : Fin 9} (hdown : 1 ≤ down.val) (hup : 1 ≤ up.val) {x b n0 : Nibble} {i : Fin 9}
    {l : Nibble} (h : oddNibble down up x b n0 = some (i, l)) : 1 ≤ i.val := by
  unfold oddNibble at h
  split at h
  · cases h; exact hdown
  · split at h
    · cases h; exact hup
    · cases h

/-- `classify` answers row 0 only for four equal nibbles, and then before any other row (30_encoding.md R103). -/
theorem classify_of_ne {b0 b1 : Byte} (h : ¬ (hi4 b0 = lo4 b0 ∧ lo4 b0 = hi4 b1 ∧ hi4 b1 = lo4 b1)) {i : Fin 9}
    {l : Nibble} (hc : classify b0 b1 = some (i, l)) : 1 ≤ i.val := by
  unfold classify at hc
  dsimp only at hc
  rw [if_neg h] at hc
  split at hc
  · exact one_le_of_oddNibble (by decide) (by decide) hc
  · split at hc
    · exact one_le_of_oddNibble (by decide) (by decide) hc
    · split at hc
      · exact one_le_of_oddNibble (by decide) (by decide) hc
      · split at hc
        · exact one_le_of_oddNibble (by decide) (by decide) hc
        · cases hc

/-- The equal-nibble pattern is row 0 of `classify` (R141). -/
theorem equalNibbles_eq (b0 b1 : Byte) :
    equalNibbles b0 b1 =
      (classify b0 b1).bind fun p => if p.1.val = 0 then some (.nibblePattern p.1 p.2) else none := by
  by_cases h : hi4 b0 = lo4 b0 ∧ lo4 b0 = hi4 b1 ∧ hi4 b1 = lo4 b1
  · simp only [equalNibbles, classify, if_pos h]
    rfl
  · rw [equalNibbles, if_neg h]
    cases hc : classify b0 b1 with
    | none => rfl
    | some p =>
      have hp : p.1.val ≠ 0 := Nat.one_le_iff_ne_zero.mp (classify_of_ne h hc)
      exact (if_neg hp).symm

/-- The near-equal patterns are the rows from 1 on (R142). -/
theorem nearEqualNibbles_eq (b0 b1 : Byte) :
    nearEqualNibbles b0 b1 =
      (classify b0 b1).bind fun p => if 1 ≤ p.1.val then some (.nibblePattern p.1 p.2) else none := by
  unfold nearEqualNibbles
  cases classify b0 b1 <;> rfl

/-- Over two bytes the patterns are those of `classify` that the level enables (R134). -/
theorem planPattern_cons_cons (level : Level) (b0 b1 : Byte) (more : Bytes) :
    planPattern level (b0 :: b1 :: more) =
      (classify b0 b1).bind fun p =>
        if (p.1.val = 0 ∧ 1 ≤ level.toNat) ∨ (1 ≤ p.1.val ∧ 2 ≤ level.toNat) then some (.nibblePattern p.1 p.2)
        else none := by
  simp only [planPattern, equalNibbles_eq, nearEqualNibbles_eq]
  cases classify b0 b1 with
  | none => simp
  | some p =>
    obtain ⟨i, l⟩ := p
    by_cases hzero : i = 0
    · by_cases hlevel : 1 ≤ level.toNat <;> simp [hzero, hlevel]
    · have hone : 1 ≤ i.val := Nat.one_le_iff_ne_zero.mpr (Fin.val_ne_zero_iff.mpr hzero)
      by_cases hlevel : 2 ≤ level.toNat <;> simp [hzero, hone, hlevel]

theorem planPattern_short {ahead : Bytes} (h : ahead.length < 2) (level : Level) : planPattern level ahead = none := by
  match ahead, h with
  | [], _ => rfl
  | [_], _ => rfl

/-! ### The priority order -/

section
variable {level : Level} {order : Order} {input : Bytes} {cur : Nat} {b : Byte} {rls : List Nibble}

/-- The sequence search has no part in the plan below level 3. -/
theorem planOne_below (h : level ≠ 3#2) :
    planOne level order input cur b rls =
      ((planPattern level (input.drop cur)).map fun op => (op, rls)).getD (.copyAsIs b, rls) := by
  cases order <;> simp [planOne, h]

theorem planOne_seqFirst (h : level = 3#2) :
    planOne level .seqFirst input cur b rls =
      ((findSequence input cur rls).or ((planPattern level (input.drop cur)).map fun op => (op, rls))).getD
        (.copyAsIs b, rls) := by
  simp [planOne, h]

theorem planOne_nibFirst (h : level = 3#2) :
    planOne level .nibFirst input cur b rls =
      (((planPattern level (input.drop cur)).map fun op => (op, rls)).or (findSequence input cur rls)).getD
        (.copyAsIs b, rls) := by
  simp [planOne, h]

/-- A pattern is planned unless a sequence has been: below level 3, under NIB_FIRST, or where there is no sequence. -/
theorem planOne_pattern {op : Op} (hp : planPattern level (input.drop cur) = some op)
    (h : level ≠ 3 ∨ order = .nibFirst ∨ findSequence input cur rls = none) :
    planOne level order input cur b rls = (op, rls) := by
  by_cases hl : level = 3
  · cases order with
    | nibFirst => simp [planOne_nibFirst hl, hp]
    | seqFirst =>
      have hnone : findSequence input cur rls = none := (h.resolve_left (not_not_intro hl)).resolve_left nofun
      simp [planOne_seqFirst hl, hp, hnone]
  · simp [planOne_below hl, hp]

/-- With neither a sequence nor a pattern the literal is planned (R143). -/
theorem planOne_literal (hs : level ≠ 3 ∨ findSequence input cur rls = none)
    (hp : planPattern level (input.drop cur) = none) : planOne level order input cur b rls = (.copyAsIs b, rls) := by
  by_cases hl : level = 3
  · have hnone : findSequence input cur rls = none := hs.resolve_left (not_not_intro hl)
    cases order with
    | nibFirst => simp [planOne_nibFirst hl, hp, hnone]
    | seqFirst => simp [planOne_seqFirst hl, hp, hnone]
  · simp [planOne_below hl, hp]

end

/-- Settles O20: each clause is the equation of `plan_one` or of the patterns for it. -/
theorem planningFollowsThePriorityOrder : Obligations.PlanningFollowsThePriorityOrder := by
  intro level order input cur b rls
  refine ⟨?sequenceFirst, fun op hp h => planOne_pattern hp h, ?sequenceAfter, planOne_literal, ?patterns,
    fun ahead h => planPattern_short h level⟩
  case sequenceFirst =>
    rintro r hl rfl hr
    simp [planOne_seqFirst hl, hr]
  case sequenceAfter =>
    rintro r hl rfl hp hr
    simp [planOne_nibFirst hl, hp, hr]
  case patterns =>
    intro b0 b1 more
    rw [planPattern_cons_cons]
    cases classify b0 b1 <;> rfl

end Sys2Proof.Machine
end

section
/-! SUPPORT. The sequence search: what the scan of the window answers, the run of equal bytes at one distance back from
the cursor, and O21 (40_px_compressor.md R135 to R137). -/

namespace Sys2Proof.Machine

/-! ### The scan -/

/-- Looking back by `d` from the end of a window meets its first position, or a position of the window after it. -/
theorem drop_cons_at_distance {b : Byte} {window : Bytes} {d : Nat} (hd : d ≤ (b :: window).length) :
    (d = window.length + 1 ∧ (b :: window).drop ((b :: window).length - d) = b :: window) ∨
    (d ≤ window.length ∧ (b :: window).drop ((b :: window).length - d) = window.drop (window.length - d)) := by
  obtain rfl | hlt := Nat.eq_or_lt_of_le hd
  · exact .inl ⟨rfl, by simp⟩
  · refine .inr ⟨Nat.le_of_lt_succ hlt, ?_⟩
    rw [List.length_cons, Nat.succ_sub (Nat.le_of_lt_succ hlt), List.drop_succ_cons]

/-- The scan's first position gives a best so far that has at least its run: the old best or the position itself. -/
theorem scanWindow_cons (avail : Nat) (ahead : Bytes) (b : Byte) (window : Bytes) (best : Match) :
    ∃ best', scanWindow avail ahead (b :: window) best = scanWindow avail ahead window best' ∧
      best.length ≤ best'.length ∧ matchLength avail (b :: window) ahead ≤ best'.length ∧
      (best' = best ∨ best'.distance = window.length + 1) := by
  refine ⟨_, rfl, ?_⟩
  split
  · exact ⟨Nat.le_of_lt ‹_›, Nat.le_refl _, .inr rfl⟩
  · exact ⟨Nat.le_refl _, Nat.le_of_not_lt ‹_›, .inl rfl⟩

/-- The answer is the best so far or has a longer run. -/
theorem scanWindow_eq_or_lt (avail : Nat) (ahead window : Bytes) (best : Match) :
    scanWindow avail ahead window best = best ∨ best.length < (scanWindow avail ahead window best).length := by
  obtain heq | ⟨d, -, -, hlt, heq⟩ := scanWindow_cases avail ahead window best
  · exact .inl heq
  · exact .inr (by rw [heq]; exact hlt)

theorem best_le_scanWindow (avail : Nat) (ahead window : Bytes) (best : Match) :
    best.length ≤ (scanWindow avail ahead window best).length := by
  obtain heq | hlt := scanWindow_eq_or_lt avail ahead window best
  · rw [heq]
  · exact Nat.le_of_lt hlt

/-- No position of the window has a longer run than the answer (R135). -/
theorem matchLength_le_scanWindow {avail : Nat} {ahead window : Bytes} (best : Match) {d : Nat} (h1 : 1 ≤ d)
    (hd : d ≤ window.length) :
    matchLength avail (window.drop (window.length - d)) ahead ≤ (scanWindow avail ahead window best).length := by
  induction window generalizing best with
  | nil => exact absurd (Nat.le_trans h1 hd) (by decide)
  | cons b window ih =>
    obtain ⟨best', hscan, -, hrun, -⟩ := scanWindow_cons avail ahead b window best
    rw [hscan]
    obtain ⟨-, hdrop⟩ | ⟨hd', hdrop⟩ := drop_cons_at_distance hd <;> rw [hdrop]
    · exact Nat.le_trans hrun (best_le_scanWindow avail ahead window best')
    · exact ih best' hd'

/-- Where the scan improves on the best so far, no position with an equally long run stands before the answer (R136). -/
theorem le_distance_scanWindow {avail : Nat} {ahead window : Bytes} {best : Match}
    (hbest : best.length < (scanWindow avail ahead window best).length) {d : Nat} (hd : d ≤ window.length)
    (hd_run : matchLength avail (window.drop (window.length - d)) ahead = (scanWindow avail ahead window best).length) :
    d ≤ (scanWindow avail ahead window best).distance := by
  induction window generalizing best with
  | nil => exact absurd hbest (Nat.lt_irrefl _)
  | cons b window ih =>
    obtain ⟨best', hscan, -, hrun, hbest'⟩ := scanWindow_cons avail ahead b window best
    rw [hscan] at hbest hd_run ⊢
    obtain heq | hlt := scanWindow_eq_or_lt avail ahead window best'
    · rw [heq] at hbest ⊢
      obtain rfl | hdist := hbest'
      · exact absurd hbest (Nat.lt_irrefl _)
      · exact hdist ▸ hd
    · obtain ⟨-, hdrop⟩ | ⟨hd', hdrop⟩ := drop_cons_at_distance hd <;> rw [hdrop] at hd_run
      · omega
      · exact ih hlt hd' hd_run

/-! ### The run at a distance -/

/-- `k` equal bytes at `s` and at the cursor, available and wholly inside the window (R135, R137). -/
def EqualRun (input : Bytes) (cur s k : Nat) : Prop :=
  cur - 4096 ≤ s ∧ s < cur ∧ k ≤ 18 ∧ cur + k ≤ input.length ∧ s + k ≤ cur ∧ ∀ j < k, input[s + j]? = input[cur + j]?

/-- The run that the scan measures at the position `d` bytes before the cursor. -/
def runAt (input : Bytes) (cur d : Nat) : Nat :=
  matchLength (min 18 (input.length - cur)) ((lookback input cur).drop ((lookback input cur).length - d))
    (input.drop cur)

section
variable {input : Bytes} {cur : Nat}

theorem length_lookback (h : cur ≤ input.length) : (lookback input cur).length = min 4096 cur := by
  simp only [lookback, length_slice, Config.window]
  omega

/-- The window's last `d` bytes are the `d` bytes before the cursor. -/
theorem getElem?_drop_lookback (h : cur ≤ input.length) {d j : Nat} (hd : d ≤ (lookback input cur).length)
    (hj : j < d) :
    ((lookback input cur).drop ((lookback input cur).length - d))[j]? = input[cur - d + j]? := by
  have hlen := length_lookback h
  have hindex : cur - 4096 + (min 4096 cur - d + j) = cur - d + j := by omega
  rw [List.getElem?_drop, hlen, lookback, slice, Config.window, List.getElem?_take_of_lt (by omega), List.getElem?_drop,
    hindex]

theorem runAt_le_distance {d : Nat} (hd : d ≤ (lookback input cur).length) : runAt input cur d ≤ d := by
  obtain ⟨-, hle, -⟩ := matchLength_le (min 18 (input.length - cur))
    ((lookback input cur).drop ((lookback input cur).length - d)) (input.drop cur)
  rw [List.length_drop] at hle
  exact Nat.le_trans hle (by omega)

/-- What the scan measures is an equal run. -/
theorem equalRun_runAt (h : cur ≤ input.length) {d : Nat} (h1 : 1 ≤ d) (hd : d ≤ (lookback input cur).length) :
    EqualRun input cur (cur - d) (runAt input cur d) := by
  have hlen := length_lookback h
  have hdist := runAt_le_distance hd
  have havail : runAt input cur d ≤ min 18 (input.length - cur) := (matchLength_le _ _ _).1
  refine ⟨by omega, by omega, by omega, by omega, by omega, fun j hj => ?_⟩
  rw [← getElem?_drop_lookback h hd (Nat.lt_of_lt_of_le hj hdist), matchLength_get _ _ _ j hj, List.getElem?_drop]

/-- An equal run is no longer than what the scan measures where it starts. -/
theorem EqualRun.le_runAt (h : cur ≤ input.length) {s k : Nat} (hrun : EqualRun input cur s k) :
    1 ≤ cur - s ∧ cur - s ≤ (lookback input cur).length ∧ k ≤ runAt input cur (cur - s) := by
  obtain ⟨hwindow, hs, hmax, hinput, hend, heq⟩ := hrun
  have hlen := length_lookback h
  have hd : cur - s ≤ (lookback input cur).length := by omega
  refine ⟨by omega, hd, matchLength_max _ _ _ k (by omega) (by rw [List.length_drop]; omega) fun j hj => ?_⟩
  rw [getElem?_drop_lookback h hd (by omega), List.getElem?_drop, Nat.sub_sub_self (Nat.le_of_lt hs)]
  exact heq j hj

/-! ### The match -/

/-- A match found is the run at its distance, the longest of all and the farthest back of the longest. -/
theorem findMatch_spec {m : Match} (hm : findMatch input cur = some m) :
    3 ≤ m.length ∧ 1 ≤ m.distance ∧ m.distance ≤ (lookback input cur).length ∧
      m.length = runAt input cur m.distance ∧
      ∀ d, 1 ≤ d → d ≤ (lookback input cur).length →
        runAt input cur d ≤ m.length ∧ (runAt input cur d = m.length → d ≤ m.distance) := by
  unfold findMatch at hm
  dsimp only at hm
  split at hm
  · cases hm
  split at hm
  · cases hm
  rename_i hmin
  obtain rfl := Option.some.inj hm
  have hthree := Nat.le_of_not_lt hmin
  refine ⟨hthree, ?_⟩
  obtain heq | ⟨d, h1, hd, -, heq⟩ := scanWindow_cases (min Config.maxMatch (input.length - cur)) (input.drop cur)
    (lookback input cur) ⟨0, 0⟩
  · rw [heq] at hthree
    exact absurd hthree (by decide)
  · refine ⟨by rw [heq]; exact h1, by rw [heq]; exact hd, by rw [heq]; rfl, fun d h1 hd => ?_⟩
    exact ⟨matchLength_le_scanWindow _ h1 hd, le_distance_scanWindow (Nat.lt_of_lt_of_le (by decide) hthree) hd⟩

/-- Where no match is found every run is shorter than 3. -/
theorem runAt_lt_of_findMatch_none (hm : findMatch input cur = none) {d : Nat} (h1 : 1 ≤ d)
    (hd : d ≤ (lookback input cur).length) : runAt input cur d < 3 := by
  unfold findMatch at hm
  dsimp only at hm
  split at hm
  case isTrue havail => exact Nat.lt_of_le_of_lt (matchLength_le _ _ _).1 havail
  split at hm
  case isTrue hshort => exact Nat.lt_of_le_of_lt (matchLength_le_scanWindow _ h1 hd) hshort
  cases hm

end

/-- Settles O21: equal runs and the runs that the scan measures bound each other. -/
theorem matchIsTheFirstOfTheLongest : Obligations.MatchIsTheFirstOfTheLongest := by
  intro input cur hcur
  refine ⟨fun m hm => ?found, fun hm s k hrun => ?none⟩
  case found =>
    obtain ⟨hthree, hone, hwindow, hlength, hbest⟩ := findMatch_spec hm
    refine ⟨hthree, ?_, hlength ▸ equalRun_runAt hcur hone hwindow, fun s k hrun => ?_⟩
    · rw [length_lookback hcur] at hwindow
      omega
    · obtain ⟨hd1, hd, hk⟩ := EqualRun.le_runAt hcur hrun
      obtain ⟨hle, hfirst⟩ := hbest (cur - s) hd1 hd
      refine ⟨Nat.le_trans hk hle, fun heq => ?_⟩
      have := hfirst (Nat.le_antisymm hle (heq ▸ hk))
      omega
  case none =>
    obtain ⟨hd1, hd, hk⟩ := EqualRun.le_runAt hcur hrun
    exact Nat.lt_of_le_of_lt hk (runAt_lt_of_findMatch_none hm hd1 hd)

end Sys2Proof.Machine
end

section
/-! SUPPORT. Emission: the bytes of an operation, the bits of a command byte, and the payload's length; O18
(40_px_compressor.md R131, R146 to R148). -/

namespace Sys2Proof.Machine

/-! ### The bytes of an operation -/

@[simp] theorem length_encodeOp (t : Cft) (op : Op) : (encodeOp t op).length = op.size := by
  cases op <;> rfl

theorem joinNibbles_lo4 (b : Byte) (l : Nibble) : joinNibbles (lo4 b) l = BitVec.ofNat 8 (b.toNat * 16 + l.toNat) := by
  apply BitVec.eq_of_toNat_eq
  rw [joinNibbles, BitVec.toNat_append, ← Nat.shiftLeft_add_eq_or_of_lt l.isLt, Nat.shiftLeft_eq, toNat_lo4,
    BitVec.toNat_ofNat]
  omega

/-- R97: an offset is written as its distance from the start of the window. -/
theorem encodeOp_sequence (t : Cft) (u length : Nat) :
    encodeOp t (.sequence ((u : Int) - 4096) length) =
      [BitVec.ofNat 8 ((length - 3) * 16 + u / 256), BitVec.ofNat 8 (u % 256)] := by
  simp [encodeOp]

theorem isCopy_iff {op : Op} : op.isCopy = true ↔ ∃ b, op = .copyAsIs b := by
  cases op <;> simp [Op.isCopy]

/-! ### Blocks -/

/-- R92, R93: a bit of the command byte is 1 exactly if its operation is there and is a CopyAsIs. -/
theorem commandBit_commandByte {ops : List Op} (h : ops.length ≤ 8) (k : Fin 8) :
    commandBit (commandByte ops 0) k.val = true ↔ ∃ b, ops[k.val]? = some (.copyAsIs b) := by
  have hbit : commandBit (commandByte ops 0) k.val = (commandByte ops 0).getLsbD (7 - k.val) := by
    simp [commandBit, BitVec.getMsbD]
  rw [hbit, getLsbD_commandByte (by omega) k.isLt]
  cases hop : ops[k.val]? with
  | none => simp
  | some op => simp [isCopy_iff]

theorem emit_eq_block {t : Cft} {ops : List Op} (h : ops ≠ []) :
    emit t ops = [commandByte (ops.take 8) 0] ++ (ops.take 8).flatMap (encodeOp t) ++ emit t (ops.drop 8) := by
  obtain ⟨op, ops, rfl⟩ := List.exists_cons_of_ne_nil h
  rw [emit_cons, emitBlock]
  rfl

/-- Each operation takes its one or two bytes, and every eight of them a command byte (R94, R146). -/
theorem length_emit (t : Cft) (ops : List Op) :
    (emit t ops).length = (ops.map Op.size).sum + (ops.length + 7) / 8 := by
  induction hn : ops.length using Nat.strong_induction_on generalizing ops with
  | _ n ih =>
    by_cases hnil : ops = []
    · subst hnil hn
      rfl
    · have hpos : 0 < ops.length := List.length_pos_iff.mpr hnil
      have hrest := ih (ops.drop 8).length (by rw [List.length_drop]; omega) (ops.drop 8) rfl
      have hsum : (ops.map Op.size).sum = ((ops.take 8).map Op.size).sum + ((ops.drop 8).map Op.size).sum := by
        rw [← List.sum_append, ← List.map_append, List.take_append_drop]
      have hblock : ((ops.take 8).flatMap (encodeOp t)).length = ((ops.take 8).map Op.size).sum := by
        simp [List.length_flatMap]
      rw [emit_eq_block hnil, List.length_append, List.length_append, hrest, hblock, hsum, List.length_singleton,
        List.length_drop]
      omega

/-! ### The command -/

/-- PXC in one step (R130). -/
theorem exec_pxc_command {s : State} (h : s.params.granularity = .command) (level : Level) (order : Order) :
    exec (.pxc level order) s =
      .next (s.finish pxcTargets ((pxc s.params.flagFill level order s.src.bytes).map Packed.results)) := by
  simp only [exec, execPxc, h]

/-- In both views the input check comes first (R131). -/
theorem exec_pxc_tooLarge {s : State} (h : 2147483647 < s.src.len) (level : Level) (order : Order) :
    exec (.pxc level order) s = .next (s.raise ⟨.inputTooLarge, .none⟩ { cft := true }) := by
  cases hg : s.params.granularity with
  | operation =>
    have hmax : Config.maxInput < s.src.len := h
    simp only [exec, execPxc, hg, if_pos hmax]
    rfl
  | command =>
    obtain ⟨-, heq⟩ | ⟨hle, -⟩ := pxc_cases s.params.flagFill level order s.src.bytes
    · rw [exec_pxc_command hg, heq]
      rfl
    · rw [Memory.length_bytes] at hle
      omega

/-- Settles O18: emission block by block, and the two errors and the success of PXC. -/
theorem pxcFollowsItsRule : Obligations.PxcFollowsItsRule := by
  refine ⟨fun t => ⟨rfl, fun ops hops => ?block, fun b => rfl, fun i l => ?pattern, encodeOp_sequence t⟩,
    fun s level order => ⟨fun h => exec_pxc_tooLarge h level order, fun h hg => ?command⟩⟩
  case block =>
    refine ⟨commandByte (ops.take 8) 0, emit_eq_block hops, fun k => ?_⟩
    have hbit := commandBit_commandByte (List.length_take_le 8 ops) k
    rw [commandBit_eq_decide, decide_eq_true_eq, List.getElem?_take_of_lt k.isLt] at hbit
    exact hbit
  case pattern =>
    rw [encodeOp, joinNibbles_lo4]
  case command =>
    intro w flags payload
    rw [exec_pxc_command hg]
    obtain ⟨hlarge, -⟩ | ⟨-, ⟨hlarge, heq⟩ | ⟨hfits, heq⟩⟩ := pxc_cases s.params.flagFill level order s.src.bytes
    · rw [Memory.length_bytes] at hlarge
      omega
    · rw [heq, if_pos hlarge]
      rfl
    · rw [heq, if_neg (Nat.not_lt.mpr hfits)]
      rfl

end Sys2Proof.Machine
end

section
/-! SUPPORT. The plan covers the input: every operation is written in no more bytes than it covers, and the loop ends at
the end of the input; O19 (40_px_compressor.md R133, R144, R150, R151). -/

namespace Sys2Proof.Machine

/-! ### One turn -/

/-- Reserving or shrinking keeps a match length at 3 or more and never lengthens it (R138, R139). -/
theorem reserveOrShrink_range {length : Nat} (h : 3 ≤ length) (rls : List Nibble) :
    3 ≤ (reserveOrShrink rls length).1 ∧ (reserveOrShrink rls length).1 ≤ length := by
  have hshrink : 3 ≤ shrink length rls ∧ shrink length rls ≤ length := by
    obtain ⟨heq, -⟩ | ⟨e, -, hlt, heq⟩ := shrink_cases length rls <;> omega
  obtain ⟨-, heq⟩ | ⟨-, -, heq⟩ | ⟨-, -, heq⟩ := reserveOrShrink_cases rls length <;> rw [heq]
  · exact ⟨h, Nat.le_refl _⟩
  · exact ⟨h, Nat.le_refl _⟩
  · exact hshrink

/-- A sequence found covers at least 3 bytes and ends inside the input (R135). -/
theorem findSequence_some {input : Bytes} {cur : Nat} {rls : List Nibble} {r : Op × List Nibble}
    (h : findSequence input cur rls = some r) :
    ∃ offset length, r.1 = .sequence offset length ∧ 3 ≤ length ∧ cur + length ≤ input.length := by
  obtain ⟨-, hnone⟩ | ⟨m, hm, hsome⟩ := findSequence_cases input cur rls
  · rw [hnone] at h
    cases h
  · rw [hsome] at h
    cases h
    obtain ⟨hthree, -, hinside, -, -, -⟩ := findMatch_some hm
    obtain ⟨hmin, hmax⟩ := reserveOrShrink_range hthree rls
    exact ⟨_, _, rfl, hmin, by omega⟩

theorem one_le_size (op : Op) : 1 ≤ op.size := by
  cases op <;> simp [Op.size]

/-- What is planned at a cursor inside the input is written in no more bytes than it covers and ends inside the input
(R144, R150). -/
theorem planOne_advances {level : Level} {order : Order} {input : Bytes} {cur : Nat} {b : Byte} {more : Bytes}
    {rls : List Nibble} (hb : input.drop cur = b :: more) :
    let op := (planOne level order input cur b rls).1
    op.size ≤ consumed op ∧ cur + consumed op ≤ input.length := by
  have hlen : input.length - cur = more.length + 1 := by rw [← List.length_drop, hb, List.length_cons]
  obtain ⟨r, -, hr, heq⟩ | ⟨op, hop, heq⟩ | heq := planOne_cases level order input cur b rls <;> rw [heq]
  · obtain ⟨offset, length, hop, hthree, hinside⟩ := findSequence_some hr
    simp only [hop, Op.size, consumed]
    omega
  · obtain ⟨-, b0, b1, rest, i, l, hahead, rfl⟩ := planPattern_some hop
    rw [hb, List.cons.injEq] at hahead
    simp only [hahead.2, List.length_cons] at hlen
    simp only [Op.size, consumed]
    omega
  · simp only [Op.size, consumed]
    omega

/-- At level 0 the literal is all there is (R152). -/
theorem planOne_level_zero (order : Order) (input : Bytes) (cur : Nat) (b : Byte) (rls : List Nibble) :
    planOne 0 order input cur b rls = (.copyAsIs b, rls) := by
  refine planOne_literal (.inl (by decide)) (Option.eq_none_iff_forall_ne_some.mpr fun op hop => ?_)
  obtain ⟨hlevel, -⟩ := planPattern_some hop
  exact absurd hlevel (by decide)

/-! ### The loop -/

section
variable {input : Bytes}

/-- What every turn keeps holds of the whole plan. -/
theorem planLoop_induction {P : PxcWork → Prop} (hstep : ∀ w w', P w → w.planNext input = some w' → P w') (fuel : Nat)
    {w : PxcWork} (h : P w) : P (planLoop input fuel w) := by
  induction fuel generalizing w with
  | zero => exact h
  | succ fuel ih =>
    unfold planLoop
    cases hnext : w.planNext input with
    | none => exact h
    | some w' => exact ih (hstep w w' h hnext)

/-- The operations planned so far cover the input up to the cursor, each at least as many bytes as it is written in. -/
structure PxcWork.Covers (input : Bytes) (w : PxcWork) : Prop where
  covered : w.cur = (w.ops.map consumed).sum
  inside : w.cur ≤ input.length
  size : ∀ op ∈ w.ops, op.size ≤ consumed op

theorem PxcWork.covers_start (level : Level) (order : Order) : (PxcWork.start level order).Covers input where
  covered := rfl
  inside := Nat.zero_le _
  size := by simp [PxcWork.start]

theorem PxcWork.Covers.planNext {w w' : PxcWork} (h : w.Covers input) (hnext : w.planNext input = some w') :
    w'.Covers input ∧ w.cur < w'.cur := by
  obtain ⟨b, more, op, rls, hb, hop, rfl⟩ := PxcWork.planNext_some hnext
  have hadv := planOne_advances (level := w.level) (order := w.order) (rls := w.rls) hb
  rw [hop] at hadv
  obtain ⟨hsize, hinside⟩ := hadv
  refine ⟨⟨?_, hinside, ?_⟩, ?_⟩
  · simp [h.covered]
  · simpa [or_imp, forall_and] using ⟨h.size, hsize⟩
  · exact Nat.lt_add_of_pos_right (Nat.le_trans (one_le_size op) hsize)

theorem covers_plan (level : Level) (order : Order) : (plan level order input).Covers input :=
  planLoop_induction (fun _ _ h hnext => (h.planNext hnext).1) _ (PxcWork.covers_start level order)

/-- R151: every turn moves the cursor on, so as much fuel as there are bytes left reaches the end of the input. -/
theorem length_le_cur_planLoop {fuel : Nat} {w : PxcWork} (h : w.Covers input) (hfuel : input.length ≤ w.cur + fuel) :
    input.length ≤ (planLoop input fuel w).cur := by
  induction fuel generalizing w with
  | zero => exact hfuel
  | succ fuel ih =>
    unfold planLoop
    cases hnext : w.planNext input with
    | none => exact PxcWork.planNext_eq_none.mp hnext
    | some w' =>
      obtain ⟨hcovers, hcur⟩ := h.planNext hnext
      exact ih hcovers (by omega)

/-- The plan covers the whole input. -/
theorem cur_plan (level : Level) (order : Order) : (plan level order input).cur = input.length :=
  Nat.le_antisymm (covers_plan level order).inside
    (length_le_cur_planLoop (PxcWork.covers_start level order) (Nat.le_add_left _ _))

theorem sum_consumed_plan (level : Level) (order : Order) :
    ((plan level order input).ops.map consumed).sum = input.length := by
  rw [← (covers_plan level order).covered, cur_plan]

/-- At level 0 the plan is all literals. -/
theorem isCopy_of_mem_plan_zero {order : Order} {op : Op} (h : op ∈ (plan 0 order input).ops) : op.isCopy = true := by
  have hplan : (plan 0 order input).level = 0 ∧ ∀ op ∈ (plan 0 order input).ops, op.isCopy = true := by
    refine planLoop_induction (P := fun w => w.level = 0 ∧ ∀ op ∈ w.ops, op.isCopy = true) ?_ _ ⟨rfl, nofun⟩
    rintro w w' ⟨hlevel, hcopy⟩ hnext
    obtain ⟨b, more, op, rls, -, hop, rfl⟩ := PxcWork.planNext_some hnext
    rw [hlevel, planOne_level_zero] at hop
    cases hop
    exact ⟨hlevel, by simpa [or_imp, forall_and, Op.isCopy] using hcopy⟩
  exact hplan.2 op h

/-! ### The bound -/

/-- R150: the operations take no more bytes than the input, and there are no more of them than input bytes. -/
theorem length_emit_plan_le (t : Cft) (level : Level) (order : Order) :
    (emit t (plan level order input).ops).length ≤ packedBound input.length := by
  have hsize := (covers_plan (input := input) level order).size
  have hbytes : ((plan level order input).ops.map Op.size).sum ≤ input.length := by
    rw [← sum_consumed_plan level order]
    exact List.sum_le_sum hsize
  have hcount : (plan level order input).ops.length ≤ ((plan level order input).ops.map Op.size).sum := by
    rw [← List.length_map (f := Op.size)]
    exact List.length_le_sum_of_one_le _ (List.forall_mem_map.mpr fun op _ => one_le_size op)
  rw [length_emit, packedBound]
  omega

theorem sum_map_eq_length {f : Op → Nat} {ops : List Op} (h : ∀ op ∈ ops, f op = 1) : (ops.map f).sum = ops.length := by
  rw [List.map_congr_left h]
  simp

/-- The bound is reached by a plan of literals, each of which covers one byte and is written in one. -/
theorem length_emit_plan_zero (t : Cft) (order : Order) :
    (emit t (plan 0 order input).ops).length = packedBound input.length := by
  have hone : ∀ op ∈ (plan 0 order input).ops, op.size = 1 ∧ consumed op = 1 := by
    intro op hop
    obtain ⟨b, rfl⟩ := isCopy_iff.mp (isCopy_of_mem_plan_zero hop)
    exact ⟨rfl, rfl⟩
  have hcount : (plan 0 order input).ops.length = input.length := by
    rw [← sum_consumed_plan 0 order, sum_map_eq_length fun op hop => (hone op hop).2]
  rw [length_emit, sum_map_eq_length fun op hop => (hone op hop).1, hcount, packedBound]

end

/-- Settles O19: the payload is the emission of a plan that covers the input. -/
theorem pxcPayloadIsBounded : Obligations.PxcPayloadIsBounded := by
  intro fill level order input r hr
  obtain ⟨-, heq⟩ | ⟨-, ⟨-, heq⟩ | ⟨-, heq⟩⟩ := pxc_cases fill level order input <;> rw [heq] at hr <;> cases hr
  refine ⟨length_emit_plan_le _ level order, ?_⟩
  rintro rfl
  exact length_emit_plan_zero _ order

end Sys2Proof.Machine
end

section
/-! SUPPORT. A run of PXD, one element at a time: what an operation makes of the machine, which element a step takes,
the nibbles of a pattern row; O9, O10 and O14 (41_px_decompressor.md R175 to R177, R187, R188). -/

namespace Sys2Proof.Machine

/-! ### An operation in a run -/

/-- After an operation the run stands where R172 and R173 say, whatever became of OUT. -/
theorem PxdWork.movedPast_advance (w : PxdWork) (n : Nat) (out : Memory) :
    w.movedPast n ({ w with out := out }.advance n) := by
  refine ⟨by simp, by simp, by simp, fun hlast => ?_, fun hinner => ?_⟩
  · obtain ⟨hcmdb, hk⟩ := PxdWork.advance_of_last { w with out := out } n (Fin.ext hlast)
    exact ⟨hcmdb, congrArg Fin.val hk⟩
  · exact PxdWork.advance_of_inner { w with out := out } n fun hk => Nat.ne_of_lt hinner (congrArg Fin.val hk)

section
variable {s : State} {g : Goal} {w : PxdWork}

theorem exec_toInstr_of_ok (hs : s.work = .stream g w) {op : Op} {w' : PxdWork}
    (h : w.apply s.params.patternRange op = .ok w') : exec op.toInstr s = .next (s.setWork (.stream g w')) := by
  rw [exec_toInstr, State.onStream_stream s hs, h]

theorem exec_toInstr_of_error (hs : s.work = .stream g w) {op : Op} {c : Cause}
    (h : w.apply s.params.patternRange op = .error c) :
    exec op.toInstr s = .next (s.raise ⟨.corruptContainer, c⟩ {}) := by
  rw [exec_toInstr, State.onStream_stream s hs, h]

/-! ### The element a step takes -/

theorem PxdWork.fetch_of_decodeOp {c : Byte} {op : Op} (hc : w.cmdb = some c)
    (h : decodeOp w.flags (commandBit c w.k.val) w.rest = .ok op) : w.fetch = .operation op := by
  simp [PxdWork.fetch, hc, h]

theorem step_of_decodeOp (hs : s.work = .stream g w) {c : Byte} {op : Op} (hc : w.cmdb = some c)
    (h : decodeOp w.flags (commandBit c w.k.val) w.rest = .ok op) : step s = exec op.toInstr s := by
  simp [step, hs, PxdWork.fetch_of_decodeOp hc h]

theorem step_of_truncated (hs : s.work = .stream g w) {c : Byte} (hc : w.cmdb = some c)
    (h : decodeOp w.flags (commandBit c w.k.val) w.rest = .error .truncatedSequence) :
    step s = .next (s.raise ⟨.corruptContainer, .truncatedPayload⟩ {}) := by
  have hfetch : w.fetch = .truncated := by simp [PxdWork.fetch, hc, h]
  simp [step, hs, hfetch, State.endStream]

end

/-- A byte that selects no pattern needs a second one (R188). -/
theorem decodeOp_truncated {t : Cft} {b : Byte} (h : t.find (hi4 b) = none) :
    decodeOp t false [b] = .error .truncatedSequence := by
  simp [decodeOp, h]

/-! ### The nibbles of a pattern -/

theorem toNat_joinNibbles (h l : Nibble) : (joinNibbles h l).toNat = h.toNat * 16 + l.toNat := by
  rw [joinNibbles, BitVec.toNat_append, ← Nat.shiftLeft_add_eq_or_of_lt l.isLt, Nat.shiftLeft_eq]

theorem joinNibbles_eq_ofNat (h l : Nibble) : joinNibbles h l = BitVec.ofNat 8 (h.toNat * 16 + l.toNat) := by
  rw [← toNat_joinNibbles, BitVec.ofNat_toNat, BitVec.setWidth_eq]

theorem joinNibbles_hi4_lo4 (b : Byte) : joinNibbles (hi4 b) (lo4 b) = b := by
  apply BitVec.eq_of_toNat_eq
  rw [toNat_joinNibbles, toNat_hi4, toNat_lo4, Nat.mul_comm, Nat.div_add_mod]

@[simp] theorem hi4_joinNibbles (h l : Nibble) : hi4 (joinNibbles h l) = h := by
  apply BitVec.eq_of_toNat_eq
  rw [toNat_hi4, toNat_joinNibbles]
  omega

@[simp] theorem lo4_joinNibbles (h l : Nibble) : lo4 (joinNibbles h l) = l := by
  apply BitVec.eq_of_toNat_eq
  rw [toNat_lo4, toNat_joinNibbles]
  omega

theorem isNibble_toNat (n : Nibble) : isNibble (n.toNat : Int) = true := by
  simp [isNibble, Nat.le_of_lt_succ n.isLt]

@[simp] theorem Quad.inRange_nibbles (n0 n1 n2 n3 : Nibble) :
    Quad.inRange ⟨n0.toNat, n1.toNat, n2.toNat, n3.toNat⟩ = true := by
  simp [Quad.inRange, isNibble_toNat]

@[simp] theorem Quad.bytes_nibbles (n0 n1 n2 n3 : Nibble) :
    Quad.bytes ⟨n0.toNat, n1.toNat, n2.toNat, n3.toNat⟩ = (joinNibbles n0 n1, joinNibbles n2 n3) := by
  simp [Quad.bytes]

/-- A row whose four entries are nibbles is a pattern under both settings of PATTERN_RANGE (R101, R102). -/
theorem pattern_of_row {i : Fin 9} {l n0 n1 n2 n3 : Nibble}
    (hrow : patternRow i (l.toNat : Int) = ⟨n0.toNat, n1.toNat, n2.toNat, n3.toNat⟩) (range : PatternRange) :
    pattern range i l = some (joinNibbles n0 n1, joinNibbles n2 n3) := by
  simp [pattern, hrow]

/-- A pattern's bytes are appended to OUT and the run moves past one payload byte (R196). -/
theorem PxdWork.apply_pattern {range : PatternRange} {i : Fin 9} {l : Nibble} {b0 b1 : Byte}
    (h : pattern range i l = some (b0, b1)) (w : PxdWork) :
    w.apply range (.nibblePattern i l) = .ok ({ w with out := (w.out.append b0).append b1 }.advance 1) := by
  simp [PxdWork.apply, PxdWork.nibblePattern, h]

/-! ### The obligations -/

/-- Settles O9: a set command bit decodes to the literal, and applying the literal appends it. -/
theorem copyAppendsItsByte : Obligations.CopyAppendsItsByte := by
  intro s g w b hs
  refine ⟨fun c more hc hbit hrest => ?selected, ?executed⟩
  case selected =>
    exact step_of_decodeOp hs (op := .copyAsIs b) hc (by rw [hbit, hrest, decodeOp_literal])
  case executed =>
    exact ⟨_, exec_toInstr_of_ok hs (op := .copyAsIs b) rfl, w.movedPast_advance 1 _, by simp⟩

/-- Settles O10: entry 0 is the least index there is, and row 0 of the pattern table is four times the low nibble. -/
theorem equalPatternAppendsTwoBytes : Obligations.EqualPatternAppendsTwoBytes := by
  intro s g w l hs
  refine ⟨fun c b more hc hbit hrest hflag hlow => ?selected, ?executed⟩
  case selected =>
    have hfind : w.flags.find (hi4 b) = some 0 :=
      Cft.find_eq_some_iff.mpr ⟨hflag, fun j hj => absurd hj (Nat.not_lt_zero j.val)⟩
    exact step_of_decodeOp hs (op := .nibblePattern 0 l) hc (by rw [hbit, hrest, decodeOp_pattern hfind, hlow])
  case executed =>
    have hpattern := pattern_of_row (i := 0) (l := l) (n0 := l) (n1 := l) (n2 := l) (n3 := l) rfl s.params.patternRange
    exact ⟨_, exec_toInstr_of_ok hs (PxdWork.apply_pattern hpattern w), w.movedPast_advance 1 _, by
      simp [nibbleBytes, joinNibbles_eq_ofNat]⟩

theorem PxdWork.apply_sequence_underflow {w : PxdWork} {offset : Int} (h : (w.out.len : Int) + offset < 0)
    (range : PatternRange) (length : Nat) : w.apply range (.sequence offset length) = .error .backrefUnderflow := by
  simp [PxdWork.apply, PxdWork.sequence, PxdWork.copySource, h]

/-- Settles O14: an empty OUT is the case of a source before OUT for every offset, and a byte that is no flag and has no
successor decodes to a truncated Sequence. -/
theorem sequenceFaultsAreRaised : Obligations.SequenceFaultsAreRaised := by
  intro s g w hs
  have hunder : ∀ (offset : Int) (length : Nat), (w.out.len : Int) + offset < 0 →
      exec (.seq offset length) s = .next (s.raise ⟨.corruptContainer, .backrefUnderflow⟩ {}) :=
    fun offset length h =>
      exec_toInstr_of_error hs (op := .sequence offset length) (PxdWork.apply_sequence_underflow h _ length)
  refine ⟨hunder, fun offset length hempty hoffset => hunder offset length (by omega), ?truncated⟩
  case truncated =>
    intro c b hc hbit hrest hno
    exact step_of_truncated hs hc (by rw [hbit, hrest, decodeOp_truncated (Cft.find_eq_none_iff.mpr hno)])

end Sys2Proof.Machine
end

section
/-! SUPPORT. An operation's bytes read back as the operation, under a table that encodes it (30_encoding.md R92 to
R100). -/

namespace Sys2Proof

/-! ### The entries of a table -/

theorem Cft.entries_eq_ofFn (t : Cft) : t.entries = List.ofFn t.get := by
  simp [Cft.entries, List.ofFn_succ, Cft.get]

theorem Cft.get_mem_entries (t : Cft) (i : Fin 9) : t.get i ∈ t.entries := by
  rw [Cft.entries_eq_ofFn]
  exact List.mem_ofFn.mpr ⟨i, rfl⟩

theorem Cft.forall_mem_entries {t : Cft} {p : Byte → Prop} : (∀ e ∈ t.entries, p e) ↔ ∀ i, p (t.get i) := by
  rw [Cft.entries_eq_ofFn, List.forall_mem_ofFn_iff]

theorem Cft.forall_mem_take_entries {t : Cft} {p : Byte → Prop} (i : Fin 9) :
    (∀ e ∈ t.entries.take i.val, p e) ↔ ∀ j < i, p (t.get j) := by
  simp only [Cft.entries_eq_ofFn, List.mem_take_iff_getElem, List.getElem_ofFn, List.length_ofFn, Nat.lt_min]
  constructor
  · exact fun h j hj => h _ ⟨j.val, ⟨hj, j.isLt⟩, rfl⟩
  · rintro h e ⟨k, ⟨hk, hk9⟩, rfl⟩
    exact h ⟨k, hk9⟩ hk

/-- A table that encodes a NibblePattern has its flag as a nibble that no lower index holds. -/
theorem Op.encodable_nibblePattern_iff {t : Cft} {i : Fin 9} {l : Nibble} :
    (Op.nibblePattern i l).encodable t = true ↔ (t.get i).toNat < 16 ∧ ∀ j < i, t.get j ≠ t.get i := by
  simp only [Op.encodable, Bool.and_eq_true, decide_eq_true_eq, List.all_eq_true, bne_iff_ne,
    Cft.forall_mem_take_entries i (p := (· ≠ t.get i))]

/-- A table that encodes a Sequence has no entry that equals the length code. -/
theorem Op.encodable_sequence_iff {t : Cft} {offset : Int} {length : Nat} :
    (Op.sequence offset length).encodable t = true ↔ ∀ i, (t.get i).toNat ≠ length - 3 := by
  simp only [Op.encodable, List.all_eq_true, bne_iff_ne, Cft.forall_mem_entries (p := (·.toNat ≠ length - 3))]

/-- Nine distinct nibbles encode every pattern (10_state.md R34). -/
theorem Op.encodable_nibblePattern_of_wf {t : Cft} (h : t.wf = true) (i : Fin 9) (l : Nibble) :
    (Op.nibblePattern i l).encodable t = true := by
  simp only [Cft.wf, Bool.and_eq_true, List.all_eq_true, decide_eq_true_eq,
    Cft.entries_eq_ofFn, List.forall_mem_ofFn_iff, List.nodup_ofFn] at h
  obtain ⟨hnibble, hinj⟩ := h
  exact Op.encodable_nibblePattern_iff.mpr ⟨hnibble i, fun j hj => hinj.ne (Fin.ne_of_lt hj)⟩

/-! ### Decode of encode -/

theorem setWidth_lo4 {b : Byte} (h : b.toNat < 16) : (lo4 b).setWidth 8 = b := by
  apply BitVec.eq_of_toNat_eq
  rw [Machine.toNat_setWidth_nibble, toNat_lo4, Nat.mod_eq_of_lt h]

theorem decodeOp_encodeOp_nibblePattern {t : Cft} {i : Fin 9} {l : Nibble}
    (h : (Op.nibblePattern i l).encodable t = true) (rest : Bytes) :
    decodeOp t false (encodeOp t (.nibblePattern i l) ++ rest) = .ok (.nibblePattern i l) := by
  obtain ⟨hnibble, hleast⟩ := Op.encodable_nibblePattern_iff.mp h
  have hfind : t.find (hi4 (joinNibbles (lo4 (t.get i)) l)) = some i := by
    rw [Machine.hi4_joinNibbles, Cft.find_eq_some_iff, setWidth_lo4 hnibble]
    exact ⟨rfl, hleast⟩
  rw [encodeOp, List.singleton_append, decodeOp_pattern hfind, Machine.lo4_joinNibbles]

/-- The length code's high nibble is no flag, and the twelve bits after it give the offset back (R97 to R99). -/
theorem decodeOp_encodeOp_sequence {t : Cft} {offset : Int} {length : Nat}
    (hwf : (Op.sequence offset length).wf = true) (h : (Op.sequence offset length).encodable t = true)
    (rest : Bytes) :
    decodeOp t false (encodeOp t (.sequence offset length) ++ rest) = .ok (.sequence offset length) := by
  simp only [Op.wf, Bool.and_eq_true, decide_eq_true_eq] at hwf
  obtain ⟨⟨⟨hlow, hhigh⟩, hthree⟩, hmax⟩ := hwf
  obtain ⟨u, hu⟩ := Int.eq_ofNat_of_zero_le (a := offset + 4096) (by omega)
  obtain rfl : offset = (u : Int) - 4096 := by omega
  have hfirst : (BitVec.ofNat 8 ((length - 3) * 16 + u / 256)).toNat = (length - 3) * 16 + u / 256 := by
    rw [BitVec.toNat_ofNat, Nat.mod_eq_of_lt (by omega)]
  have hsecond : (BitVec.ofNat 8 (u % 256)).toNat = u % 256 := by
    rw [BitVec.toNat_ofNat, Nat.mod_eq_of_lt (by omega)]
  have hfind : t.find (hi4 (BitVec.ofNat 8 ((length - 3) * 16 + u / 256))) = none := by
    refine Cft.find_eq_none_iff.mpr fun i heq => Op.encodable_sequence_iff.mp h i ?_
    rw [eq_setWidth_hi4_iff, hfirst] at heq
    omega
  rw [Machine.encodeOp_sequence, List.cons_append, List.singleton_append, decodeOp_sequence hfind, seqOffset,
    seqLength, toNat_lo4, toNat_hi4, hfirst, hsecond]
  congr 2 <;> omega

/-- Under a table that encodes it, a well-formed operation is what its command bit and bytes decode to, whatever bytes
follow. -/
theorem decodeOp_encodeOp {t : Cft} {op : Op} (hwf : op.wf = true) (h : op.encodable t = true) (rest : Bytes) :
    decodeOp t op.isCopy (encodeOp t op ++ rest) = .ok op := by
  cases op with
  | copyAsIs b => rfl
  | nibblePattern i l => exact decodeOp_encodeOp_nibblePattern h rest
  | sequence offset length => exact decodeOp_encodeOp_sequence hwf h rest

end Sys2Proof
end

section
/-! SUPPORT. What PXC plans stands for the input: each operation is the literal, the pattern or the copy of the bytes at
its cursor, and its table encodes it (40_px_compressor.md R134 to R145). -/

namespace Sys2Proof.Machine

/-! ### The row that `classify` answers -/

theorem oddNibble_some {down up i : Fin 9} {x b n0 l : Nibble} (h : oddNibble down up x b n0 = some (i, l)) :
    l = n0 ∧ ((i = down ∧ x.toNat + 1 = b.toNat) ∨ (i = up ∧ x.toNat = b.toNat + 1)) := by
  unfold oddNibble at h
  split at h
  · cases h
    exact ⟨rfl, .inl ⟨rfl, ‹_›⟩⟩
  · split at h
    · cases h
      exact ⟨rfl, .inr ⟨rfl, ‹_›⟩⟩
    · cases h

/-- The row of the pattern table at the answer of `classify` is the four nibbles of the two bytes (30_encoding.md R101,
R103). -/
theorem patternRow_of_classify {b0 b1 : Byte} {i : Fin 9} {l : Nibble} (h : classify b0 b1 = some (i, l)) :
    patternRow i (l.toNat : Int) = ⟨(hi4 b0).toNat, (lo4 b0).toNat, (hi4 b1).toNat, (lo4 b1).toNat⟩ := by
  unfold classify at h
  dsimp only at h
  generalize hi4 b0 = n0, lo4 b0 = n1, hi4 b1 = n2, lo4 b1 = n3 at h ⊢
  split_ifs at h with hall hthree hthree hthree hthree
  · obtain ⟨rfl, rfl, rfl⟩ := hall
    cases h
    rfl
  all_goals
    obtain ⟨rfl, rfl⟩ := hthree
    obtain ⟨rfl, ⟨rfl, hodd⟩ | ⟨rfl, hodd⟩⟩ := oddNibble_some h
    all_goals
      simp only [patternRow, Quad.mk.injEq, true_and, and_true]
      omega

theorem pattern_of_classify {b0 b1 : Byte} {i : Fin 9} {l : Nibble} (h : classify b0 b1 = some (i, l))
    (range : PatternRange) : pattern range i l = some (b0, b1) := by
  rw [pattern_of_row (patternRow_of_classify h), joinNibbles_hi4_lo4, joinNibbles_hi4_lo4]

/-! ### One planned operation -/

/-- The operation stands for the input at the cursor: the literal or the pattern of the bytes there, or the copy of an
equal run before it whose length code is reserved. -/
inductive Spells (input : Bytes) (rls : List Nibble) (cur : Nat) : Op → Prop
  | literal {b : Byte} (h : input[cur]? = some b) : Spells input rls cur (.copyAsIs b)
  | pattern {b0 b1 : Byte} {i : Fin 9} {l : Nibble} (h0 : input[cur]? = some b0) (h1 : input[cur + 1]? = some b1)
      (h : classify b0 b1 = some (i, l)) : Spells input rls cur (.nibblePattern i l)
  | copy {s length : Nat} (hthree : 3 ≤ length) (hrun : EqualRun input cur s length)
      (hcode : BitVec.ofNat 4 (length - 3) ∈ rls) : Spells input rls cur (.sequence ((s : Int) - cur) length)

theorem EqualRun.shorten {input : Bytes} {cur s k n : Nat} (h : EqualRun input cur s k) (hn : n ≤ k) :
    EqualRun input cur s n := by
  obtain ⟨hwindow, hs, hmax, hinput, hend, heq⟩ := h
  exact ⟨hwindow, hs, by omega, by omega, by omega, fun j hj => heq j (Nat.lt_of_lt_of_le hj hn)⟩

theorem Spells.mono {input : Bytes} {rls rls' : List Nibble} {cur : Nat} {op : Op} (h : Spells input rls cur op)
    (hsub : rls ⊆ rls') : Spells input rls' cur op := by
  cases h with
  | literal h => exact .literal h
  | pattern h0 h1 h => exact .pattern h0 h1 h
  | copy hthree hrun hcode => exact .copy hthree hrun (hsub hcode)

/-- Reserving or shrinking keeps a ReservedLengthSet, loses no code, and leaves the code of the length it answers in the
set (R138 to R140). -/
theorem ReservedSet.reserveOrShrink {rls : List Nibble} (h : ReservedSet rls) {length : Nat} (hthree : 3 ≤ length) :
    ReservedSet (reserveOrShrink rls length).2 ∧ rls ⊆ (reserveOrShrink rls length).2 ∧
      BitVec.ofNat 4 ((reserveOrShrink rls length).1 - 3) ∈ (reserveOrShrink rls length).2 := by
  obtain ⟨hmem, heq⟩ | ⟨hnew, hroom, heq⟩ | ⟨hnew, -, heq⟩ := reserveOrShrink_cases rls length <;> rw [heq]
  · exact ⟨h, List.Subset.refl rls, hmem⟩
  · exact ⟨h.insertAscending hnew hroom, fun e he => mem_insertAscending.mpr (.inr he),
      mem_insertAscending.mpr (.inl rfl)⟩
  · obtain ⟨e, he, hshrink, -, -⟩ := shrink_eq_least h.ascending ⟨0#4, h.low, h.three_lt hthree hnew⟩
    refine ⟨h, List.Subset.refl rls, ?_⟩
    rw [hshrink, Nat.add_sub_cancel, BitVec.ofNat_toNat, BitVec.setWidth_eq]
    exact he

section
variable {input : Bytes} {cur : Nat} {rls : List Nibble}

/-- A sequence found copies an equal run, and its length is reserved in the set after it (R135 to R139). -/
theorem findSequence_spells (hset : ReservedSet rls) (hcur : cur ≤ input.length) {r : Op × List Nibble}
    (h : findSequence input cur rls = some r) : ReservedSet r.2 ∧ rls ⊆ r.2 ∧ Spells input r.2 cur r.1 := by
  obtain ⟨-, hnone⟩ | ⟨m, hm, hsome⟩ := findSequence_cases input cur rls
  · rw [hnone] at h
    cases h
  · rw [hsome] at h
    cases h
    obtain ⟨hthree, hone, hwindow, hlength, -⟩ := findMatch_spec hm
    obtain ⟨hset', hsub, hcode⟩ := hset.reserveOrShrink hthree
    obtain ⟨hmin, hmax⟩ := reserveOrShrink_range hthree rls
    have hrun : EqualRun input cur (cur - m.distance) (reserveOrShrink rls m.length).1 :=
      (hlength ▸ equalRun_runAt hcur hone hwindow).shorten hmax
    rw [length_lookback hcur] at hwindow
    have hoffset : -(m.distance : Int) = ((cur - m.distance : Nat) : Int) - cur := by omega
    exact ⟨hset', hsub, hoffset ▸ .copy hmin hrun hcode⟩

/-- A pattern planned is the one that `classify` answers for the two bytes ahead (R141, R142). -/
theorem planPattern_spells {level : Level} {op : Op} (h : planPattern level (input.drop cur) = some op) :
    Spells input rls cur op := by
  obtain ⟨-, b0, b1, more, -, -, hahead, -⟩ := planPattern_some h
  rw [hahead, planPattern_cons_cons, Option.bind_eq_some_iff] at h
  obtain ⟨⟨i, l⟩, hclass, hop⟩ := h
  split at hop <;> cases hop
  have h0 : (input.drop cur)[0]? = some b0 := by rw [hahead]; rfl
  have h1 : (input.drop cur)[1]? = some b1 := by rw [hahead]; rfl
  rw [List.getElem?_drop] at h0 h1
  exact .pattern h0 h1 hclass

/-- Every answer of `plan_one` stands for the input at the cursor (R134). -/
theorem planOne_spells (hset : ReservedSet rls) {b : Byte} {more : Bytes} (hb : input.drop cur = b :: more)
    (level : Level) (order : Order) :
    let r := planOne level order input cur b rls
    ReservedSet r.2 ∧ rls ⊆ r.2 ∧ Spells input r.2 cur r.1 := by
  have hb0 : (input.drop cur)[0]? = some b := by rw [hb]; rfl
  rw [List.getElem?_drop, Nat.add_zero] at hb0
  obtain ⟨hcur, -⟩ := List.getElem?_eq_some_iff.mp hb0
  obtain ⟨r, -, hr, heq⟩ | ⟨op, hop, heq⟩ | heq := planOne_cases level order input cur b rls <;> rw [heq]
  · exact findSequence_spells hset (Nat.le_of_lt hcur) hr
  · exact ⟨hset, List.Subset.refl rls, planPattern_spells hop⟩
  · exact ⟨hset, List.Subset.refl rls, .literal hb0⟩

/-! ### The plan -/

/-- The operations stand for the input one after the other, from the cursor on. -/
def SpellsAll (input : Bytes) (rls : List Nibble) : Nat → List Op → Prop
  | _, [] => True
  | cur, op :: ops => Spells input rls cur op ∧ SpellsAll input rls (cur + consumed op) ops

theorem SpellsAll.mono {ops : List Op} (h : SpellsAll input rls cur ops) {rls' : List Nibble} (hsub : rls ⊆ rls') :
    SpellsAll input rls' cur ops := by
  induction ops generalizing cur with
  | nil => trivial
  | cons op ops ih =>
    obtain ⟨hop, hops⟩ := h
    exact ⟨hop.mono hsub, ih hops⟩

theorem SpellsAll.concat {ops : List Op} (h : SpellsAll input rls cur ops) {op : Op}
    (hop : Spells input rls (cur + (ops.map consumed).sum) op) : SpellsAll input rls cur (ops ++ [op]) := by
  induction ops generalizing cur with
  | nil => exact ⟨hop, trivial⟩
  | cons head ops ih =>
    obtain ⟨hhead, hops⟩ := h
    refine ⟨hhead, ih hops ?_⟩
    rwa [List.map_cons, List.sum_cons, ← Nat.add_assoc] at hop

theorem SpellsAll.exists_spells {ops : List Op} (h : SpellsAll input rls cur ops) :
    ∀ op ∈ ops, ∃ c, Spells input rls c op := by
  induction ops generalizing cur with
  | nil => simp
  | cons op ops ih =>
    obtain ⟨hop, hops⟩ := h
    exact List.forall_mem_cons.mpr ⟨⟨cur, hop⟩, ih hops⟩

/-- What every turn of planning keeps: the set is a ReservedLengthSet, and the operations so far stand for the input up
to the cursor. -/
structure PxcWork.Spelled (input : Bytes) (w : PxcWork) : Prop where
  set : ReservedSet w.rls
  covers : w.Covers input
  spells : SpellsAll input w.rls 0 w.ops

theorem reservedSet_seed : ReservedSet Config.rlsSeed :=
  ⟨by decide, by decide, by decide, by decide⟩

theorem PxcWork.spelled_start (level : Level) (order : Order) : (PxcWork.start level order).Spelled input where
  set := reservedSet_seed
  covers := PxcWork.covers_start level order
  spells := trivial

theorem PxcWork.Spelled.planNext {w w' : PxcWork} (h : w.Spelled input) (hnext : w.planNext input = some w') :
    w'.Spelled input := by
  have hcovers := (h.covers.planNext hnext).1
  obtain ⟨b, more, op, rls, hb, hop, rfl⟩ := PxcWork.planNext_some hnext
  have hspells := planOne_spells h.set hb w.level w.order
  rw [hop] at hspells
  obtain ⟨hset, hsub, hspells⟩ := hspells
  refine ⟨hset, hcovers, (h.spells.mono hsub).concat ?_⟩
  rwa [Nat.zero_add, ← h.covers.covered]

theorem spelled_plan (level : Level) (order : Order) : (plan level order input).Spelled input :=
  planLoop_induction (fun _ _ h hnext => h.planNext hnext) _ (PxcWork.spelled_start level order)

end

/-! ### Its table encodes it -/

/-- What stands for the input is in range, and the table built from its set encodes it: a pattern has a flag of its own,
and the code of a copy's length is no flag (R145, R190). -/
theorem Spells.encodable {input : Bytes} {rls : List Nibble} {cur : Nat} {op : Op} (h : Spells input rls cur op)
    (hsize : rls.length ≤ 7) (fill : FlagFill) : op.wf = true ∧ op.encodable (buildFlags fill rls) = true := by
  cases h with
  | literal => exact ⟨rfl, rfl⟩
  | pattern => exact ⟨rfl, Op.encodable_nibblePattern_of_wf (wf_buildFlags hsize fill) _ _⟩
  | @copy s length hthree hrun hcode =>
    obtain ⟨hwindow, hs, hmax, -, -, -⟩ := hrun
    refine ⟨?inRange, ?noFlag⟩
    case inRange =>
      simp only [Op.wf, Bool.and_eq_true, decide_eq_true_eq]
      omega
    case noFlag =>
      have hno := reserved_notMem_buildFlags hsize hcode fill
      refine Op.encodable_sequence_iff.mpr fun i heq => hno ?_
      have hentry : (BitVec.ofNat 4 (length - 3)).setWidth 8 = (buildFlags fill rls).get i := by
        apply BitVec.eq_of_toNat_eq
        rw [toNat_setWidth_nibble, BitVec.toNat_ofNat, Nat.mod_eq_of_lt (by omega), heq]
      rw [hentry]
      exact Cft.get_mem_entries _ i

end Sys2Proof.Machine
end

section
/-! SUPPORT. PXD run over what PXC emits: each operation extends OUT by the input it stands for, and the fetch meets the
operations in their order; O32 (41_px_decompressor.md R170 to R174, R193). -/

namespace Sys2Proof.Machine

/-! ### OUT is the input up to the cursor -/

theorem take_concat {input : Bytes} {cur : Nat} {b : Byte} (h : input[cur]? = some b) :
    input.take cur ++ [b] = input.take (cur + 1) := by
  rw [List.take_add_one, h, Option.toList_some]

/-- Copying an equal run from before the cursor extends what OUT holds of the input by the run. -/
theorem copyBytes_take {input : Bytes} {cur s count : Nat} (hs : s < cur) (hinside : cur + count ≤ input.length)
    (heq : ∀ j < count, input[s + j]? = input[cur + j]?) :
    copyBytes count s (input.take cur) = input.take (cur + count) := by
  induction count generalizing s cur with
  | zero => rfl
  | succ count ih =>
    have hcur : input[cur]? = some input[cur] := List.getElem?_eq_getElem (by omega)
    have hread : (input.take cur)[s]? = some input[cur] := by
      rw [List.getElem?_take_of_lt hs, ← hcur]
      exact heq 0 (Nat.succ_pos count)
    have hnext : ∀ j < count, input[s + 1 + j]? = input[cur + 1 + j]? := by
      intro j hj
      rw [Nat.add_assoc, Nat.add_assoc, Nat.add_comm 1 j]
      exact heq (j + 1) (Nat.succ_lt_succ hj)
    rw [copyBytes, hread]
    dsimp only
    rw [take_concat hcur, ih (by omega) (by omega) hnext]
    congr 1
    omega

theorem Memory.copyBack_take {input : Bytes} {cur s count : Nat} (h : EqualRun input cur s count) :
    Memory.copyBack count s (Memory.ofBytes (input.take cur)) = Memory.ofBytes (input.take (cur + count)) := by
  obtain ⟨-, hs, -, hinside, -, heq⟩ := h
  have hwf := Memory.wf_ofBytes (input.take cur)
  refine Memory.eq_of_bytes_eq (Memory.wf_copyBack hwf count s) (Memory.wf_ofBytes _) ?_
  rw [Memory.bytes_copyBack hwf, Memory.bytes_ofBytes, Memory.bytes_ofBytes, copyBytes_take hs hinside heq]

/-- An operation that stands for the input at the cursor extends OUT by the bytes it covers (R144). -/
theorem Spells.apply {input : Bytes} {rls : List Nibble} {cur : Nat} {op : Op} (h : Spells input rls cur op)
    {w : PxdWork} (hout : w.out = Memory.ofBytes (input.take cur)) (range : PatternRange) :
    w.apply range op =
      .ok ({ w with out := Memory.ofBytes (input.take (cur + consumed op)) }.advance op.size) := by
  cases h with
  | literal h =>
    rw [consumed, ← take_concat h, ← Memory.append_ofBytes, ← hout]
    rfl
  | pattern h0 h1 h =>
    rw [PxdWork.apply_pattern (pattern_of_classify h range), consumed, ← take_concat h1, ← take_concat h0,
      ← Memory.append_ofBytes, ← Memory.append_ofBytes, ← hout]
    rfl
  | @copy s length hthree hrun hcode =>
    have hlen : w.out.len = cur := by
      obtain ⟨-, -, -, hinside, -, -⟩ := hrun
      rw [hout, Memory.len_ofBytes, List.length_take, Nat.min_eq_left (by omega)]
    have hsource : w.copySource ((s : Int) - cur) = s := by
      rw [PxdWork.copySource, hlen]
      omega
    rw [consumed, ← Memory.copyBack_take hrun, ← hout]
    simp [PxdWork.apply, PxdWork.sequence, hsource, Op.size]

/-! ### The fetch meets the operations in their order -/

/-- The run stands before the operations. Outside a block their payload is ahead. Inside a block in which `n` more
operations fit, the bytes of the next `n` are ahead, whose bits are those of the command byte, and then the payload of
the operations after them. -/
inductive PxdWork.StandsBefore (w : PxdWork) (ops : List Op) : Prop
  | outside (hc : w.cmdb = none) (hrest : w.rest = emit w.flags ops)
  | inside {c : Byte} (hc : w.cmdb = some c) (n : Nat) (hn : w.k.val + n = 8)
      (hrest : w.rest = (ops.take n).flatMap (encodeOp w.flags) ++ emit w.flags (ops.drop n))
      (hbits : ∀ j < n, ∀ op, ops[j]? = some op → commandBit c (w.k.val + j) = op.isCopy)

theorem emit_nil (t : Cft) : emit t [] = [] := rfl

theorem emit_ne_nil {t : Cft} {ops : List Op} (h : ops ≠ []) : emit t ops ≠ [] := by
  rw [emit_eq_block h]
  simp

theorem encodeOp_ne_nil (t : Cft) (op : Op) : encodeOp t op ≠ [] := by
  cases op <;> simp [encodeOp]

/-- The bits of a block's command byte are the command bits of its operations (R92). -/
theorem commandBit_commandByte_eq {ops : List Op} {j : Nat} (hj : j < 8) {op : Op} (h : ops[j]? = some op) :
    commandBit (commandByte (ops.take 8) 0) j = op.isCopy := by
  rw [Bool.eq_iff_iff, commandBit_commandByte (List.length_take_le 8 ops) ⟨j, hj⟩, isCopy_iff,
    List.getElem?_take_of_lt hj, h]
  simp

section
variable {w : PxdWork} {ops : List Op}

theorem PxdWork.rest_advance (w : PxdWork) (n : Nat) (out : Memory) :
    ({ w with out := out }.advance n).rest = w.rest.drop n := by
  simp [PxdWork.rest]

theorem PxdWork.rest_loadCommandByte (w : PxdWork) (c : Byte) : (w.loadCommandByte c).rest = w.rest.drop 1 := by
  simp [PxdWork.rest]

theorem PxdWork.StandsBefore.rest_eq_nil_iff (h : w.StandsBefore ops) : w.rest = [] ↔ ops = [] := by
  cases h with
  | outside hc hrest =>
    rw [hrest]
    exact ⟨fun hemit => by_contra fun hne => emit_ne_nil hne hemit, fun hnil => by rw [hnil, emit_nil]⟩
  | @inside c hc n hn hrest hbits =>
    rw [hrest]
    cases ops with
    | nil => simp [emit_nil]
    | cons op ops =>
      obtain ⟨m, rfl⟩ : ∃ m, n = m + 1 := ⟨n - 1, by omega⟩
      simp [encodeOp_ne_nil]

/-- Outside a block a command byte is ahead, and after it the run stands before the same operations. -/
theorem PxdWork.StandsBefore.fetch_commandByte (h : w.StandsBefore ops) (hne : ops ≠ []) (hc : w.cmdb = none) :
    ∃ c, w.fetch = .commandByte c ∧ (w.loadCommandByte c).StandsBefore ops := by
  cases h with
  | inside hc' => exact absurd (hc.symm.trans hc') (Option.some_ne_none _).symm
  | outside _ hrest =>
    rw [emit_eq_block hne, List.append_assoc, List.singleton_append] at hrest
    refine ⟨commandByte (ops.take 8) 0, by simp [PxdWork.fetch, hc, hrest],
      .inside rfl 8 rfl ?_ fun j hj op hop => ?_⟩
    · rw [PxdWork.rest_loadCommandByte, hrest]
      rfl
    · simpa using commandBit_commandByte_eq hj hop

/-- Inside a block the next operation is ahead, and after it the run stands before the others. -/
theorem PxdWork.StandsBefore.fetch_operation {op : Op} (h : w.StandsBefore (op :: ops)) {c : Byte}
    (hc : w.cmdb = some c) (hwf : op.wf = true) (hop : op.encodable w.flags = true) :
    w.fetch = .operation op ∧ ∀ out, ({ w with out := out }.advance op.size).StandsBefore ops := by
  cases h with
  | outside hc' => exact absurd (hc.symm.trans hc') (Option.some_ne_none _)
  | @inside c' hc' n hn hrest hbits =>
    obtain rfl : c = c' := Option.some.inj (hc.symm.trans hc')
    obtain ⟨m, rfl⟩ : ∃ m, n = m + 1 := ⟨n - 1, by omega⟩
    rw [List.take_succ_cons, List.drop_succ_cons, List.flatMap_cons, List.append_assoc] at hrest
    have hbit : commandBit c w.k.val = op.isCopy := hbits 0 (Nat.succ_pos m) op rfl
    refine ⟨PxdWork.fetch_of_decodeOp hc (by rw [hrest, hbit, decodeOp_encodeOp hwf hop]), fun out => ?_⟩
    have hrest' : ({ w with out := out }.advance op.size).rest =
        (ops.take m).flatMap (encodeOp w.flags) ++ emit w.flags (ops.drop m) := by
      rw [PxdWork.rest_advance, hrest, ← length_encodeOp w.flags op, List.drop_left]
    by_cases hlast : w.k = 7
    · obtain ⟨hcmdb, -⟩ := PxdWork.advance_of_last { w with out := out } op.size hlast
      have hk : w.k.val = 7 := congrArg Fin.val hlast
      obtain rfl : m = 0 := by omega
      exact .outside hcmdb (by simpa using hrest')
    · obtain ⟨hcmdb, hk⟩ := PxdWork.advance_of_inner { w with out := out } op.size hlast
      refine .inside (hcmdb.trans hc) m (by rw [hk]; dsimp only; omega) (by simpa using hrest') fun j hj op' hop' => ?_
      rw [hk, Nat.add_assoc, Nat.add_comm 1 j]
      exact hbits (j + 1) (Nat.succ_lt_succ hj) op' hop'

end

/-! ### The run -/

/-- From a run that stands before operations that stand for the input, PXD answers the input up to where they end. -/
theorem pxdLoop_spells {input : Bytes} {rls : List Nibble} {cur fuel : Nat} {w : PxdWork} {ops : List Op}
    (hbefore : w.StandsBefore ops) (hspells : SpellsAll input rls cur ops)
    (hops : ∀ op ∈ ops, op.wf = true ∧ op.encodable w.flags = true)
    (hout : w.out = Memory.ofBytes (input.take cur)) (hfuel : w.rest.length ≤ fuel) (range : PatternRange) :
    pxdLoop range fuel w = .ok (Memory.ofBytes (input.take (cur + (ops.map consumed).sum))) := by
  induction fuel generalizing w ops cur with
  | zero =>
    obtain rfl := hbefore.rest_eq_nil_iff.mp (List.eq_nil_of_length_eq_zero (Nat.le_zero.mp hfuel))
    rw [pxdLoop, hout]
    rfl
  | succ fuel ih =>
    cases ops with
    | nil =>
      rw [pxdLoop, w.fetch_finished_iff.mpr (hbefore.rest_eq_nil_iff.mpr rfl), hout]
      rfl
    | cons op ops =>
      cases hc : w.cmdb with
      | none =>
        obtain ⟨c, hfetch, hnext⟩ := hbefore.fetch_commandByte (List.cons_ne_nil op ops) hc
        have hless : (w.loadCommandByte c).rest.length ≤ fuel := by
          rw [PxdWork.rest_loadCommandByte, List.length_drop]
          omega
        rw [pxdLoop, hfetch]
        exact ih hnext hspells hops hout hless
      | some c =>
        obtain ⟨hop, hrest⟩ := hspells
        obtain ⟨⟨hwf, henc⟩, hopsOk⟩ := List.forall_mem_cons.mp hops
        obtain ⟨hfetch, hnext⟩ := hbefore.fetch_operation hc hwf henc
        have hless : ({ w with out := Memory.ofBytes (input.take (cur + consumed op)) }.advance op.size).rest.length
            ≤ fuel := by
          rw [PxdWork.rest_advance, List.length_drop]
          have := one_le_size op
          omega
        rw [pxdLoop, hfetch]
        simp only [hop.apply hout range]
        rw [ih (hnext _) hrest (by simpa using hopsOk) (by simp) hless, List.map_cons, List.sum_cons, Nat.add_assoc]

theorem PxdWork.standsBefore_start (t : Cft) (ops : List Op) :
    (PxdWork.start (Memory.ofBytes (emit t ops)) t).StandsBefore ops :=
  .outside rfl (by simp [PxdWork.rest])

/-- PXD answers the input that the operations of an emitted payload stand for, if the table encodes them. -/
theorem pxd_emit {input : Bytes} {rls : List Nibble} {ops : List Op} {t : Cft} (hspells : SpellsAll input rls 0 ops)
    (hops : ∀ op ∈ ops, op.wf = true ∧ op.encodable t = true) (range : PatternRange) :
    pxd range (Memory.ofBytes (emit t ops)) t = .ok (Memory.ofBytes (input.take (ops.map consumed).sum)) := by
  have hfuel : (PxdWork.start (Memory.ofBytes (emit t ops)) t).rest.length ≤ (Memory.ofBytes (emit t ops)).len :=
    Nat.le_of_eq (PxdWork.length_rest _)
  rw [pxd, pxdLoop_spells (PxdWork.standsBefore_start t ops) hspells hops rfl hfuel, Nat.zero_add]

/-- Settles O32: the plan stands for the whole input, and its table encodes it. -/
theorem decompressInvertsCompress : Obligations.DecompressInvertsCompress := by
  intro fill level order range input r hr
  obtain ⟨-, heq⟩ | ⟨-, ⟨-, heq⟩ | ⟨-, heq⟩⟩ := pxc_cases fill level order input <;> rw [heq] at hr <;> cases hr
  have hplan := spelled_plan (input := input) level order
  have hops : ∀ op ∈ (plan level order input).ops, op.wf = true ∧
      op.encodable (buildFlags fill (plan level order input).rls) = true := by
    intro op hop
    obtain ⟨cur, hspells⟩ := hplan.spells.exists_spells op hop
    exact hspells.encodable hplan.set.size fill
  rw [pxd_emit hplan.spells hops, sum_consumed_plan, List.take_length]

end Sys2Proof.Machine
end

section
/-! SUPPORT. CSIZE and FDES: the stored size field as a sum of its bytes, and the plug-in's answers; O34 and O35
(42_container_formats.md R203, R236, R237). -/

namespace Sys2Proof.Machine

/-! ### CSIZE of the formats with a layout -/

/-- The four CSIZE commands differ in the magic they look for, which is five bytes in each. -/
theorem exec_csize {i : Instr} {magic : Bytes}
    (h : (i, magic) ∈ [(Instr.csizeAt3px, magicAt3px), (.csizeAt4px, magicAt4px), (.csizePkdpx, magicPkdpx),
      (.csizeAtupx, magicAtupx)]) (s : State) :
    exec i s = .next (s.finish {} ((sizeField magic s.src.bytes s.cmdOffset).map sizeResult)) ∧ magic.length = 5 := by
  simp only [List.mem_cons, List.not_mem_nil, or_false, Prod.mk.injEq] at h
  obtain ⟨rfl, rfl⟩ | ⟨rfl, rfl⟩ | ⟨rfl, rfl⟩ | ⟨rfl, rfl⟩ := h
  all_goals exact ⟨rfl, rfl⟩

/-- A stored u16 zero-extended to RES is the sum of its two bytes (R203). -/
theorem setWidth_u16le {l : Bytes} {i : Nat} {lo hi : Byte} (hlo : l[i]? = some lo) (hhi : l[i + 1]? = some hi) :
    (u16le l i).setWidth 32 = BitVec.ofNat 32 (lo.toNat + 256 * hi.toNat) := by
  have hsum : u16le l i = BitVec.ofNat 16 (lo.toNat + 256 * hi.toNat) := by
    rw [u16le_eq_sum, List.getD_eq_getElem?_getD, List.getD_eq_getElem?_getD, hlo, hhi]
    rfl
  apply BitVec.eq_of_toNat_eq
  rw [hsum, BitVec.toNat_setWidth_of_le (by decide), BitVec.toNat_ofNat, BitVec.toNat_ofNat]
  omega

/-- Settles O34: the three clauses are the three outcomes of CSIZE, told apart by the magic and the two size bytes. -/
theorem sizeIsTheStoredField : Obligations.SizeIsTheStoredField := by
  intro s i magic hmem o there
  obtain ⟨hexec, hlen⟩ := exec_csize hmem s
  have hthere : startsWith magic s.src.bytes o = true ↔ there := by
    rw [startsWith_iff, hlen, Memory.length_bytes]
  have hbytes := s.src.length_bytes
  rw [hexec]
  obtain ⟨hno, heq⟩ | ⟨hyes, hshort, heq⟩ | ⟨hyes, hfits, heq⟩ := sizeField_cases magic s.src.bytes o <;> rw [heq]
  case inl =>
    have hnot : ¬ there := fun h => Bool.false_ne_true (hno.symm.trans (hthere.mpr h))
    exact ⟨fun _ => rfl, fun h => absurd h hnot, fun _ _ h => absurd h hnot⟩
  case inr.inl =>
    refine ⟨absurd (hthere.mp hyes), fun _ _ => rfl, fun lo hi _ _ hhi => ?_⟩
    rw [List.getElem?_eq_none (by omega)] at hhi
    cases hhi
  case inr.inr =>
    refine ⟨absurd (hthere.mp hyes), fun _ hlt => absurd hlt (by omega), fun lo hi _ hlo hhi => ?_⟩
    rw [setWidth_u16le hlo hhi]
    rfl

/-! ### The plug-in's answers -/

section
variable {p : Params} {plug : PlugIn} {src : Bytes} {o : Nat}

theorem matchesFormat_at4pn_present (h : p.plug = some plug) :
    matchesFormat p .at4pn src o = startsWith (plugMagic plug) src o := by
  simp only [matchesFormat, matchesPlug, h]

/-- Without the magic neither command asks the plug-in, be it absent or present (R236, R237). -/
theorem plug_mismatch (hmatch : matchesFormat p .at4pn src o = false) :
    sizePlug p src o = .error (corrupt .magicMismatch) ∧ parsePlug p src o = .error (corrupt .magicMismatch) := by
  cases hplug : p.plug with
  | none => simp [sizePlug, parsePlug, hplug]
  | some plug =>
    rw [matchesFormat_at4pn_present hplug] at hmatch
    simp [sizePlug, parsePlug, hplug, hmatch]

theorem sizePlug_forwards (hplug : p.plug = some plug) (hmatch : matchesFormat p .at4pn src o = true) :
    sizePlug p src o = (plugContainerSize plug src o).elim (.error (corrupt .codecFailed)) .ok := by
  rw [matchesFormat_at4pn_present hplug] at hmatch
  simp only [sizePlug, hplug, if_pos hmatch]
  cases plugContainerSize plug src o <;> rfl

theorem parsePlug_forwards (hplug : p.plug = some plug) (hmatch : matchesFormat p .at4pn src o = true) :
    parsePlug p src o =
      (plugDecode plug src o).elim (.error (corrupt .codecFailed)) fun blob => .ok (.at4pn blob) := by
  rw [matchesFormat_at4pn_present hplug] at hmatch
  simp only [parsePlug, hplug, if_pos hmatch]
  cases plugDecode plug src o <;> rfl

end

theorem exec_csizeAt4pn (s : State) :
    exec .csizeAt4pn s = .next (s.finish {} ((sizePlug s.params s.src.bytes s.cmdOffset).map sizeResult)) := rfl

theorem exec_fdesAt4pn (s : State) :
    exec .fdesAt4pn s = .next (s.finishContainer (parsePlug s.params s.src.bytes s.cmdOffset)) := rfl

/-- Settles O35: each command ends as the answer of the plug-in's function says, where the magic is there. -/
theorem plugSizeAndParseForward : Obligations.PlugSizeAndParseForward := by
  intro s
  rw [exec_csizeAt4pn, exec_fdesAt4pn]
  refine ⟨fun hmatch => ?mismatch, fun plug hplug hmatch => ?forward⟩
  case mismatch =>
    obtain ⟨hsize, hparse⟩ := plug_mismatch hmatch
    rw [hsize, hparse]
    exact ⟨rfl, rfl⟩
  case forward =>
    rw [sizePlug_forwards hplug hmatch, parsePlug_forwards hplug hmatch]
    refine ⟨fun v h => ?_, fun h => ?_, fun blob h => ?_, fun h => ?_⟩ <;> rw [h] <;> rfl

end Sys2Proof.Machine
end

section
/-! SUPPORT. FCOMP: the PX formats around whatever PXC answers, ATUPX and AT4PN around whatever the plug-ins answer; O38
and O40 (42_container_formats.md R206, R232, R239). -/

namespace Sys2Proof.Machine

/-! ### The PX formats -/

theorem exec_fcompAt3px (s : State) :
    exec .fcompAt3px s = .next (s.finishContainer (wrapPx s.params 16 s.src.bytes .at3px)) := rfl

theorem exec_fcompPkdpx (s : State) :
    exec .fcompPkdpx s = .next (s.finishContainer (wrapPx s.params 20 s.src.bytes fun n flags m =>
      .pkdpx n flags (BitVec.ofNat 32 s.src.bytes.length) m)) := rfl

theorem exec_fcompAt4px (s : State) :
    exec .fcompAt4px s = .next (s.finishContainer (compressAt4px s.params s.src.bytes)) := rfl

theorem compressAt4px_tooLong {b : Bytes} (h : 65535 < b.length) (p : Params) :
    compressAt4px p b = .error ⟨.inputTooLarge, .none⟩ :=
  if_pos h

theorem compressAt4px_fits {b : Bytes} (h : b.length ≤ 65535) (p : Params) :
    compressAt4px p b = wrapPx p 18 b fun n flags m => .at4px n flags (BitVec.ofNat 16 b.length) m :=
  if_neg (Nat.not_lt.mpr h)

/-- Settles O38: the common part of the three formats ends as PXC and the container limit say. -/
theorem pxContainersFollowPxc : Obligations.PxContainersFollowPxc := by
  intro s b p wrapped
  have hwrap : ∀ hdr mk, s.finishContainer (wrapPx p hdr b mk) = wrapped hdr mk := by
    intro hdr mk
    obtain ⟨e, hpxc, heq⟩ | ⟨r, hpxc, ⟨hlarge, heq⟩ | ⟨hfits, -, heq⟩⟩ := wrapPx_cases p hdr b mk
    all_goals rw [formatPxc] at hpxc; simp only [wrapped, hpxc]; rw [heq]
    case inl => rfl
    case inr.inl => rw [if_pos hlarge]; rfl
    case inr.inr => rw [if_neg (Nat.not_lt.mpr hfits)]; rfl
  rw [exec_fcompAt3px, exec_fcompAt4px, exec_fcompPkdpx]
  refine ⟨congrArg _ (hwrap 16 _), fun hle => ?fits, fun hlt => ?tooLong, congrArg _ (hwrap 20 _)⟩
  case fits => rw [compressAt4px_fits hle, hwrap]
  case tooLong => rw [compressAt4px_tooLong hlt, State.finishContainer_error]

/-! ### ATUPX and AT4PN -/

theorem totalSize_tooLarge {hdr : Nat} {payload : Bytes} (h : 65535 < hdr + payload.length) :
    totalSize hdr payload = .error ⟨.outputTooLarge, .none⟩ :=
  if_pos h

theorem totalSize_fits {hdr : Nat} {payload : Bytes} (h : hdr + payload.length ≤ 65535) :
    totalSize hdr payload = .ok (BitVec.ofNat 16 (hdr + payload.length)) :=
  if_neg (Nat.not_lt.mpr h)

section
variable {p : Params} {ext : ExtCodec} {plug : PlugIn} {b : Bytes}

theorem compressAtupx_absent (h : p.ext = none) : compressAtupx p b = .error ⟨.noUsableCompression, .codecAbsent⟩ := by
  simp only [compressAtupx, h]

theorem compressAtupx_tooLong (h : p.ext = some ext) (hlong : 4294967295 < b.length) :
    compressAtupx p b = .error ⟨.inputTooLarge, .none⟩ := by
  simp only [compressAtupx, h]
  exact if_pos hlong

/-- Past the input check the codec is asked, and what it returns is framed (R232). -/
theorem compressAtupx_frames (h : p.ext = some ext) (hlen : b.length ≤ 4294967295) :
    compressAtupx p b = (extCompress ext b).elim (.error ⟨.noUsableCompression, .codecFailed⟩) fun r =>
      (totalSize 11 r).map fun total => .atupx total (BitVec.ofNat 32 b.length) (Memory.ofBytes r) := by
  have hnot : ¬ Config.maxU32 < b.length := Nat.not_lt.mpr hlen
  simp only [compressAtupx, h, if_neg hnot]
  cases extCompress ext b with
  | none => rfl
  | some r =>
    simp only [hdrAtupx, Option.elim_some]
    cases totalSize 11 r <;> rfl

theorem compressPlug_absent (h : p.plug = none) : compressPlug p b = .error ⟨.noUsableCompression, .codecAbsent⟩ := by
  simp only [compressPlug, h]

theorem compressPlug_forwards (h : p.plug = some plug) :
    compressPlug p b =
      (plugCompress plug b).elim (.error ⟨.noUsableCompression, .codecFailed⟩) fun blob => .ok (.at4pn blob) := by
  simp only [compressPlug, h]
  cases plugCompress plug b <;> rfl

end

theorem exec_fcompAtupx (s : State) :
    exec .fcompAtupx s = .next (s.finishContainer (compressAtupx s.params s.src.bytes)) := rfl

theorem exec_fcompAt4pn (s : State) :
    exec .fcompAt4pn s = .next (s.finishContainer (compressPlug s.params s.src.bytes)) := rfl

/-- Settles O40: each clause is the equation of the format's compression for it. -/
theorem plugInCompressionIsHeld : Obligations.PlugInCompressionIsHeld := by
  intro s b
  rw [exec_fcompAtupx, exec_fcompAt4pn]
  refine ⟨fun hext => ?extAbsent, fun ext hext hlong => ?tooLong, fun ext hext hlen hnone => ?extDeclines,
    fun ext r hext hlen hsome hlarge => ?tooLarge, fun ext r hext hlen hsome hfits => ?framed,
    fun hplug => ?plugAbsent, fun plug hplug => ⟨fun hnone => ?plugDeclines, fun blob hsome => ?held⟩⟩
  case extAbsent => rw [compressAtupx_absent hext, State.finishContainer_error]
  case tooLong => rw [compressAtupx_tooLong hext hlong, State.finishContainer_error]
  case extDeclines => rw [compressAtupx_frames hext hlen, hnone, Option.elim_none, State.finishContainer_error]
  case tooLarge =>
    rw [compressAtupx_frames hext hlen, hsome, Option.elim_some, totalSize_tooLarge hlarge]
    rfl
  case framed =>
    rw [compressAtupx_frames hext hlen, hsome, Option.elim_some, totalSize_fits hfits]
    rfl
  case plugAbsent => rw [compressPlug_absent hplug, State.finishContainer_error]
  case plugDeclines => rw [compressPlug_forwards hplug, hnone, Option.elim_none, State.finishContainer_error]
  case held => rw [compressPlug_forwards hplug, hsome, Option.elim_some, State.finishContainer_ok]

end Sys2Proof.Machine
end

section
/-! SUPPORT. FSER and FDEC of a held container: a run of its payload to the end, or the plug-ins' answers; O42 and O43
(42_container_formats.md R207, R233, R238, R240). -/

namespace Sys2Proof.Machine

/-! ### The container in CT -/

section
variable {s : State} {c : Container}

theorem exec_fdec (h : s.ct.value = some c) : exec .fdec s = .next (s.decompress c) := by
  simp only [exec, execFdec, h]

theorem exec_fser (h : s.ct.value = some c) :
    exec .fser s = .next (s.finish {} ((serialize s.params c).map bytesResult)) := by
  simp only [exec, execFser, h]

end

/-! ### A run to its end -/

section
variable {s : State} {g : Goal} {m : Memory} {flags : Cft}

theorem State.runStream_command (h : s.params.granularity = .command) :
    s.runStream g m flags = s.streamToEnd g m flags := by
  simp only [State.runStream, h]

theorem State.streamToEnd_error {e : Cause} (h : pxd s.params.patternRange m flags = .error e) :
    s.streamToEnd g m flags = s.raise ⟨.corruptContainer, e⟩ {} := by
  simp only [State.streamToEnd, h]

theorem State.streamToEnd_ok {out : Memory} (h : pxd s.params.patternRange m flags = .ok out) :
    s.streamToEnd g m flags = s.finishStream g out := by
  simp only [State.streamToEnd, h]

end

/-- FDEC puts OUT into DST where its length is the asserted one, and always where none is asserted (R207). -/
theorem State.finishStream_fdec_done {asserted : Option Nat} {out : Memory} (h : ∀ n, asserted = some n → out.len = n)
    (s : State) : s.finishStream (.fdec asserted) out = s.done { dst := some out } := by
  cases asserted with
  | none => rfl
  | some n => exact if_pos (h n rfl)

theorem State.finishStream_fdec_mismatch {n : Nat} {out : Memory} (h : out.len ≠ n) (s : State) :
    s.finishStream (.fdec (some n)) out = s.raise ⟨.corruptContainer, .sizeMismatch⟩ {} :=
  if_neg h

/-- Settles O42: FDEC runs the payload of each PX format to its end with the length the format asserts. -/
theorem pxContainersDecode : Obligations.PxContainersDecode := by
  intro s c flags m asserted hct hgran hformat
  have hrun : s.decompress c = s.streamToEnd (.fdec asserted) m flags := by
    rw [← State.runStream_command hgran]
    obtain ⟨n, rfl, rfl⟩ | ⟨n, d, rfl, rfl⟩ | ⟨n, d, rfl, rfl⟩ := hformat
    all_goals rfl
  rw [exec_fdec hct, hrun]
  refine ⟨fun e herror => by rw [State.streamToEnd_error herror], fun out hok => ?decoded⟩
  case decoded =>
    rw [State.streamToEnd_ok hok]
    refine ⟨fun hlen => by rw [State.finishStream_fdec_done hlen], ?_⟩
    rintro n rfl hlen
    rw [State.finishStream_fdec_mismatch hlen]

/-! ### The plug-ins' answers -/

section
variable {p : Params} {ext : ExtCodec} {plug : PlugIn} {d : BitVec 32} {m : Memory} {blob : Bytes}

theorem decompressAtupx_absent (h : p.ext = none) :
    decompressAtupx p d m = .error ⟨.noUsableCompression, .codecAbsent⟩ := by
  simp only [decompressAtupx, h]

theorem decompressAtupx_forwards (h : p.ext = some ext) :
    decompressAtupx p d m = (extDecompress ext m.bytes d.toNat).elim (.error (corrupt .codecFailed)) .ok := by
  simp only [decompressAtupx, h]
  cases extDecompress ext m.bytes d.toNat <;> rfl

theorem decompressPlug_absent (h : p.plug = none) :
    decompressPlug p blob = .error ⟨.noUsableCompression, .codecAbsent⟩ := by
  simp only [decompressPlug, h]

theorem decompressPlug_forwards (h : p.plug = some plug) :
    decompressPlug p blob = (plugDecompress plug blob).elim (.error (corrupt .codecFailed)) .ok := by
  simp only [decompressPlug, h]
  cases plugDecompress plug blob <;> rfl

/-- A container of the plug-in has no declared size to check, so FSER asks the plug-in alone (R238). -/
theorem serialize_at4pn (p : Params) (blob : Bytes) :
    serialize p (.at4pn blob) =
      p.plug.elim (.error ⟨.noUsableCompression, .codecAbsent⟩) fun plug => .ok (plugSerialize plug blob) := by
  cases hplug : p.plug <;> simp [serialize, Container.consistent, containerBytes, hplug]

end

theorem exec_fdec_atupx {s : State} {n : BitVec 16} {d : BitVec 32} {m : Memory}
    (h : s.ct.value = some (.atupx n d m)) :
    exec .fdec s = .next (s.finish {} ((decompressAtupx s.params d m).map bytesResult)) :=
  exec_fdec h

theorem exec_fdec_at4pn {s : State} {blob : Bytes} (h : s.ct.value = some (.at4pn blob)) :
    exec .fdec s = .next (s.finish {} ((decompressPlug s.params blob).map bytesResult)) :=
  exec_fdec h

/-- Settles O43: FSER and FDEC end as the plug-in in question answers, and raise where it is absent. -/
theorem plugInsSerializeAndDecode : Obligations.PlugInsSerializeAndDecode := by
  refine fun s => ⟨fun n d m hct => ?atupx, fun blob hct => ?at4pn⟩
  case atupx =>
    rw [exec_fdec_atupx hct]
    refine ⟨fun habsent => ?_, fun ext hext => ?_⟩
    · rw [decompressAtupx_absent habsent]
      rfl
    · rw [decompressAtupx_forwards hext]
      refine ⟨fun h => ?_, fun r h => ?_⟩ <;> rw [h] <;> rfl
  case at4pn =>
    rw [exec_fser hct, exec_fdec_at4pn hct, serialize_at4pn]
    refine ⟨fun habsent => ?_, fun plug hplug => ?_⟩
    · rw [decompressPlug_absent habsent, habsent]
      exact ⟨rfl, rfl⟩
    · rw [decompressPlug_forwards hplug, hplug]
      refine ⟨rfl, fun h => ?_, fun r h => ?_⟩ <;> rw [h] <;> rfl

end Sys2Proof.Machine
end

section
/-! SUPPORT. DETECT and DDES: the first match in the order of detection; O47 and O48 (43_dispatcher.md R255 to R257). -/

namespace Sys2Proof.Machine

theorem exec_detect (s : State) :
    exec .detect s = .next (s.done (detectResult (detectFormat s.params s.src.bytes s.cmdOffset))) := rfl

theorem exec_ddes (s : State) : exec .ddes s = .next (s.finishContainer (deserialize s.params s.src.bytes)) := rfl

/-! ### The first match -/

theorem mem_detectOrder (f : Format) : f ∈ detectOrder := by
  cases f <;> decide

section
variable {p : Params} {src : Bytes} {o : Nat}

/-- R255: the format detected matches, and none before it in the order does. -/
theorem detectFormat_eq_some_iff {f : Format} :
    detectFormat p src o = some f ↔ matchesFormat p f src o = true ∧
      ∃ before after, detectOrder = before ++ f :: after ∧ ∀ g ∈ before, matchesFormat p g src o = false := by
  simp only [detectFormat, List.find?_eq_some_iff_append, Bool.not_eq_true']

/-- Every format is in the order, so none is detected only where none matches. -/
theorem detectFormat_eq_none_iff : detectFormat p src o = none ↔ ∀ f, matchesFormat p f src o = false := by
  simp only [detectFormat, List.find?_eq_none, mem_detectOrder, forall_const, Bool.not_eq_true]

end

/-- Settles O47: the two clauses are the two results of the search along the order of detection. -/
theorem detectAnswersTheFirstMatch : Obligations.DetectAnswersTheFirstMatch := by
  intro s hits
  rw [exec_detect]
  refine ⟨fun before f after horder hhit hmiss => ?first, fun hmiss => ?none⟩
  case first =>
    rw [detectFormat_eq_some_iff.mpr ⟨hhit, before, after, horder, hmiss⟩]
    rfl
  case none =>
    rw [detectFormat_eq_none_iff.mpr hmiss]
    rfl

/-- Settles O48: each outcome of detection at offset 0, and of the parse it selects, is what CT receives. -/
theorem deserializeParsesTheDetectedFormat : Obligations.DeserializeParsesTheDetectedFormat := by
  intro s
  rw [exec_ddes]
  obtain ⟨hnone, heq⟩ | ⟨g, hsome, heq⟩ := deserialize_cases s.params s.src.bytes
  case inl => simp [hnone, heq]
  case inr =>
    rw [heq, hsome]
    refine ⟨nofun, ?parsed, ?failed⟩
    case parsed =>
      rintro f c ⟨⟩ hparse
      rw [hparse, State.finishContainer_ok]
    case failed =>
      rintro f e ⟨⟩ hparse
      rw [hparse, State.finishContainer_error]

end Sys2Proof.Machine
end

section
/-! SUPPORT. DCOMP: which formats are permitted, and the candidate loop as the library's `List.argmin` over the
containers the candidates make; O49 and O50 (43_dispatcher.md R254, R258, R259, R265). -/

namespace Sys2Proof.Machine

/-! ### The gate -/

section
variable {gate : AtupxGate} {allowed : BitVec 5} {native : Bool} {f : Format}

/-- R254: the gate and CFG.native concern ATUPX alone. -/
theorem permitted_of_ne_atupx (h : f ≠ .atupx) : permitted gate allowed native f = isAllowed allowed f := by
  cases f with
  | atupx => exact absurd rfl h
  | at4pn => rfl
  | at3px => rfl
  | at4px => rfl
  | pkdpx => rfl

theorem permitted_none : permitted .none allowed native f = isAllowed allowed f := by
  cases f <;> rfl

theorem permitted_requiresNative_atupx :
    permitted .requiresNative allowed native .atupx = (isAllowed allowed .atupx && native) := rfl

theorem permitted_requiresNotNative_atupx :
    permitted .requiresNotNative allowed native .atupx = (isAllowed allowed .atupx && !native) := rfl

/-- R263: no gate lets a format through that is outside CFG.allowed. -/
theorem isAllowed_of_permitted (h : permitted gate allowed native f = true) : isAllowed allowed f = true := by
  by_cases hf : f = .atupx
  case neg => rwa [permitted_of_ne_atupx hf] at h
  case pos =>
    subst hf
    cases gate with
    | none => rwa [permitted_none] at h
    | requiresNative => exact (Bool.and_eq_true_iff.mp h).1
    | requiresNotNative => exact (Bool.and_eq_true_iff.mp h).1

end

/-- Settles O50: one clause for each lemma about the gate. -/
theorem permittedFollowsTheGate : Obligations.PermittedFollowsTheGate := by
  intro gate allowed native f
  refine ⟨isAllowed_of_permitted, ?plain, ?native, ?notNative⟩
  case plain =>
    rintro (hf | rfl)
    · exact permitted_of_ne_atupx hf
    · exact permitted_none
  case native =>
    rintro rfl
    exact permitted_requiresNative_atupx
  case notNative =>
    rintro rfl
    exact permitted_requiresNotNative_atupx

/-! ### A list split at an element -/

/-- `List.argmin` by place in the list: everything before the minimum is larger, nothing after it is smaller. -/
theorem split_of_argmin_eq_some {α : Type} {size : α → Nat} {l : List α} {m : α} (h : l.argmin size = some m) :
    ∃ l₁ l₂, l = l₁ ++ m :: l₂ ∧ (∀ a ∈ l₁, size m < size a) ∧ ∀ a ∈ l₂, size m ≤ size a := by
  classical
  obtain ⟨hmem, hle, hfirst⟩ := List.argmin_eq_some_iff.mp h
  obtain ⟨l₁, l₂, rfl, hnew⟩ := List.eq_append_cons_of_mem hmem
  refine ⟨l₁, l₂, rfl, fun a ha => ?before, fun a ha => hle a (by simp [ha])⟩
  case before =>
    by_contra hnot
    have hidx := hfirst a (by simp [ha]) (Nat.not_lt.mp hnot)
    rw [List.idxOf_append_of_notMem hnew, List.idxOf_append_of_mem ha] at hidx
    have hin := List.idxOf_lt_length_iff.mpr ha
    omega

/-- A split of what a filter keeps comes from a split of the list at the element kept. -/
theorem split_of_filterMap_eq_append_cons {α β : Type} {g : α → Option β} {l : List α} {l₁ l₂ : List β} {b : β}
    (h : l.filterMap g = l₁ ++ b :: l₂) :
    ∃ before a after, l = before ++ a :: after ∧ before.filterMap g = l₁ ∧ g a = some b ∧ after.filterMap g = l₂ := by
  obtain ⟨k₁, k₂, rfl, hk₁, hk₂⟩ := List.filterMap_eq_append_iff.mp h
  obtain ⟨skipped, a, after, rfl, hskip, ha, hafter⟩ := List.filterMap_eq_cons_iff.mp hk₂
  refine ⟨k₁ ++ skipped, a, after, by simp, ?_, ha, hafter⟩
  rw [List.filterMap_append, hk₁, List.filterMap_eq_nil_iff.mpr hskip, List.append_nil]

/-! ### The candidate loop -/

/-- What a candidate gives the comparison of sizes: its container, or nothing where it is not permitted or fails. -/
def attempt (p : Params) (allowed : BitVec 5) (native : Bool) (b : Bytes) (f : Format) : Option Container :=
  if permitted p.atupxGate allowed native f then (compressFormat p f b).toOption else none

section
variable {p : Params} {allowed : BitVec 5} {native : Bool} {b : Bytes}

theorem attempt_eq_some_iff {f : Format} {c : Container} :
    attempt p allowed native b f = some c ↔
      permitted p.atupxGate allowed native f = true ∧ compressFormat p f b = .ok c := by
  unfold attempt
  cases compressFormat p f b <;> simp [Except.toOption]

/-- R259: the comparison of sizes is the step of the library's `List.argmin`. -/
theorem keepSmaller_eq_argAux (p : Params) :
    keepSmaller p = List.argAux fun c best => serializedSize p c < serializedSize p best := by
  funext best c
  cases best <;> rfl

/-- R258: the loop compares the containers the candidates make, in their order, and nothing else. -/
theorem tryCandidates_eq_foldl (fs : List Format) (best : Option Container) :
    tryCandidates p allowed native b fs best =
      (fs.filterMap (attempt p allowed native b)).foldl (keepSmaller p) best := by
  induction fs generalizing best with
  | nil => rfl
  | cons f fs ih =>
    obtain ⟨hp, heq⟩ | ⟨-, ⟨e, hc⟩, heq⟩ | ⟨hp, c, hc, heq⟩ := tryCandidates_cons p allowed native b f fs best
    case inl =>
      have hskip : attempt p allowed native b f = none := by simp [attempt, hp]
      rw [heq, ih, List.filterMap_cons_none hskip]
    case inr.inl =>
      have hskip : attempt p allowed native b f = none := by simp [attempt, hc, Except.toOption]
      rw [heq, ih, List.filterMap_cons_none hskip]
    case inr.inr =>
      rw [heq, ih, List.filterMap_cons_some (attempt_eq_some_iff.mpr ⟨hp, hc⟩), List.foldl_cons]

theorem tryCandidates_eq_argmin (fs : List Format) :
    tryCandidates p allowed native b fs none =
      (fs.filterMap (attempt p allowed native b)).argmin (serializedSize p) := by
  rw [tryCandidates_eq_foldl, keepSmaller_eq_argAux, List.argmin]

/-- R265: the loop ends with nothing exactly where no candidate gives a container. -/
theorem tryCandidates_eq_none_iff {fs : List Format} :
    tryCandidates p allowed native b fs none = none ↔ ∀ f ∈ fs, attempt p allowed native b f = none := by
  rw [tryCandidates_eq_argmin, List.argmin_eq_none, List.filterMap_eq_nil_iff]

/-- R258, R259: the candidate whose container the loop ends with, and the candidates before and after it. -/
theorem split_of_tryCandidates_eq_some {fs : List Format} {c : Container}
    (h : tryCandidates p allowed native b fs none = some c) :
    ∃ before f after, fs = before ++ f :: after ∧ attempt p allowed native b f = some c ∧
      (∀ g ∈ before, ∀ c', attempt p allowed native b g = some c' → serializedSize p c < serializedSize p c') ∧
      ∀ g ∈ after, ∀ c', attempt p allowed native b g = some c' → serializedSize p c ≤ serializedSize p c' := by
  rw [tryCandidates_eq_argmin] at h
  obtain ⟨l₁, l₂, hsplit, hsmaller, hle⟩ := split_of_argmin_eq_some h
  obtain ⟨before, f, after, hfs, rfl, hf, rfl⟩ := split_of_filterMap_eq_append_cons hsplit
  exact ⟨before, f, after, hfs, hf,
    fun g hg c' hc' => hsmaller c' (List.mem_filterMap.mpr ⟨g, hg, hc'⟩),
    fun g hg c' hc' => hle c' (List.mem_filterMap.mpr ⟨g, hg, hc'⟩)⟩

end

/-! ### The command -/

theorem exec_dcomp (s : State) :
    exec .dcomp s =
      .next (s.finishContainer (smallest s.params s.cfgAllowed s.cfgNative s.cmdCand s.src.bytes)) := rfl

/-- Settles O49: the loop ends with nothing or with a container, and its candidate is where the list splits. -/
theorem dcompKeepsTheSmallest : Obligations.DcompKeepsTheSmallest := by
  intro s fs hcand makes
  have hmakes (f : Format) (c : Container) :
      makes f c ↔ attempt s.params s.cfgAllowed s.cfgNative s.src.bytes f = some c := attempt_eq_some_iff.symm
  simp only [hmakes]
  rw [exec_dcomp]
  obtain ⟨hnone, -⟩ | ⟨fs', hfs, htry, heq⟩ | ⟨fs', c, hfs, htry, heq⟩ :=
    smallest_cases s.params s.cfgAllowed s.cfgNative s.cmdCand s.src.bytes
  case inl => simp [hcand] at hnone
  case inr.inl =>
    obtain rfl : fs = fs' := Option.some.inj (hcand.symm.trans hfs)
    have hfail := tryCandidates_eq_none_iff.mp htry
    refine ⟨?_, fun _ => by rw [heq, State.finishContainer_error]⟩
    rintro ⟨f, hf, c, hc⟩
    simp [hfail f hf] at hc
  case inr.inr =>
    obtain rfl : fs = fs' := Option.some.inj (hcand.symm.trans hfs)
    obtain ⟨before, f, after, hsplit, hf, hsmaller, hle⟩ := split_of_tryCandidates_eq_some htry
    refine ⟨fun _ => ⟨before, f, after, c, hsplit, hf, ?_, hsmaller, hle⟩, fun hfail => ?_⟩
    · rw [heq, State.finishContainer_ok]
    · exact absurd hf (hfail f (by simp [hsplit]) c)

end Sys2Proof.Machine
end

section
/-! SUPPORT. The reset values that the spec states, register by register; O1 (10_state.md R42,
70_reset_and_hazards.md R321). CW, CMD.offset, CMD.cand and SRC are unspecified there and have no lemma here. -/

namespace Sys2Proof.Machine

/-! ### State.resetWith -/

section
variable (p : Params)

@[simp] theorem State.resetWith_cfgAllowed : (State.resetWith p).cfgAllowed = 0x17#5 := rfl
@[simp] theorem State.resetWith_cfgNative : (State.resetWith p).cfgNative = p.nativeReset := rfl
@[simp] theorem State.resetWith_status : (State.resetWith p).status = .idle := rfl
@[simp] theorem State.resetWith_errKind : (State.resetWith p).errKind = .none := rfl
@[simp] theorem State.resetWith_errCause : (State.resetWith p).errCause = .none := rfl
@[simp] theorem State.resetWith_dst : (State.resetWith p).dst = none := rfl
@[simp] theorem State.resetWith_ct : (State.resetWith p).ct = .none := rfl
@[simp] theorem State.resetWith_res : (State.resetWith p).res = none := rfl
@[simp] theorem State.resetWith_cft : (State.resetWith p).cft = .none := rfl
@[simp] theorem State.resetWith_work : (State.resetWith p).work = .idle := rfl

end

/-! ### The formats allowed -/

/-- Bit 3 is the one clear bit of the mask, and 3 is the format id of ATUPX (30_encoding.md R117). -/
theorem isAllowed_0x17_iff {f : Format} : isAllowed 0x17#5 f = true ↔ f ≠ .atupx := by
  cases f <;> decide

theorem isAllowed_resetWith_iff (p : Params) {f : Format} :
    isAllowed (State.resetWith p).cfgAllowed f = true ↔ f ≠ .atupx := by
  rw [State.resetWith_cfgAllowed, isAllowed_0x17_iff]

/-- Settles O1: the registers one by one, and the mask read as the set of formats that R321 writes out. -/
theorem resetLeavesTheStatedValues : Obligations.ResetLeavesTheStatedValues := by
  refine ⟨fun p => ?registers, rfl, fun f => isAllowed_resetWith_iff {}⟩
  case registers => simp

end Sys2Proof.Machine
end

section
/-! SUPPORT. Encoding and decoding of every instruction: the form of an encoding, the fields of a command word, and the
inverse of each decoder; O51, O52, O5 and O4 (30_encoding.md R94 to R100, R116, R119). -/

namespace Sys2Proof

/-! ### Decode of encode -/

/-- Every instruction has the form of encoding that its row of the table has. -/
theorem encodingForm : ∀ i : Instr, Laws.EncodingForm.Statement i
  | .cmdb c => Laws.EncodingForm.cmdb c
  | .copy b => Laws.EncodingForm.copy b
  | .np0 l => Laws.EncodingForm.np0 l
  | .np1 l => Laws.EncodingForm.np1 l
  | .np2 l => Laws.EncodingForm.np2 l
  | .np3 l => Laws.EncodingForm.np3 l
  | .np4 l => Laws.EncodingForm.np4 l
  | .np5 l => Laws.EncodingForm.np5 l
  | .np6 l => Laws.EncodingForm.np6 l
  | .np7 l => Laws.EncodingForm.np7 l
  | .np8 l => Laws.EncodingForm.np8 l
  | .seq offset length => Laws.EncodingForm.seq offset length
  | .pxc level order => Laws.EncodingForm.pxc level order
  | .pxd => Laws.EncodingForm.pxd
  | .matchAt4pn => Laws.EncodingForm.matchAt4pn
  | .matchAt3px => Laws.EncodingForm.matchAt3px
  | .matchAt4px => Laws.EncodingForm.matchAt4px
  | .matchAtupx => Laws.EncodingForm.matchAtupx
  | .matchPkdpx => Laws.EncodingForm.matchPkdpx
  | .csizeAt4pn => Laws.EncodingForm.csizeAt4pn
  | .csizeAt3px => Laws.EncodingForm.csizeAt3px
  | .csizeAt4px => Laws.EncodingForm.csizeAt4px
  | .csizeAtupx => Laws.EncodingForm.csizeAtupx
  | .csizePkdpx => Laws.EncodingForm.csizePkdpx
  | .fdesAt4pn => Laws.EncodingForm.fdesAt4pn
  | .fdesAt3px => Laws.EncodingForm.fdesAt3px
  | .fdesAt4px => Laws.EncodingForm.fdesAt4px
  | .fdesAtupx => Laws.EncodingForm.fdesAtupx
  | .fdesPkdpx => Laws.EncodingForm.fdesPkdpx
  | .fcompAt4pn => Laws.EncodingForm.fcompAt4pn
  | .fcompAt3px => Laws.EncodingForm.fcompAt3px
  | .fcompAt4px => Laws.EncodingForm.fcompAt4px
  | .fcompAtupx => Laws.EncodingForm.fcompAtupx
  | .fcompPkdpx => Laws.EncodingForm.fcompPkdpx
  | .fser => Laws.EncodingForm.fser
  | .fdec => Laws.EncodingForm.fdec
  | .allow f => Laws.EncodingForm.allow f
  | .disallow f => Laws.EncodingForm.disallow f
  | .setnative b => Laws.EncodingForm.setnative b
  | .detect => Laws.EncodingForm.detect
  | .ddes => Laws.EncodingForm.ddes
  | .dcomp => Laws.EncodingForm.dcomp

section
variable {t : Cft} {i : Instr}

/-- R116: a host command's word decodes to the command. -/
theorem decodeCommand_of_encode {cw : BitVec 16} (h : encode t i = .commandWord cw) : decodeCommand cw = .ok i := by
  have hform := encodingForm i t
  rwa [h] at hform

theorem eq_cmdb_of_encode {c : Byte} (h : encode t i = .blockByte c) : i = .cmdb c := by
  have hform := encodingForm i t
  rwa [h] at hform

/-- R94: what is written as a command bit and bytes is a PX operation with that bit and those bytes. -/
theorem exists_op_of_encode {bit : Bool} {bytes : Bytes} (h : encode t i = .operation bit bytes) :
    ∃ op : Op, op.toInstr = i ∧ i.toOp = some op ∧ bit = op.isCopy ∧ bytes = encodeOp t op := by
  have hform := encodingForm i t
  rw [h] at hform
  obtain ⟨op, hinstr, hop, hbit, hbytes, -⟩ := hform
  exact ⟨op, hinstr, hop, hbit, hbytes⟩

end

/-- Settles O51: a command word and a command byte need no table, and an operation's bytes read back under a table that
encodes it. -/
theorem decodeInvertsEncode : Obligations.DecodeInvertsEncode := by
  intro t i hwf
  cases henc : encode t i with
  | commandWord cw => simp [decode, decodeCommand_of_encode henc]
  | blockByte c => rw [decode, eq_cmdb_of_encode henc]
  | operation bit bytes =>
    obtain ⟨op, rfl, hop, rfl, rfl⟩ := exists_op_of_encode henc
    simp only [Instr.wf, hop, Bool.and_eq_true] at hwf
    have hdecode := decodeOp_encodeOp hwf.1 hwf.2 []
    rw [List.append_nil] at hdecode
    simp [decode, hdecode]

/-! ### The fields of a command word -/

theorem commandWord_cwOp_cwArg (cw : BitVec 16) : commandWord (cwOp cw) (cwArg cw) = cw := by
  simp only [commandWord, cwOp, cwArg]
  ext i hi
  simp only [BitVec.getElem_append, BitVec.getElem_extractLsb']
  split <;> rw [← BitVec.getLsbD_eq_getElem hi] <;> congr 1 <;> omega

theorem toNat_commandWord (op arg : Byte) : (commandWord op arg).toNat = op.toNat * 256 + arg.toNat := by
  rw [commandWord, BitVec.toNat_append, ← Nat.shiftLeft_add_eq_or_of_lt arg.isLt, Nat.shiftLeft_eq]

theorem toNat_eq_cwOp_cwArg (cw : BitVec 16) : cw.toNat = (cwOp cw).toNat * 256 + (cwArg cw).toNat := by
  rw [← toNat_commandWord, commandWord_cwOp_cwArg]

/-- A command word is determined by its two bytes (R116). -/
theorem eq_commandWord {cw : BitVec 16} {op arg : Byte} (hop : cwOp cw = op) (harg : cwArg cw = arg) :
    cw = commandWord op arg := by
  rw [← hop, ← harg, commandWord_cwOp_cwArg]

/-- The fields of the argument byte that lie in its low bits are those of CW. -/
theorem extractLsb'_cwArg (cw : BitVec 16) {n : Nat} (h : n ≤ 8) :
    cw.extractLsb' 0 n = (cwArg cw).setWidth n := by
  apply BitVec.eq_of_toNat_eq
  simp only [cwArg, BitVec.extractLsb'_toNat, BitVec.toNat_setWidth, Nat.shiftRight_zero]
  rw [Nat.mod_mod_of_dvd _ (Nat.pow_dvd_pow 2 h)]

theorem cwFmt_eq (cw : BitVec 16) : cwFmt cw = (cwArg cw).setWidth 3 := extractLsb'_cwArg cw (by decide)

theorem cwLevel_eq (cw : BitVec 16) : cwLevel cw = (cwArg cw).setWidth 2 := extractLsb'_cwArg cw (by decide)

theorem cwOrder_eq (cw : BitVec 16) : cwOrder cw = Order.ofBit ((cwArg cw).getLsbD 2) := by
  simp [cwOrder, cwArg]

theorem cwBit_eq (cw : BitVec 16) : cwBit cw = (cwArg cw).getLsbD 0 := by
  simp [cwBit, cwArg]

/-- R119: the bits of an argument byte above a field of `k` bits are 0 exactly if the byte is a value of the field. -/
theorem extractLsb'_above_eq_zero_iff {x : Byte} {k : Nat} (hk : k ≤ 8) :
    x.extractLsb' k (8 - k) = 0 ↔ x.toNat < 2 ^ k := by
  have hpow : 2 ^ (8 - k) * 2 ^ k = 256 := by rw [← Nat.pow_add, Nat.sub_add_cancel hk]
  have hdiv : x.toNat / 2 ^ k < 2 ^ (8 - k) := by
    rw [Nat.div_lt_iff_lt_mul (Nat.two_pow_pos k), hpow]
    exact x.isLt
  rw [← BitVec.toNat_inj, BitVec.extractLsb'_toNat, Nat.shiftRight_eq_div_pow, Nat.mod_eq_of_lt hdiv,
    show (0 : BitVec (8 - k)).toNat = 0 from BitVec.toNat_zero, Nat.div_eq_zero_iff_lt (Nat.two_pow_pos k)]

/-! ### The arguments -/

/-- The ids 5, 6 and 7 are no format's (R117). -/
theorem Format.ofId_eq_some_iff {v : BitVec 3} {f : Format} : Format.ofId v = some f ↔ v = f.id := by
  cases f <;> revert v <;> decide

theorem Format.ofId_eq_none_iff {v : BitVec 3} : Format.ofId v = none ↔ 5 ≤ v.toNat := by
  revert v
  decide

section
variable {cw : BitVec 16} {i j : Instr} {mk : Format → Instr}

theorem ite_ok_eq_ok_iff {p : Prop} [Decidable p] {r : CommandReject} :
    (if p then .ok i else .error r : Except CommandReject Instr) = .ok j ↔ p ∧ i = j := by
  split <;> simp_all

theorem decodeNoArg_eq_ok_iff : decodeNoArg cw i = .ok j ↔ cwArg cw = 0 ∧ i = j := ite_ok_eq_ok_iff

theorem extractLsb'_3_5_eq_zero_iff {x : Byte} : x.extractLsb' 3 5 = 0 ↔ x.toNat < 8 :=
  extractLsb'_above_eq_zero_iff (by decide)

theorem extractLsb'_1_7_eq_zero_iff {x : Byte} : x.extractLsb' 1 7 = 0 ↔ x.toNat < 2 :=
  extractLsb'_above_eq_zero_iff (by decide)

theorem formatArg_eq_iff {arg : Byte} {f : Format} : arg = formatArg f ↔ arg.toNat < 8 ∧ arg.setWidth 3 = f.id := by
  have hid : f.id.toNat < 8 := f.id.isLt
  rw [formatArg, ← BitVec.toNat_inj, ← BitVec.toNat_inj, BitVec.toNat_setWidth_of_le (by decide),
    BitVec.toNat_setWidth]
  omega

/-- A command with a format takes exactly the argument bytes of the formats (R116, R119). -/
theorem decodeFormatArg_eq_ok_iff : decodeFormatArg cw mk = .ok j ↔ ∃ f, cwArg cw = formatArg f ∧ mk f = j := by
  simp only [decodeFormatArg, extractLsb'_3_5_eq_zero_iff, formatArg_eq_iff, ← cwFmt_eq]
  split
  · cases hid : Format.ofId (cwFmt cw) with
    | none => simp_all [← Format.ofId_eq_some_iff]
    | some f => simp_all [← Format.ofId_eq_some_iff]
  · simp_all

/-- PXC's argument is any byte below 8, its level and order the two fields of it (R116). -/
theorem eq_pxcArg_of_lt (h : (cwArg cw).toNat < 8) : cwArg cw = pxcArg (cwLevel cw) (cwOrder cw) := by
  have hall : ∀ v : BitVec 3, v.setWidth 8 =
      pxcArg ((v.setWidth 8).setWidth 2) (Order.ofBit ((v.setWidth 8).getLsbD 2)) := by decide
  have harg : ((cwArg cw).setWidth 3).setWidth 8 = cwArg cw := by
    apply BitVec.eq_of_toNat_eq
    rw [BitVec.toNat_setWidth_of_le (by decide), BitVec.toNat_setWidth, Nat.mod_eq_of_lt h]
  have hv := hall ((cwArg cw).setWidth 3)
  rwa [harg, ← cwLevel_eq, ← cwOrder_eq] at hv

/-- SETNATIVE's argument is 0 or 1, the bit it writes (R116). -/
theorem eq_bit_of_lt (h : (cwArg cw).toNat < 2) : cwArg cw = if cwBit cw then 1 else 0 := by
  rw [cwBit_eq]
  obtain hzero | hone : (cwArg cw).toNat = 0 ∨ (cwArg cw).toNat = 1 := by omega
  · rw [BitVec.eq_of_toNat_eq (y := 0#8) hzero]
    rfl
  · rw [BitVec.eq_of_toNat_eq (y := 1#8) hone]
    rfl

/-! ### Encode of decode: command words -/

/-- R116: a word that decodes is the word its command is written as. -/
theorem encode_of_decodeCommand (t : Cft) (h : decodeCommand cw = .ok i) : encode t i = .commandWord cw := by
  have hnoArg : ∀ {op : Byte} {j : Instr}, cwOp cw = op → encode t j = .commandWord (commandWord op 0) →
      decodeNoArg cw j = .ok i → encode t i = .commandWord cw := by
    intro op j hop henc hdec
    obtain ⟨harg, rfl⟩ := decodeNoArg_eq_ok_iff.mp hdec
    rw [henc, eq_commandWord hop harg]
  have hformat : ∀ {op : Byte} {mk : Format → Instr}, cwOp cw = op →
      (∀ f, encode t (mk f) = .commandWord (commandWord op (formatArg f))) →
      decodeFormatArg cw mk = .ok i → encode t i = .commandWord cw := by
    intro op mk hop henc hdec
    obtain ⟨f, harg, rfl⟩ := decodeFormatArg_eq_ok_iff.mp hdec
    rw [henc, eq_commandWord hop harg]
  unfold decodeCommand at h
  obtain ⟨hop, h⟩ | ⟨-, h⟩ := ite_eq_iff.mp h
  · obtain ⟨harg, rfl⟩ := ite_ok_eq_ok_iff.mp h
    exact congrArg _ (eq_commandWord hop (eq_pxcArg_of_lt (extractLsb'_3_5_eq_zero_iff.mp harg))).symm
  obtain ⟨hop, h⟩ | ⟨-, h⟩ := ite_eq_iff.mp h
  · exact hnoArg hop rfl h
  obtain ⟨hop, h⟩ | ⟨-, h⟩ := ite_eq_iff.mp h
  · exact hformat hop (fun f => by cases f <;> rfl) h
  obtain ⟨hop, h⟩ | ⟨-, h⟩ := ite_eq_iff.mp h
  · exact hformat hop (fun f => by cases f <;> rfl) h
  obtain ⟨hop, h⟩ | ⟨-, h⟩ := ite_eq_iff.mp h
  · exact hformat hop (fun f => by cases f <;> rfl) h
  obtain ⟨hop, h⟩ | ⟨-, h⟩ := ite_eq_iff.mp h
  · exact hformat hop (fun f => by cases f <;> rfl) h
  obtain ⟨hop, h⟩ | ⟨-, h⟩ := ite_eq_iff.mp h
  · exact hnoArg hop rfl h
  obtain ⟨hop, h⟩ | ⟨-, h⟩ := ite_eq_iff.mp h
  · exact hnoArg hop rfl h
  obtain ⟨hop, h⟩ | ⟨-, h⟩ := ite_eq_iff.mp h
  · exact hformat hop (fun _ => rfl) h
  obtain ⟨hop, h⟩ | ⟨-, h⟩ := ite_eq_iff.mp h
  · exact hformat hop (fun _ => rfl) h
  obtain ⟨hop, h⟩ | ⟨-, h⟩ := ite_eq_iff.mp h
  · obtain ⟨harg, rfl⟩ := ite_ok_eq_ok_iff.mp h
    exact congrArg _ (eq_commandWord hop (eq_bit_of_lt (extractLsb'_1_7_eq_zero_iff.mp harg))).symm
  obtain ⟨hop, h⟩ | ⟨-, h⟩ := ite_eq_iff.mp h
  · exact hnoArg hop rfl h
  obtain ⟨hop, h⟩ | ⟨-, h⟩ := ite_eq_iff.mp h
  · exact hnoArg hop rfl h
  obtain ⟨hop, h⟩ | ⟨-, h⟩ := ite_eq_iff.mp h
  · exact hnoArg hop rfl h
  cases h

end

/-! ### Encode of decode: operations -/

/-- Everything that can decode to an operation: a literal, a byte that selects a pattern, or two bytes of a Sequence
(R95 to R100). -/
theorem decodeOp_ok_cases {t : Cft} {bit : Bool} {l : Bytes} {op : Op} (h : decodeOp t bit l = .ok op) :
    ∃ b more, l = b :: more ∧
      ((bit = true ∧ op = .copyAsIs b) ∨
        (bit = false ∧ ∃ i, t.find (hi4 b) = some i ∧ op = .nibblePattern i (lo4 b)) ∨
        (bit = false ∧ t.find (hi4 b) = none ∧ ∃ nb rest, more = nb :: rest ∧
          op = .sequence (seqOffset (lo4 b) nb) (seqLength (hi4 b)))) := by
  cases l with
  | nil => cases h
  | cons b more =>
    refine ⟨b, more, rfl, ?_⟩
    cases bit with
    | true => cases h; exact .inl ⟨rfl, rfl⟩
    | false =>
      cases hfind : t.find (hi4 b) with
      | some i =>
        rw [decodeOp_pattern hfind] at h
        cases h
        exact .inr (.inl ⟨rfl, i, rfl, rfl⟩)
      | none =>
        cases more with
        | nil => rw [Machine.decodeOp_truncated hfind] at h; cases h
        | cons nb rest =>
          rw [decodeOp_sequence hfind] at h
          cases h
          exact .inr (.inr ⟨rfl, rfl, nb, rest, rfl, rfl⟩)

theorem encode_toInstr (t : Cft) (op : Op) : encode t op.toInstr = op.encoding t := by
  cases op with
  | copyAsIs b => rfl
  | nibblePattern i l => fin_cases i <;> rfl
  | sequence offset length => rfl

theorem lo4_setWidth (n : Nibble) : lo4 (n.setWidth 8) = n := by
  apply BitVec.eq_of_toNat_eq
  rw [toNat_lo4, Machine.toNat_setWidth_nibble, Nat.mod_eq_of_lt n.isLt]

/-- The twelve bits of an offset and the four of a length are the two bytes they were read from (R97 to R99). -/
theorem encodeOp_seqOffset_seqLength (t : Cft) (b nb : Byte) :
    encodeOp t (.sequence (seqOffset (lo4 b) nb) (seqLength (hi4 b))) = [b, nb] := by
  have hb := b.isLt
  have hnb := nb.isLt
  rw [seqOffset, seqLength, Machine.encodeOp_sequence, toNat_lo4, toNat_hi4, Nat.add_sub_cancel]
  congr 2
  all_goals
    apply BitVec.eq_of_toNat_eq
    rw [BitVec.toNat_ofNat]
    omega

/-- What decodes is in range, is encoded by the table, and is written as the bytes it was read from. -/
theorem encodeOp_of_decodeOp {t : Cft} {bit : Bool} {l : Bytes} {op : Op} (h : decodeOp t bit l = .ok op) :
    op.wf = true ∧ op.encodable t = true ∧ op.isCopy = bit ∧ encodeOp t op = l.take op.size := by
  obtain ⟨b, more, rfl, ⟨rfl, rfl⟩ | ⟨rfl, i, hfind, rfl⟩ | ⟨rfl, hfind, nb, rest, rfl, rfl⟩⟩ := decodeOp_ok_cases h
  · exact ⟨rfl, rfl, rfl, rfl⟩
  · obtain ⟨hget, hleast⟩ := Cft.find_eq_some_iff.mp hfind
    refine ⟨rfl, Op.encodable_nibblePattern_iff.mpr ⟨?_, fun j hj => hget ▸ hleast j hj⟩, rfl, ?_⟩
    · rw [hget, Machine.toNat_setWidth_nibble]
      exact (hi4 b).isLt
    · rw [encodeOp, hget, lo4_setWidth, Machine.joinNibbles_hi4_lo4]
      rfl
  · have hlo := (lo4 b).isLt
    have hhi := (hi4 b).isLt
    have hnb := nb.isLt
    refine ⟨?_, Op.encodable_sequence_iff.mpr fun i heq => Cft.find_eq_none_iff.mp hfind i ?_, rfl,
      encodeOp_seqOffset_seqLength t b nb⟩
    · simp only [Op.wf, Bool.and_eq_true, decide_eq_true_eq]
      simp only [seqOffset, seqLength]
      omega
    · apply BitVec.eq_of_toNat_eq
      rw [heq, Machine.toNat_setWidth_nibble, seqLength, Nat.add_sub_cancel]

/-- Settles O52: the two directions of each decoder meet in one encoding. -/
theorem encodeInvertsDecode : Obligations.EncodeInvertsDecode := by
  refine ⟨fun t cw i h => encode_of_decodeCommand t h, fun t bit l op h => ?operation⟩
  case operation =>
    obtain ⟨hwf, henc, hbit, hbytes⟩ := encodeOp_of_decodeOp h
    exact ⟨hwf, by rw [encode_toInstr, Op.encoding, hbit, hbytes], henc⟩

/-! ### The words that decode -/

/-- A table to encode under where only command words are of interest, which do not look at it. -/
def zeroFlags : Cft := ⟨0, 0, 0, 0, 0, 0, 0, 0, 0⟩

theorem decodeCommand_of_mem {l : List (BitVec 16 × Instr)} (h : ∀ p ∈ l, encode zeroFlags p.2 = .commandWord p.1) :
    ∀ p ∈ l, decodeCommand p.1 = .ok p.2 :=
  fun p hp => decodeCommand_of_encode (h p hp)

/-- Settles O5: the words written out are the encodings of their instructions. -/
theorem writtenCommandWordsDecode : Obligations.WrittenCommandWordsDecode :=
  ⟨decodeCommand_of_mem (by decide), decodeCommand_of_mem (by decide), decodeCommand_of_mem (by decide),
    decodeCommand_of_mem (by decide), decodeCommand_of_mem (by decide)⟩

section
variable {cw : BitVec 16} {i : Instr} {mk : Format → Instr}

theorem exists_decodeNoArg_iff : (∃ j, decodeNoArg cw i = .ok j) ↔ (cwArg cw).toNat = 0 := by
  simp only [decodeNoArg_eq_ok_iff, exists_and_left, exists_eq', and_true, ← BitVec.toNat_inj]
  rfl

theorem exists_decodeFormatArg_iff : (∃ j, decodeFormatArg cw mk = .ok j) ↔ (cwArg cw).toNat ≤ 4 := by
  simp only [decodeFormatArg_eq_ok_iff]
  constructor
  · rintro ⟨j, f, harg, -⟩
    rw [harg]
    cases f <;> decide
  · intro h
    have hlow : (cwArg cw).toNat < 8 := by omega
    cases hid : Format.ofId ((cwArg cw).setWidth 3) with
    | some f => exact ⟨mk f, f, formatArg_eq_iff.mpr ⟨hlow, Format.ofId_eq_some_iff.mp hid⟩, rfl⟩
    | none =>
      rw [Format.ofId_eq_none_iff, BitVec.toNat_setWidth, Nat.mod_eq_of_lt hlow] at hid
      omega

/-- A conditional decoder decodes what its branch in force decodes. -/
theorem exists_ite_eq_ok_iff {p P : Prop} [Decidable p] {a b : Except CommandReject Instr}
    (hb : ¬ p → ((∃ j, b = .ok j) ↔ P)) (ha : p → ((∃ j, a = .ok j) ↔ P)) :
    (∃ j, (if p then a else b) = .ok j) ↔ P := by
  by_cases h : p
  · rw [if_pos h]; exact ha h
  · rw [if_neg h]; exact hb h

theorem exists_decodePxc_iff {a : Instr} : (∃ j, (if (cwArg cw).extractLsb' 3 5 = 0 then .ok a
    else .error .reservedArgument : Except CommandReject Instr) = .ok j) ↔ (cwArg cw).toNat < 8 := by
  simp only [ite_ok_eq_ok_iff, exists_and_left, exists_eq', and_true, extractLsb'_3_5_eq_zero_iff]

theorem exists_decodeSetnative_iff {a : Instr} : (∃ j, (if (cwArg cw).extractLsb' 1 7 = 0 then .ok a
    else .error .reservedArgument : Except CommandReject Instr) = .ok j) ↔ (cwArg cw).toNat < 2 := by
  simp only [ite_ok_eq_ok_iff, exists_and_left, exists_eq', and_true, extractLsb'_1_7_eq_zero_iff]

/-- R119: the reserved words are exactly those outside the table of R116, operation code by operation code. -/
theorem exists_decodeCommand_iff : (∃ i, decodeCommand cw = .ok i) ↔ Machine.legalCommandWord cw.toNat = true := by
  have harg := (cwArg cw).isLt
  rw [toNat_eq_cwOp_cwArg cw]
  simp only [Machine.legalCommandWord, Bool.or_eq_true, Bool.and_eq_true, decide_eq_true_eq]
  unfold decodeCommand
  iterate 14
    apply exists_ite_eq_ok_iff <;> intro hop <;>
      simp only [← BitVec.toNat_inj, BitVec.ofNat_eq_ofNat, BitVec.reduceToNat] at hop
  all_goals
    simp only [exists_decodeNoArg_iff, exists_decodeFormatArg_iff, exists_decodePxc_iff, exists_decodeSetnative_iff,
      reduceCtorEq, exists_false, false_iff]
    omega

end

/-! ### What is refused -/

namespace Machine

theorem candidateFormats_eq_none {l : List (BitVec 3)} (h : ∃ v ∈ l, 5 ≤ v.toNat) : candidateFormats l = none := by
  induction l with
  | nil => simp at h
  | cons v l ih =>
    unfold candidateFormats
    cases hv : Format.ofId v with
    | none => rfl
    | some f =>
      have hlt : ¬ 5 ≤ v.toNat := fun hle => by rw [Format.ofId_eq_none_iff.mpr hle] at hv; cases hv
      simp only [ih (by simpa [hlt] using h)]

theorem refuseCommand_eq (r : CommandReject) (s : State) :
    s.refuseCommand r = s.raise ⟨.illegalCommand, .reservedEncoding⟩ {} := by
  cases r <;> rfl

/-- Settles O4: the words outside the table do not decode, and neither does a reserved candidate id. -/
theorem reservedCommandWordsAreRefused : Obligations.ReservedCommandWordsAreRefused := by
  refine ⟨fun cw => exists_decodeCommand_iff, fun s hidle hissued hword => ?word, fun s hcand => ?candidate⟩
  case word =>
    cases hdec : decodeCommand s.cw with
    | ok i => rw [exists_decodeCommand_iff.mp ⟨i, hdec⟩] at hword; cases hword
    | error r => simp [step, hidle, hissued, hdec, refuseCommand_eq]
  case candidate =>
    rw [exec_dcomp, smallest, candidateFormats_eq_none hcand]
    rfl

end Machine

end Sys2Proof
end

section
/-! SUPPORT. The invariants, one step at a time: each is shown for a command that ends, for one that raises, and for a
change of the working state alone, and then for every move a step can make; O55 to O60 (10_state.md R27, R33, R34, R36,
R37, R39, 20_memory.md R60, 60_exceptions.md R290, R291). -/

namespace Sys2Proof.Machine

variable {s t : State}

/-! ### The induction over a step -/

/-- What taking up the issue and every move keep, every step keeps. -/
theorem step_keeps {P : State → Prop} (htake : ∀ s, P s → P s.takeIssue) (hmoves : ∀ s t, P s → s.Moves t → P t)
    (hs : P s) (h : step s = .next t) : P t := by
  obtain ⟨-, -, rfl⟩ | ⟨-, -, i, -, -, hm⟩ | ⟨-, -, -, rfl⟩ | ⟨-, hm⟩ | ⟨-, hm⟩ := step_cases h
  · exact hs
  · exact hmoves _ _ (htake s hs) hm
  · exact hmoves _ _ (htake s hs) (.raise _ _ rfl)
  · exact hmoves _ _ hs hm
  · exact hmoves _ _ hs hm

/-! ### Buffers -/

theorem State.canonical.takeIssue (h : s.canonical) : s.takeIssue.canonical := ⟨h.src, h.dst, h.ct, h.work⟩

theorem State.canonical.setCfg (h : s.canonical) (a : BitVec 5) (b : Bool) : (s.setCfg a b).canonical :=
  ⟨h.src, h.dst, h.ct, h.work⟩

theorem State.canonical.done (h : s.canonical) {r : Results} (hdst : ∀ m, r.dst = some m → m.wf)
    (hct : ∀ c, r.ct = some c → c.canonical) : (s.done r).canonical where
  src := h.src
  dst := hdst
  ct := by
    intro c hc
    rw [State.done_ct] at hc
    cases hr : r.ct with
    | none =>
      rw [hr, Held.update_none] at hc
      exact h.ct c (Held.value_of_kept hc)
    | some c' =>
      rw [hr, Held.update_some] at hc
      cases hc
      exact hct c hr
  work := nofun

theorem State.canonical.raise (h : s.canonical) (e : Raise) (w : Targets) : (s.raise e w).canonical where
  src := h.src
  dst := nofun
  ct := fun c hc => h.ct c (Held.value_of_afterError hc)
  work := nofun

theorem State.canonical.setPlan (h : s.canonical) (w : PxcWork) : (s.setWork (.plan w)).canonical :=
  ⟨h.src, h.dst, h.ct, nofun⟩

theorem State.canonical.setStream (h : s.canonical) (g : Goal) {w : PxdWork} (hpayload : w.payload.wf)
    (hout : w.out.wf) : (s.setWork (.stream g w)).canonical where
  src := h.src
  dst := h.dst
  ct := h.ct
  work := by
    rintro _ _ ⟨⟩
    exact ⟨hpayload, hout⟩

theorem State.Moves.canonical (hs : s.canonical) (h : s.Moves t) : t.canonical := by
  cases h with
  | done r hr => exact hs.done (fun m hm => hr.dst m hm hs) fun c hc => (hr.ct c hc).1
  | raise e w he => exact hs.raise e w
  | config i a b h hi => exact (hs.setCfg a b).done nofun nofun
  | startPlan level order h => exact hs.setPlan _
  | planned w w' hw h => exact hs.setPlan w'
  | startStream g m flags h => exact hs.setStream g (h hs) Memory.wf_empty
  | loaded g w c hw =>
    obtain ⟨hpayload, hout⟩ := hs.work g w hw
    exact hs.setStream g hpayload hout
  | applied g w w' op hw h =>
    obtain ⟨hpayload, hout⟩ := hs.work g w hw
    obtain ⟨heq, -, -⟩ := PxdWork.apply_ok h
    exact hs.setStream g (heq ▸ hpayload) (PxdWork.apply_out_wf hout h)

/-- Settles O55: every buffer a move leaves was there before, is built canonical, or grows by appending. -/
theorem stepKeepsBuffersCanonical : Obligations.StepKeepsBuffersCanonical :=
  fun _ _ hs h => step_keeps (fun _ => State.canonical.takeIssue) (fun _ _ => State.Moves.canonical) hs h

/-! ### STATUS and ERR -/

theorem State.Moves.errConsistent (hs : s.errConsistent = true) (h : s.Moves t) : t.errConsistent = true := by
  cases h with
  | done r hr => rfl
  | raise e w he => exact he
  | config i a b h hi => rfl
  | startPlan level order h => exact hs
  | planned w w' hw h => exact hs
  | startStream g m flags h => exact hs
  | loaded g w c hw => exact hs
  | applied g w w' op hw h => exact hs

/-- Settles O56: every error raised is one of the spec's pairs, and a command that ends in DONE clears ERR. -/
theorem stepKeepsErrorCodesLegal : Obligations.StepKeepsErrorCodesLegal :=
  fun _ _ hs h => step_keeps (P := fun s => s.errConsistent = true) (fun _ hs => hs)
    (fun _ _ => State.Moves.errConsistent) hs h

/-! ### No partial output -/

theorem State.noPartialOutput_done (s : State) (r : Results) : (s.done r).noPartialOutput :=
  ⟨nofun, nofun, nofun, nofun⟩

theorem State.noPartialOutput_raise (s : State) (e : Raise) (w : Targets) : (s.raise e w).noPartialOutput where
  dst := fun _ => rfl
  res := fun _ => rfl
  ct := fun _ => s.ct.afterError_ne_byEngine w.ct
  cft := fun _ => s.cft.afterError_ne_byEngine w.cft

theorem State.noPartialOutput.setWork (h : s.noPartialOutput) (w : Work) : (s.setWork w).noPartialOutput :=
  ⟨h.dst, h.res, h.ct, h.cft⟩

theorem State.Moves.noPartialOutput (hs : s.noPartialOutput) (h : s.Moves t) : t.noPartialOutput := by
  cases h with
  | done r hr => exact s.noPartialOutput_done r
  | raise e w he => exact s.noPartialOutput_raise e w
  | config i a b h hi => exact State.noPartialOutput_done _ {}
  | startPlan level order h => exact hs.setWork _
  | planned w w' hw h => exact hs.setWork _
  | startStream g m flags h => exact hs.setWork _
  | loaded g w c hw => exact hs.setWork _
  | applied g w w' op hw h => exact hs.setWork _

/-- Settles O57: an error empties the registers, and a change of the working state writes none. -/
theorem stepKeepsNoPartialOutput : Obligations.StepKeepsNoPartialOutput :=
  fun _ _ hs h => step_keeps (fun _ hs => ⟨hs.dst, hs.res, hs.ct, hs.cft⟩) (fun _ _ => State.Moves.noPartialOutput) hs h

/-! ### What the ENGINE produces -/

/-- What a command has just written is what the ENGINE wrote last; before that it wrote nothing that is kept. -/
theorem Held.update_eq_byEngine_iff {α : Type} {new : Option α} {old : Held α} {v : α} :
    old.update new = .byEngine v ↔ new = some v := by
  cases new with
  | none => simp [Held.kept_ne_byEngine]
  | some v' => simp

theorem State.wellProduced_done {r : Results} (hct : ∀ c, r.ct = some c → c.consistent = true)
    (hcft : ∀ flags, r.cft = some flags → flags.wf = true) (s : State) : (s.done r).wellProduced where
  ct := fun c hc => hct c (Held.update_eq_byEngine_iff.mp hc)
  cft := fun flags hflags => hcft flags (Held.update_eq_byEngine_iff.mp hflags)
  rls := nofun

theorem State.wellProduced_raise (s : State) (e : Raise) (w : Targets) : (s.raise e w).wellProduced where
  ct := fun c hc => absurd hc (s.ct.afterError_ne_byEngine w.ct c)
  cft := fun flags hflags => absurd hflags (s.cft.afterError_ne_byEngine w.cft flags)
  rls := nofun

theorem State.wellProduced.setPlan (h : s.wellProduced) {w : PxcWork} (hset : ReservedSet w.rls) :
    (s.setWork (.plan w)).wellProduced where
  ct := h.ct
  cft := h.cft
  rls := by
    rintro _ ⟨⟩
    exact hset

theorem State.wellProduced.setStream (h : s.wellProduced) (g : Goal) (w : PxdWork) :
    (s.setWork (.stream g w)).wellProduced :=
  ⟨h.ct, h.cft, nofun⟩

/-- A table that a command builds comes from a ReservedLengthSet, so it has nine distinct nibbles (R34, R145). -/
theorem State.wf_of_buildsFlags (hs : s.wellProduced) {flags : Cft} (h : s.buildsFlags flags) : flags.wf = true := by
  obtain ⟨level, order, rfl⟩ | ⟨w, hw, rfl⟩ := h
  · exact wf_buildFlags (spelled_plan level order).set.size _
  · exact wf_buildFlags (hs.rls w hw).size _

theorem ReservedSet.planNext {input : Bytes} {w w' : PxcWork} (h : ReservedSet w.rls)
    (hnext : w.planNext input = some w') : ReservedSet w'.rls := by
  obtain ⟨b, more, op, rls, hb, hop, rfl⟩ := PxcWork.planNext_some hnext
  obtain ⟨hset, -, -⟩ := planOne_spells h hb w.level w.order
  rwa [hop] at hset

theorem State.Moves.wellProduced (hs : s.wellProduced) (h : s.Moves t) : t.wellProduced := by
  cases h with
  | done r hr =>
    exact s.wellProduced_done (fun c hc => (hr.ct c hc).2) fun flags hf => State.wf_of_buildsFlags hs (hr.cft flags hf)
  | raise e w he => exact s.wellProduced_raise e w
  | config i a b h hi => exact State.wellProduced_done (r := {}) nofun nofun _
  | startPlan level order h => exact hs.setPlan reservedSet_seed
  | planned w w' hw h => exact hs.setPlan ((hs.rls w hw).planNext h)
  | startStream g m flags h => exact hs.setStream g _
  | loaded g w c hw => exact hs.setStream g _
  | applied g w w' op hw h => exact hs.setStream g _

/-- Settles O58: what a command yields is consistent or built from a ReservedLengthSet, and an error yields nothing. -/
theorem stepKeepsProductsWellMade : Obligations.StepKeepsProductsWellMade :=
  fun _ _ hs h => step_keeps (fun _ hs => ⟨hs.ct, hs.cft, hs.rls⟩) (fun _ _ => State.Moves.wellProduced) hs h

/-! ### Cursors -/

theorem State.cursorsInside_of_idle (h : s.work = .idle) : s.cursorsInside where
  plan := fun w hw => by rw [h] at hw; cases hw
  stream := fun g w hw => by rw [h] at hw; cases hw
  block := fun g w hw => by rw [h] at hw; cases hw

theorem State.cursorsInside_setPlan {w : PxcWork} (h : w.cur ≤ s.src.len) : (s.setWork (.plan w)).cursorsInside where
  plan := by
    rintro _ ⟨⟩
    exact h
  stream := nofun
  block := nofun

theorem State.cursorsInside_setStream (s : State) (g : Goal) {w : PxdWork} (hpc : w.pc ≤ w.payload.len)
    (hblock : w.cmdb = none → w.k.val = 0) : (s.setWork (.stream g w)).cursorsInside where
  plan := nofun
  stream := by
    rintro _ _ ⟨⟩
    exact hpc
  block := by
    rintro _ _ ⟨⟩
    exact hblock

/-- A turn of planning ends inside the input (R133). -/
theorem PxcWork.cur_planNext_le {input : Bytes} {w w' : PxcWork} (h : w.planNext input = some w') :
    w'.cur ≤ input.length := by
  obtain ⟨b, more, op, rls, hb, hop, rfl⟩ := PxcWork.planNext_some h
  have hadv := planOne_advances (level := w.level) (order := w.order) (rls := w.rls) hb
  rw [hop] at hadv
  exact hadv.2

/-- Every move but the two inside a run ends a command or starts it with its cursor at 0, or plans. -/
theorem State.Moves.cursorsInside (hs : ∀ g w, s.work ≠ .stream g w) (h : s.Moves t) : t.cursorsInside := by
  cases h with
  | done r hr => exact State.cursorsInside_of_idle rfl
  | raise e w he => exact State.cursorsInside_of_idle rfl
  | config i a b h hi => exact State.cursorsInside_of_idle rfl
  | startPlan level order h => exact State.cursorsInside_setPlan (Nat.zero_le _)
  | planned w w' hw h =>
    have hcur := PxcWork.cur_planNext_le h
    rw [Memory.length_bytes] at hcur
    exact State.cursorsInside_setPlan hcur
  | startStream g m flags h => exact s.cursorsInside_setStream g (Nat.zero_le _) fun _ => rfl
  | loaded g w c hw => exact absurd hw (hs g w)
  | applied g w w' op hw h => exact absurd hw (hs g w)

/-- After an operation the run stands where R172 and R173 say. -/
theorem PxdWork.movedPast_of_apply {w w' : PxdWork} {range : PatternRange} {op : Op} (h : w.apply range op = .ok w') :
    w.movedPast op.size w' := by
  obtain ⟨b, rfl, e⟩ | ⟨i, l, b0, b1, rfl, -, e⟩ | ⟨i, l, rfl, -, e⟩ | ⟨o, n, rfl, -, e⟩ | ⟨o, n, rfl, -, e⟩ :=
    w.apply_cases range op
  all_goals rw [e] at h; cases h
  all_goals exact w.movedPast_advance _ _

/-- A run that has just passed an operation has no command byte in force only at the start of a block. -/
theorem PxdWork.k_eq_zero_of_movedPast {n : Nat} {w w' : PxdWork} (h : w.movedPast n w') (hc : w.cmdb ≠ none)
    (hnone : w'.cmdb = none) : w'.k.val = 0 := by
  obtain ⟨-, -, -, hlast, hinner⟩ := h
  obtain hk | hk : w.k.val = 7 ∨ w.k.val < 7 := by have := w.k.isLt; omega
  · exact (hlast hk).2
  · exact absurd ((hinner hk).1.symm.trans hnone) hc

/-- The element fetched lies inside the payload (R94, R174). -/
theorem PxdWork.pc_add_size_le {w : PxdWork} {op : Op} (h : w.fetch = .operation op) :
    w.pc + op.size ≤ w.payload.len := by
  obtain ⟨c, -, hdec⟩ := PxdWork.fetch_operation w h
  have hsize := decodeOp_size hdec
  have hone := one_le_size op
  rw [PxdWork.length_rest] at hsize
  omega

theorem PxdWork.pc_lt_of_fetch_commandByte {w : PxdWork} {c : Byte} (h : w.fetch = .commandByte c) :
    w.pc + 1 ≤ w.payload.len := by
  obtain ⟨-, more, hrest⟩ := PxdWork.fetch_commandByte w h
  have hlen := w.length_rest
  rw [hrest, List.length_cons] at hlen
  omega

section
variable {g : Goal} {w : PxdWork}

theorem exec_cmdb (hw : s.work = .stream g w) (c : Byte) :
    exec (.cmdb c) s = .next (s.setWork (.stream g (w.loadCommandByte c))) :=
  State.onStream_stream s hw fun w => .ok (w.loadCommandByte c)

/-- An operation in a run goes on with the run, or abandons it. -/
theorem exec_toInstr_cases (hw : s.work = .stream g w) (op : Op) :
    (∃ w', w.apply s.params.patternRange op = .ok w' ∧ exec op.toInstr s = .next (s.setWork (.stream g w'))) ∨
    (∃ c, w.apply s.params.patternRange op = .error c ∧
      exec op.toInstr s = .next (s.raise ⟨.corruptContainer, c⟩ {})) := by
  cases h : w.apply s.params.patternRange op with
  | ok w' => exact .inl ⟨w', rfl, exec_toInstr_of_ok hw h⟩
  | error c => exact .inr ⟨c, rfl, exec_toInstr_of_error hw h⟩

theorem State.finishStream_work (s : State) (g : Goal) (out : Memory) : (s.finishStream g out).work = .idle := by
  obtain e | ⟨-, e⟩ := s.finishStream_cases g out <;> rw [e] <;> rfl

end

/-- Settles O59: inside a run the element fetched bounds the cursor, and every other step leaves no cursor or a fresh
one. -/
theorem stepKeepsCursorsInside : Obligations.StepKeepsCursorsInside := by
  intro s t hs h
  obtain ⟨-, -, rfl⟩ | ⟨hidle, -, i, -, -, hm⟩ | ⟨-, -, -, rfl⟩ | ⟨⟨w, hw, -⟩, hm⟩ | ⟨⟨g, w, hw, hfetch⟩, -⟩ :=
    step_cases h
  · exact hs
  · exact hm.cursorsInside fun g w hw => by rw [State.takeIssue_work, hidle] at hw; cases hw
  · exact State.cursorsInside_of_idle rfl
  · exact hm.cursorsInside fun g w' hw' => by rw [hw] at hw'; cases hw'
  · obtain ⟨-, rfl⟩ | ⟨c, hf, hexec⟩ | ⟨op, hf, hexec⟩ | ⟨-, rfl⟩ := hfetch
    · exact State.cursorsInside_of_idle (s.finishStream_work g w.out)
    · rw [exec_cmdb hw] at hexec
      cases hexec
      exact s.cursorsInside_setStream g (PxdWork.pc_lt_of_fetch_commandByte hf) nofun
    · obtain ⟨w', hap, heq⟩ | ⟨c, -, heq⟩ := exec_toInstr_cases hw op <;> rw [heq] at hexec <;> cases hexec
      · obtain ⟨c, hc, -⟩ := PxdWork.fetch_operation w hf
        obtain ⟨hpayload, -, hpc⟩ := PxdWork.apply_ok hap
        have hblock := PxdWork.k_eq_zero_of_movedPast (PxdWork.movedPast_of_apply hap) (by simp [hc])
        refine s.cursorsInside_setStream g ?_ hblock
        rw [hpayload, hpc]
        exact PxdWork.pc_add_size_le hf
      · exact State.cursorsInside_of_idle rfl
    · exact State.cursorsInside_of_idle rfl

/-! ### Reset -/

/-- Settles O60: after reset nothing is held, nothing is in progress, and every buffer is empty. -/
theorem resetMeetsTheInvariants : Obligations.ResetMeetsTheInvariants := by
  intro p hlenw
  refine ⟨⟨rfl, nofun, nofun, nofun⟩, rfl, ⟨nofun, nofun, nofun, nofun⟩, ⟨nofun, nofun, nofun⟩,
    State.cursorsInside_of_idle rfl, ⟨hlenw, Nat.two_pow_pos _, Nat.two_pow_pos _, Nat.zero_le _⟩⟩

end Sys2Proof.Machine
end

section
/-! SUPPORT. Containers with a layout: the fields of a serialised container are found where FDES looks for them; O44,
O36, O37, O41 and O33 (42_container_formats.md R202, R204, R205, 30_encoding.md R106 to R115). -/

namespace Sys2Proof.Machine

/-! ### Fields in front of and behind other bytes -/

theorem startsWith_append (m rest : Bytes) : startsWith m (m ++ rest) 0 = true := by
  simp [startsWith_iff]

/-- The flags field read back, wherever it stands (30_encoding.md R115). -/
theorem flagsAt_entries (front back : Bytes) (flags : Cft) :
    flagsAt (front ++ (flags.entries ++ back)) front.length = flags := by
  simp only [flagsAt, byteAt_append_right]
  rw [show front.length = front.length + 0 from rfl, byteAt_append_right]
  rfl

/-- The payload read back: the bytes behind the header, up to the declared size (R204). -/
theorem payloadAt_append {front : Bytes} {m : Memory} {n : BitVec 16} (hm : m.wf) (h : n.toNat = front.length + m.len) :
    payloadAt (front ++ m.bytes) 0 front.length n = m := by
  have hslice : slice (front ++ m.bytes) (0 + front.length) (0 + n.toNat) = m.bytes := by
    rw [slice, Nat.zero_add, Nat.zero_add, h, List.drop_left, Nat.add_sub_cancel_left, ← m.length_bytes,
      List.take_length]
  rw [payloadAt, hslice, Memory.ofBytes_bytes hm]

/-- A serialised container: the four checks of FDES pass, the size field is the length, and the payload is behind the
header (R204, R205). -/
theorem parse_layout {magic fields : Bytes} {n : BitVec 16} {m : Memory} (hdr : Nat) (hmagic : magic.length = 5)
    (hhdr : hdr = 7 + fields.length) (hn : n.toNat = hdr + m.len) (hm : m.wf) :
    let b := magic ++ (le16 n ++ (fields ++ m.bytes))
    parseHeader magic hdr b 0 = .ok n ∧ payloadAt b 0 hdr n = m ∧ b.length = (u16le b 5).toNat := by
  intro b
  have hsize : u16le b 5 = n := hmagic ▸ u16le_le16 magic (fields ++ m.bytes) n
  have hlen : b.length = n.toNat := by
    simp only [b, List.length_append, length_le16, Memory.length_bytes, hmagic]
    omega
  have hpayload : payloadAt b 0 hdr n = m := by
    have hfront : (magic ++ le16 n ++ fields).length = hdr := by
      simp only [List.length_append, length_le16, hmagic]
      omega
    have hback := payloadAt_append (front := magic ++ le16 n ++ fields) hm (by rw [hfront]; exact hn)
    rwa [hfront, List.append_assoc, List.append_assoc] at hback
  refine ⟨?_, hpayload, by rw [hsize, hlen]⟩
  rw [parseHeader, if_pos (startsWith_append magic _), Nat.zero_add, hsize, Nat.sub_zero, hlen]
  simp only [hn, Nat.not_lt.mpr (Nat.le_add_right hdr m.len), Nat.lt_irrefl, if_false]

/-! ### FDES, format by format, once the checks have passed -/

section
variable {src : Bytes} {o : Nat} {n : BitVec 16}

theorem parseAt3px_of_header (h : parseHeader magicAt3px 16 src o = .ok n) :
    parseAt3px src o = .ok (.at3px n (flagsAt src (o + 7)) (payloadAt src o 16 n)) :=
  congrArg (Except.map _) h

theorem parseAt4px_of_header (h : parseHeader magicAt4px 18 src o = .ok n) :
    parseAt4px src o = .ok (.at4px n (flagsAt src (o + 7)) (u16le src (o + 16)) (payloadAt src o 18 n)) :=
  congrArg (Except.map _) h

theorem parsePkdpx_of_header (h : parseHeader magicPkdpx 20 src o = .ok n) :
    parsePkdpx src o = .ok (.pkdpx n (flagsAt src (o + 7)) (u32le src (o + 16)) (payloadAt src o 20 n)) :=
  congrArg (Except.map _) h

theorem parseAtupx_of_header (h : parseHeader magicAtupx 11 src o = .ok n) :
    parseAtupx src o = .ok (.atupx n (u32le src (o + 7)) (payloadAt src o 11 n)) :=
  congrArg (Except.map _) h

end

/-! ### Parse of serialise -/

/-- The bytes of a consistent container with a layout parse back to it (R205). -/
theorem parseFormat_containerBytes (p : Params) {c : Container} {b : Bytes} (hcons : c.consistent = true)
    (hcanon : c.canonical) (hformat : c.format ≠ .at4pn) (hb : containerBytes p c = some b) :
    parseFormat p c.format b 0 = .ok c ∧ b.length = (u16le b 5).toNat := by
  cases c with
  | at4pn blob => exact absurd rfl hformat
  | at3px n flags m =>
    obtain rfl := Option.some.inj hb
    have hflags := flagsAt_entries (magicAt3px ++ le16 n) m.bytes flags
    obtain ⟨hheader, hpayload, hlen⟩ := parse_layout (magic := magicAt3px) (fields := flags.entries) 16 rfl rfl
      (of_decide_eq_true hcons) hcanon
    simp only [List.append_assoc] at hflags ⊢
    refine ⟨(parseAt3px_of_header hheader).trans ?_, hlen⟩
    rw [hpayload, show flagsAt _ (0 + 7) = flags from hflags]
  | at4px n flags d m =>
    obtain rfl := Option.some.inj hb
    have hflags := flagsAt_entries (magicAt4px ++ le16 n) (le16 d ++ m.bytes) flags
    have hd := u16le_le16 (magicAt4px ++ le16 n ++ flags.entries) m.bytes d
    obtain ⟨hheader, hpayload, hlen⟩ := parse_layout (magic := magicAt4px) (fields := flags.entries ++ le16 d) 18 rfl
      rfl (of_decide_eq_true hcons) hcanon
    simp only [List.append_assoc] at hflags hd hheader hpayload hlen ⊢
    refine ⟨(parseAt4px_of_header hheader).trans ?_, hlen⟩
    rw [hpayload, show flagsAt _ (0 + 7) = flags from hflags, show u16le _ (0 + 16) = d from hd]
  | pkdpx n flags d m =>
    obtain rfl := Option.some.inj hb
    have hflags := flagsAt_entries (magicPkdpx ++ le16 n) (le32 d ++ m.bytes) flags
    have hd := u32le_le32 (magicPkdpx ++ le16 n ++ flags.entries) m.bytes d
    obtain ⟨hheader, hpayload, hlen⟩ := parse_layout (magic := magicPkdpx) (fields := flags.entries ++ le32 d) 20 rfl
      rfl (of_decide_eq_true hcons) hcanon
    simp only [List.append_assoc] at hflags hd hheader hpayload hlen ⊢
    refine ⟨(parsePkdpx_of_header hheader).trans ?_, hlen⟩
    rw [hpayload, show flagsAt _ (0 + 7) = flags from hflags, show u32le _ (0 + 16) = d from hd]
  | atupx n d m =>
    obtain rfl := Option.some.inj hb
    have hd := u32le_le32 (magicAtupx ++ le16 n) m.bytes d
    obtain ⟨hheader, hpayload, hlen⟩ := parse_layout (magic := magicAtupx) (fields := le32 d) 11 rfl rfl
      (of_decide_eq_true hcons) hcanon
    simp only [List.append_assoc] at hd ⊢
    refine ⟨(parseAtupx_of_header hheader).trans ?_, hlen⟩
    rw [hpayload, show u32le _ (0 + 7) = d from hd]

/-- Settles O44: what FSER writes is the bytes of a consistent container. -/
theorem parseInvertsSerialize : Obligations.ParseInvertsSerialize := by
  intro p c b hformat hcanon hser
  obtain ⟨-, heq⟩ | ⟨-, -, heq⟩ | ⟨hcons, b', hb, heq⟩ := serialize_cases p c <;> rw [heq] at hser <;> cases hser
  exact parseFormat_containerBytes p hcons hcanon hformat hb

/-! ### FDES -/

/-- The four FDES commands differ in the magic they look for, in the header's length and in the fields they read. -/
theorem exec_fdes {i : Instr} {magic : Bytes} {hdr : Nat}
    (h : (i, magic, hdr) ∈ [(Instr.fdesAt3px, magicAt3px, 16), (.fdesAt4px, magicAt4px, 18),
      (.fdesPkdpx, magicPkdpx, 20), (.fdesAtupx, magicAtupx, 11)]) (s : State) :
    magic.length = 5 ∧ ∃ mk : BitVec 16 → Container,
      exec i s = .next (s.finishContainer ((parseHeader magic hdr s.src.bytes s.cmdOffset).map mk)) := by
  simp only [List.mem_cons, List.not_mem_nil, or_false, Prod.mk.injEq] at h
  obtain ⟨rfl, rfl, rfl⟩ | ⟨rfl, rfl, rfl⟩ | ⟨rfl, rfl, rfl⟩ | ⟨rfl, rfl, rfl⟩ := h
  all_goals exact ⟨rfl, _, rfl⟩

section
variable {m src : Bytes} {hdr o : Nat}

theorem parseHeader_mismatch (h : startsWith m src o = false) :
    parseHeader m hdr src o = .error (corrupt .magicMismatch) := by
  simp [parseHeader, h]

theorem parseHeader_short (h : startsWith m src o = true) (hlt : src.length - o < hdr) :
    parseHeader m hdr src o = .error (corrupt .truncatedHeader) := by
  simp [parseHeader, h, hlt]

theorem parseHeader_sizeBelowHeader (h : startsWith m src o = true) (hle : hdr ≤ src.length - o)
    (hlt : (u16le src (o + 5)).toNat < hdr) : parseHeader m hdr src o = .error (corrupt .truncatedHeader) := by
  simp [parseHeader, h, Nat.not_lt.mpr hle, hlt]

theorem parseHeader_truncated (h : startsWith m src o = true) (hle : hdr ≤ src.length - o)
    (hsize : hdr ≤ (u16le src (o + 5)).toNat) (hlt : src.length - o < (u16le src (o + 5)).toNat) :
    parseHeader m hdr src o = .error (corrupt .truncatedContainer) := by
  simp [parseHeader, h, Nat.not_lt.mpr hle, Nat.not_lt.mpr hsize, hlt]

theorem parseHeader_passes (h : startsWith m src o = true) (hle : hdr ≤ src.length - o)
    (hsize : hdr ≤ (u16le src (o + 5)).toNat) (hend : (u16le src (o + 5)).toNat ≤ src.length - o) :
    parseHeader m hdr src o = .ok (u16le src (o + 5)) := by
  simp [parseHeader, h, Nat.not_lt.mpr hle, Nat.not_lt.mpr hsize, Nat.not_lt.mpr hend]

end

/-- Settles O37: each clause is the equation of the header check for it. -/
theorem parseChecksInOrder : Obligations.ParseChecksInOrder := by
  intro s i magic hdr hmem o avail csize there raises
  obtain ⟨hmagic, mk, hexec⟩ := exec_fdes hmem s
  have hthere : startsWith magic s.src.bytes o = true ↔ there := by
    rw [startsWith_iff, hmagic, Memory.length_bytes]
  have havail : s.src.bytes.length - o = avail := by rw [Memory.length_bytes]
  have hraise : ∀ {c : Cause}, parseHeader magic hdr s.src.bytes o = .error (corrupt c) → raises c := by
    intro c herror
    have hparse : (parseHeader magic hdr s.src.bytes s.cmdOffset).map mk = .error (corrupt c) :=
      congrArg (Except.map mk) herror
    exact hexec.trans (by rw [hparse]; rfl)
  refine ⟨fun hno => hraise ?mismatch, fun hyes hlt => hraise ?short, fun hyes hle hlt => hraise ?below,
    fun hyes hle hsize hlt => hraise ?truncated⟩
  case mismatch => exact parseHeader_mismatch (Bool.eq_false_iff.mpr (mt hthere.mp hno))
  case short => exact parseHeader_short (hthere.mpr hyes) (havail ▸ hlt)
  case below => exact parseHeader_sizeBelowHeader (hthere.mpr hyes) (havail ▸ hle) hlt
  case truncated => exact parseHeader_truncated (hthere.mpr hyes) (havail ▸ hle) hsize (havail ▸ hlt)

theorem payloadAt_eq (src : Bytes) (o hdr : Nat) (n : BitVec 16) :
    payloadAt src o hdr n = Memory.ofBytes ((src.drop (o + hdr)).take (n.toNat - hdr)) := by
  rw [payloadAt, slice, Nat.add_sub_add_left]

/-- Settles O36: where the header check passes, each field is the sum of its bytes. -/
theorem parseTakesTheDeclaredFields : Obligations.ParseTakesTheDeclaredFields := by
  intro s o src b u16 u32 csize flags payload passes
  have hcsize : u16le src (o + 5) = csize := u16le_eq_sum src (o + 5)
  have hheader : ∀ {magic : Bytes} {hdr : Nat}, magic.length = 5 → 5 ≤ hdr → passes magic hdr →
      parseHeader magic hdr src o = .ok csize := by
    intro magic hdr hmagic hhdr hpass
    obtain ⟨hthere, hin, hsize, hend⟩ := hpass
    have hstarts : startsWith magic src o = true := startsWith_iff.mpr ⟨by omega, hmagic.symm ▸ hthere⟩
    rw [← hcsize] at hsize hend ⊢
    exact parseHeader_passes hstarts (by omega) hsize (by omega)
  have hpayload : ∀ hdr, payloadAt src o hdr csize = payload hdr := fun hdr => payloadAt_eq src o hdr csize
  have hdone : ∀ {r : Except Raise Container} {c : Container}, r = .ok c →
      s.finishContainer r = s.done { ct := some c } := by
    rintro _ c rfl
    rfl
  refine ⟨fun h => ?at3px, fun h => ?at4px, fun h => ?pkdpx, fun h => ?atupx⟩
  case at3px =>
    refine congrArg _ (hdone ((parseAt3px_of_header (hheader rfl (by decide) h)).trans ?_))
    rw [hpayload]
    rfl
  case at4px =>
    refine congrArg _ (hdone ((parseAt4px_of_header (hheader rfl (by decide) h)).trans ?_))
    rw [hpayload, u16le_eq_sum]
    rfl
  case pkdpx =>
    refine congrArg _ (hdone ((parsePkdpx_of_header (hheader rfl (by decide) h)).trans ?_))
    rw [hpayload, u32le_eq_sum]
    rfl
  case atupx =>
    refine congrArg _ (hdone ((parseAtupx_of_header (hheader rfl (by decide) h)).trans ?_))
    rw [hpayload, u32le_eq_sum]

/-! ### FSER -/

theorem le16_eq (v : BitVec 16) : le16 v = [BitVec.ofNat 8 (v.toNat % 256), BitVec.ofNat 8 (v.toNat / 256)] := by
  simp only [le16, List.cons.injEq, and_true, ← BitVec.toNat_inj, BitVec.extractLsb'_toNat, BitVec.toNat_ofNat,
    Nat.shiftRight_eq_div_pow]
  omega

theorem le32_eq (v : BitVec 32) :
    le32 v = [BitVec.ofNat 8 (v.toNat % 256), BitVec.ofNat 8 (v.toNat / 256 % 256),
      BitVec.ofNat 8 (v.toNat / 65536 % 256), BitVec.ofNat 8 (v.toNat / 16777216)] := by
  simp only [le32, List.cons.injEq, and_true, ← BitVec.toNat_inj, BitVec.extractLsb'_toNat, BitVec.toNat_ofNat,
    Nat.shiftRight_eq_div_pow]
  omega

theorem serialize_inconsistent {c : Container} (h : c.consistent = false) (p : Params) :
    serialize p c = .error ⟨.illegalCommand, .badContainer⟩ := by
  simp [serialize, h]

theorem serialize_of_bytes {p : Params} {c : Container} {b : Bytes} (h : c.consistent = true)
    (hb : containerBytes p c = some b) : serialize p c = .ok b := by
  simp [serialize, h, hb]

/-- Settles O41: FSER writes the bytes of a consistent container, its integers as sums of their bytes. -/
theorem serializeWritesTheWireOrder : Obligations.SerializeWritesTheWireOrder := by
  intro s u16 u32
  have hwrite : ∀ {c : Container} {b b' : Bytes}, s.ct.value = some c → c.consistent = true →
      containerBytes s.params c = some b → b = b' →
      exec .fser s = .next (s.done { dst := some (Memory.ofBytes b') }) := by
    rintro c b _ hct hcons hb rfl
    rw [exec_fser hct, serialize_of_bytes hcons hb]
    rfl
  refine ⟨fun c hct hbad => ?inconsistent, fun n flags m hct hn => ?at3px, fun n flags d m hct hn => ?at4px,
    fun n flags d m hct hn => ?pkdpx, fun n d m hct hn => ?atupx⟩
  case inconsistent =>
    rw [exec_fser hct, serialize_inconsistent hbad]
    rfl
  case at3px =>
    exact hwrite hct (decide_eq_true hn) rfl (by rw [le16_eq]; rfl)
  case at4px =>
    exact hwrite hct (decide_eq_true hn) rfl (by rw [le16_eq, le16_eq]; rfl)
  case pkdpx =>
    exact hwrite hct (decide_eq_true hn) rfl (by rw [le16_eq, le32_eq]; rfl)
  case atupx =>
    exact hwrite hct (decide_eq_true hn) rfl (by rw [le16_eq, le32_eq]; rfl)

/-! ### MATCH -/

theorem matchResult_startsWith (m : Memory) (magic : Bytes) (o : Nat) :
    matchResult (startsWith magic m.bytes o) =
      { res := some
          (if o + magic.length ≤ m.len ∧ (m.bytes.drop o).take magic.length = magic then 1#32 else 0#32) } := by
  simp only [matchResult, startsWith_iff, Memory.length_bytes]

/-- Settles O33: MATCH answers whether its magic starts at the offset, and without a plug-in AT4PN has none. -/
theorem matchAnswersWhetherTheMagicIsThere : Obligations.MatchAnswersWhetherTheMagicIsThere := by
  intro s answer
  have hanswer : ∀ magic, s.done (matchResult (startsWith magic s.src.bytes s.cmdOffset)) = answer magic :=
    fun magic => congrArg s.done (matchResult_startsWith s.src magic s.cmdOffset)
  refine ⟨congrArg _ (hanswer magicAt3px), congrArg _ (hanswer magicAt4px), congrArg _ (hanswer magicPkdpx),
    congrArg _ (hanswer magicAtupx), fun hplug => ?absent, fun plug hplug => ?present⟩
  case absent =>
    simp only [exec, execMatchAt4pn, matchesFormat, matchesPlug, hplug]
    rfl
  case present =>
    simp only [exec, execMatchAt4pn, matchesFormat_at4pn_present hplug]
    exact congrArg _ (hanswer (plugMagic plug))

end Sys2Proof.Machine
end

section
/-! SUPPORT. The PX stream operations: the nibbles of every row of the pattern table, the copy inside OUT, and what an
operation leaves of OUT; O8, O12, O11, O13, O16, O25 and O30 (41_px_decompressor.md R172, R177 to R187, R192,
30_encoding.md R101 to R103). -/

namespace Sys2Proof.Machine

/-! ### The pattern table -/

/-- The eight pairs written out are those whose row leaves 0..15 (R102). -/
theorem inRange_patternRow_iff (i : Fin 9) (l : Nibble) :
    (patternRow i l.toNat).inRange = true ↔ (i, l) ∉ outOfRangePairs := by
  revert i l
  decide

theorem pattern_fault {i : Fin 9} {l : Nibble} (h : (i, l) ∈ outOfRangePairs) : pattern .fault i l = none := by
  have hrange : ¬ (patternRow i l.toNat).inRange = true := mt (inRange_patternRow_iff i l).mp (not_not_intro h)
  simp [pattern, hrange]

/-- A pattern that goes on is its row taken modulo 16 (R101, R102). -/
theorem pattern_goes_on {range : PatternRange} {i : Fin 9} {l : Nibble}
    (h : (i, l) ∉ outOfRangePairs ∨ range = .wrap) : pattern range i l = some (patternRow i l.toNat).bytes := by
  obtain h | rfl := h
  · simp [pattern, (inRange_patternRow_iff i l).mpr h]
  · simp [pattern]

/-- The four nibbles of row `i` at `n`, modulo 16 (R101, R102). -/
def wrappedRow (i : Fin 9) (n : Nat) : Bytes :=
  let up := (n + 1) % 16
  let down := (n + 15) % 16
  match i with
  | 0 => nibbleBytes n n n n
  | 1 => nibbleBytes n up up up
  | 2 => nibbleBytes n down n n
  | 3 => nibbleBytes n n down n
  | 4 => nibbleBytes n n n down
  | 5 => nibbleBytes n down down down
  | 6 => nibbleBytes n up n n
  | 7 => nibbleBytes n n up n
  | 8 => nibbleBytes n n n up

theorem toNat_ofInt_up (n : Nat) : (BitVec.ofInt 4 ((n : Int) + 1)).toNat = (n + 1) % 16 := by
  rw [BitVec.toNat_ofInt]
  omega

theorem toNat_ofInt_down (n : Nat) : (BitVec.ofInt 4 ((n : Int) - 1)).toNat = (n + 15) % 16 := by
  rw [BitVec.toNat_ofInt]
  omega

theorem bytes_patternRow (i : Fin 9) (l : Nibble) :
    [(patternRow i l.toNat).bytes.1, (patternRow i l.toNat).bytes.2] = wrappedRow i l.toNat := by
  have hself : (BitVec.ofInt 4 (l.toNat : Int)) = l := by simp
  fin_cases i <;>
    simp [-BitVec.toNat_ofInt, patternRow, Quad.bytes, wrappedRow, nibbleBytes, joinNibbles_eq_ofNat, toNat_ofInt_up,
      toNat_ofInt_down, hself]

section
variable {s : State} {g : Goal} {w : PxdWork} {i : Fin 9} {l : Nibble}

/-- A pattern that goes on appends the two bytes of its row and moves past one payload byte (R196). -/
theorem exec_nibblePattern (hs : s.work = .stream g w)
    (h : (i, l) ∉ outOfRangePairs ∨ s.params.patternRange = .wrap) :
    ∃ w', exec (Op.nibblePattern i l).toInstr s = .next (s.setWork (.stream g w')) ∧ w.movedPast 1 w' ∧
      w'.out.bytes = w.out.bytes ++ wrappedRow i l.toNat :=
  ⟨_, exec_toInstr_of_ok hs (PxdWork.apply_pattern (pattern_goes_on h) w), w.movedPast_advance 1 _, by
    rw [PxdWork.advance_out, Memory.bytes_append, Memory.bytes_append, List.append_assoc, ← bytes_patternRow]
    rfl⟩

theorem exec_nibblePattern_fault (hs : s.work = .stream g w) (h : (i, l) ∈ outOfRangePairs)
    (hrange : s.params.patternRange = .fault) :
    exec (Op.nibblePattern i l).toInstr s = .next (s.raise ⟨.corruptContainer, .patternRange⟩ {}) :=
  exec_toInstr_of_error hs (by simp [PxdWork.apply, PxdWork.nibblePattern, hrange, pattern_fault h])

end

/-- Settles O12: the row modulo 16 is the bytes that the statement writes out. -/
theorem patternOutOfRangeFaultsOrWraps : Obligations.PatternOutOfRangeFaultsOrWraps := by
  intro s g w i l hs n up down added
  have hadded : added = wrappedRow i n := by fin_cases i <;> rfl
  refine ⟨exec_nibblePattern_fault hs, fun h => ?_⟩
  rw [hadded]
  exact exec_nibblePattern hs h

/-- Settles O11: inside the range of its row no nibble wraps. -/
theorem nearEqualPatternsAppendTwoBytes : Obligations.NearEqualPatternsAppendTwoBytes := by
  intro s g w l hs n appends
  have hrow : ∀ (i : Fin 9) {added : Bytes}, (i, l) ∉ outOfRangePairs → wrappedRow i n = added →
      appends (Op.nibblePattern i l).toInstr added := by
    rintro i _ hin rfl
    exact exec_nibblePattern hs (.inl hin)
  have hl := l.isLt
  refine ⟨fun hup => ?up, fun hdown => ?down⟩
  case up =>
    have hne : l ≠ 15#4 := by
      rintro rfl
      exact absurd hup (by decide)
    have hmod : (n + 1) % 16 = n + 1 := Nat.mod_eq_of_lt (by omega)
    refine ⟨hrow 1 ?_ ?_, hrow 6 ?_ ?_, hrow 7 ?_ ?_, hrow 8 ?_ ?_⟩
    all_goals simp [outOfRangePairs, wrappedRow, hmod, hne]
  case down =>
    have hne : l ≠ 0#4 := by
      rintro rfl
      exact absurd hdown (by decide)
    have hmod : (n + 15) % 16 = n - 1 := by omega
    refine ⟨hrow 2 ?_ ?_, hrow 3 ?_ ?_, hrow 4 ?_ ?_, hrow 5 ?_ ?_⟩
    all_goals simp [outOfRangePairs, wrappedRow, hmod, hne]

theorem toNat_ofInt_of_isNibble {n : Int} (h : isNibble n = true) : ((BitVec.ofInt 4 n).toNat : Int) = n := by
  simp only [isNibble, Bool.and_eq_true, decide_eq_true_eq] at h
  rw [BitVec.toNat_ofInt]
  omega

/-- A pattern in range shows the four nibbles of its row in its two bytes (R101). -/
theorem patternRow_of_pattern {i : Fin 9} {l : Nibble} {b0 b1 : Byte} (h : pattern .fault i l = some (b0, b1)) :
    patternRow i l.toNat = ⟨(hi4 b0).toNat, (lo4 b0).toNat, (hi4 b1).toNat, (lo4 b1).toNat⟩ := by
  unfold pattern at h
  dsimp only at h
  split at h
  case isFalse => cases h
  case isTrue hrange =>
    simp only [Quad.inRange, Bool.and_eq_true] at hrange
    obtain ⟨⟨⟨h0, h1⟩, h2⟩, h3⟩ := hrange
    cases h
    simp only [hi4_joinNibbles, lo4_joinNibbles, toNat_ofInt_of_isNibble, h0, h1, h2, h3]

/-- Two bytes that show a row are classified as it: the odd nibble and its neighbours tell the row (R103). -/
theorem classify_of_patternRow {i : Fin 9} {l : Nibble} {b0 b1 : Byte}
    (h : patternRow i l.toNat = ⟨(hi4 b0).toNat, (lo4 b0).toNat, (hi4 b1).toNat, (lo4 b1).toNat⟩) :
    classify b0 b1 = some (i, l) := by
  unfold classify oddNibble
  dsimp only
  generalize hi4 b0 = n0, lo4 b0 = n1, hi4 b1 = n2, lo4 b1 = n3 at h ⊢
  simp only [← BitVec.toNat_inj]
  have hlow : l = n0 := by
    have hfirst : (patternRow i l.toNat).n0 = l.toNat := by fin_cases i <;> rfl
    rw [h] at hfirst
    exact BitVec.eq_of_toNat_eq (Int.ofNat.inj hfirst).symm
  subst hlow
  fin_cases i <;> simp only [patternRow, Quad.mk.injEq, true_and] at h
  · obtain ⟨h1, h2, h3⟩ : n1.toNat = l.toNat ∧ n2.toNat = l.toNat ∧ n3.toNat = l.toNat := by omega
    simp [h1, h2, h3]
  · obtain ⟨h1, h2, h3⟩ : n1.toNat = l.toNat + 1 ∧ n2.toNat = l.toNat + 1 ∧ n3.toNat = l.toNat + 1 := by omega
    simp [h1, h2, h3]
  · obtain ⟨h1, h2, h3⟩ : l.toNat = n1.toNat + 1 ∧ n2.toNat = l.toNat ∧ n3.toNat = l.toNat := by omega
    simp [h1, h2, h3]
  · obtain ⟨h1, h2, h3⟩ : n1.toNat = l.toNat ∧ l.toNat = n2.toNat + 1 ∧ n3.toNat = l.toNat := by omega
    simp [h1, h2, h3]
  · obtain ⟨h1, h2, h3⟩ : n1.toNat = l.toNat ∧ n2.toNat = l.toNat ∧ l.toNat = n3.toNat + 1 := by omega
    simp [h1, h2, h3]
  · obtain ⟨h1, h2, h3⟩ : l.toNat = n1.toNat + 1 ∧ n2.toNat = n1.toNat ∧ n3.toNat = n1.toNat := by omega
    simp [h1, h2, h3, Nat.add_assoc]
  · obtain ⟨h1, h2, h3⟩ : n1.toNat = l.toNat + 1 ∧ n2.toNat = l.toNat ∧ n3.toNat = l.toNat := by omega
    simp [h1, h2, h3, Nat.add_assoc]
  · obtain ⟨h1, h2, h3⟩ : n1.toNat = l.toNat ∧ n2.toNat = l.toNat + 1 ∧ n3.toNat = l.toNat := by omega
    simp [h1, h2, h3, Nat.add_assoc]
  · obtain ⟨h1, h2, h3⟩ : n1.toNat = l.toNat ∧ n2.toNat = l.toNat ∧ n3.toNat = l.toNat + 1 := by omega
    simp [h1, h2, h3, Nat.add_assoc]

/-- Settles O25: the row of a pattern and the answer of `classify` determine each other. -/
theorem classifyInvertsThePatternTable : Obligations.ClassifyInvertsThePatternTable :=
  fun _ _ _ _ => ⟨fun h => pattern_of_classify h .fault, fun h => classify_of_patternRow (patternRow_of_pattern h)⟩

/-! ### Command bytes -/

/-- Settles O8: the command byte is loaded into the run in progress. -/
theorem commandByteOpensABlock : Obligations.CommandByteOpensABlock :=
  fun _ _ _ c hs => exec_cmdb hs c

/-! ### The copy inside OUT -/

theorem copyBytes_prefix (count src : Nat) (l : Bytes) : l <+: copyBytes count src l := by
  induction count generalizing src l with
  | zero => exact List.prefix_rfl
  | succ count ih =>
    unfold copyBytes
    split
    · exact (List.prefix_append l _).trans (ih _ _)
    · exact List.prefix_rfl

/-- Every operation keeps the bytes that OUT has (20_memory.md R68). -/
theorem PxdWork.out_prefix_of_apply {w w' : PxdWork} {range : PatternRange} {op : Op} (hw : w.out.wf)
    (h : w.apply range op = .ok w') : w.out.bytes <+: w'.out.bytes := by
  obtain ⟨b, rfl, e⟩ | ⟨i, l, b0, b1, rfl, -, e⟩ | ⟨i, l, rfl, -, e⟩ | ⟨o, n, rfl, -, e⟩ | ⟨o, n, rfl, -, e⟩ :=
    w.apply_cases range op
  all_goals rw [e] at h; cases h
  · simp
  · simp
  · simpa [Memory.bytes_copyBack hw] using copyBytes_prefix n _ _

theorem Memory.read_of_prefix {m m' : Memory} (hm : m.wf) (hm' : m'.wf) (h : m.bytes <+: m'.bytes) {a : Nat}
    (ha : a < m.len) : m'.read a = m.read a := by
  obtain ⟨added, hadded⟩ := h
  rw [Memory.read_eq hm, Memory.read_eq hm', ← hadded, List.getElem?_append_left (by simpa using ha)]

theorem PxdWork.read_out_of_apply {w w' : PxdWork} {range : PatternRange} {op : Op} (hw : w.out.wf)
    (h : w.apply range op = .ok w') {a : Nat} (ha : a < w.out.len) : w'.out.read a = w.out.read a :=
  Memory.read_of_prefix hw (PxdWork.apply_out_wf hw h) (PxdWork.out_prefix_of_apply hw h) ha

/-- A Sequence whose source starts inside OUT appends the copy (R186). -/
theorem PxdWork.apply_sequence {w : PxdWork} {offset : Int} (h : 0 ≤ (w.out.len : Int) + offset)
    (range : PatternRange) (length : Nat) :
    w.apply range (.sequence offset length) =
      .ok ({ w with out := Memory.copyBack length ((w.out.len : Int) + offset).toNat w.out }.advance 2) :=
  if_neg (Int.not_lt.mpr h)

/-- Settles O13: what the copy adds is the periodic extension that `copyBytes_spec` describes. -/
theorem sequenceCopiesByteByByte : Obligations.SequenceCopiesByteByByte := by
  intro s g w offset length hs hwf hoffset hsource
  have happly := PxdWork.apply_sequence hsource s.params.patternRange length
  refine ⟨_, exec_toInstr_of_ok hs (op := .sequence offset length) happly, w.movedPast_advance 2 _, ?_⟩
  rw [PxdWork.advance_out]
  have hsrc : ((w.out.len : Int) + offset).toNat < w.out.bytes.length := by rw [Memory.length_bytes]; omega
  generalize ((w.out.len : Int) + offset).toNat = src at hsrc
  have hwf' := Memory.wf_copyBack hwf length src
  obtain ⟨added, hlen, heq, hcopy⟩ := copyBytes_spec length src w.out.bytes hsrc
  have hbytes : (Memory.copyBack length src w.out).bytes = w.out.bytes ++ added := by
    rw [Memory.bytes_copyBack hwf, heq]
  refine ⟨?length, fun a ha => ?kept, fun j hj => ?copied⟩
  case length => rw [← Memory.length_bytes, hbytes, List.length_append, Memory.length_bytes, hlen]
  case kept => exact Memory.read_of_prefix hwf hwf' (hbytes ▸ List.prefix_append _ _) ha
  case copied =>
    rw [Memory.read_eq hwf', Memory.read_eq hwf', hbytes, ← w.out.length_bytes]
    exact ⟨hcopy j hj, by simp [hlen, hj]⟩

/-! ### The frame of a stream operation -/

theorem eq_toInstr_of_toOp {i : Instr} {op : Op} (h : i.toOp = some op) : i = op.toInstr := by
  cases i <;> cases h <;> rfl

theorem State.sameOperands_setWork (s : State) (w : Work) : s.sameOperands (s.setWork w) := ⟨rfl, rfl, rfl, rfl, rfl⟩

theorem State.sameConfig_setWork (s : State) (w : Work) : s.sameConfig (s.setWork w) := ⟨rfl, rfl⟩

theorem State.sameResults_setWork (s : State) (w : Work) : s.sameResults (s.setWork w) :=
  ⟨rfl, rfl, rfl, rfl, rfl, rfl, rfl⟩

theorem State.sameOperands_raise (s : State) (e : Raise) (w : Targets) : s.sameOperands (s.raise e w) :=
  ⟨rfl, rfl, rfl, rfl, rfl⟩

theorem State.sameConfig_raise (s : State) (e : Raise) (w : Targets) : s.sameConfig (s.raise e w) := ⟨rfl, rfl⟩

/-- Settles O16: the run goes on with a working state that an operation or a command byte makes, or it is abandoned. -/
theorem streamOperationsChangeOnlyTheRun : Obligations.StreamOperationsChangeOnlyTheRun := by
  intro i s hi
  refine ⟨fun t g w hs hwf ht => ?inside, fun hs => ?outside⟩
  case inside =>
    obtain hop | ⟨c, rfl⟩ := hi
    · obtain ⟨op, hop⟩ := Option.isSome_iff_exists.mp hop
      obtain rfl := eq_toInstr_of_toOp hop
      obtain ⟨w', happly, heq⟩ | ⟨c, -, heq⟩ := exec_toInstr_cases hs op <;> rw [heq] at ht <;> cases ht
      · obtain ⟨hpayload, hflags, -⟩ := PxdWork.apply_ok happly
        exact ⟨s.sameOperands_setWork _, s.sameConfig_setWork _, rfl, .inl ⟨w', rfl, s.sameResults_setWork _, hpayload,
          hflags, fun a ha => PxdWork.read_out_of_apply hwf happly ha⟩⟩
      · exact ⟨s.sameOperands_raise _ _, s.sameConfig_raise _ _, rfl, .inr ⟨c, rfl⟩⟩
    · rw [exec_cmdb hs] at ht
      cases ht
      exact ⟨s.sameOperands_setWork _, s.sameConfig_setWork _, rfl, .inl ⟨_, rfl, s.sameResults_setWork _, rfl, rfl,
        fun a _ => rfl⟩⟩
  case outside =>
    obtain hop | ⟨c, rfl⟩ := hi
    · obtain ⟨op, hop⟩ := Option.isSome_iff_exists.mp hop
      rw [eq_toInstr_of_toOp hop, exec_toInstr, State.onStream_outside s hs]
    · exact State.onStream_outside s hs fun w => .ok (w.loadCommandByte c)

/-! ### The length of OUT -/

theorem Memory.len_copyBack_le (count src : Nat) (m : Memory) : (Memory.copyBack count src m).len ≤ m.len + count := by
  induction count generalizing src m with
  | zero => exact Nat.le_refl _
  | succ count ih =>
    unfold Memory.copyBack
    split
    · exact Nat.le_trans (ih _ _) (by rw [Memory.len_append]; omega)
    · omega

/-- An operation in range appends at most nine bytes for each of its payload bytes: at most 18 for the two of a Sequence
(R192). -/
theorem PxdWork.len_out_of_apply {w w' : PxdWork} {range : PatternRange} {op : Op} (hop : op.wf = true)
    (h : w.apply range op = .ok w') : w'.out.len ≤ w.out.len + 9 * op.size := by
  obtain ⟨b, rfl, e⟩ | ⟨i, l, b0, b1, rfl, -, e⟩ | ⟨i, l, rfl, -, e⟩ | ⟨o, n, rfl, -, e⟩ | ⟨o, n, rfl, -, e⟩ :=
    w.apply_cases range op
  all_goals rw [e] at h; cases h
  · simp [Op.size]
  · simp [Op.size]
  · have hlen := Memory.len_copyBack_le n (w.copySource o).toNat w.out
    simp only [Op.wf, Bool.and_eq_true, decide_eq_true_eq] at hop
    simp only [PxdWork.advance_out, Op.size]
    omega

/-- OUT grows by at most nine bytes for each payload byte that is left. -/
theorem len_le_of_pxdLoop {range : PatternRange} {fuel : Nat} {w : PxdWork} {out : Memory}
    (h : pxdLoop range fuel w = .ok out) : out.len ≤ w.out.len + 9 * w.rest.length := by
  induction fuel generalizing w with
  | zero =>
    cases h
    exact Nat.le_add_right _ _
  | succ fuel ih =>
    rw [pxdLoop] at h
    cases hf : w.fetch with
    | finished =>
      rw [hf] at h
      cases h
      exact Nat.le_add_right _ _
    | truncated => rw [hf] at h; cases h
    | commandByte c =>
      rw [hf] at h
      have hlen := ih h
      rw [PxdWork.rest_loadCommandByte, List.length_drop, PxdWork.loadCommandByte_out] at hlen
      omega
    | operation op =>
      simp only [hf] at h
      split at h
      case h_2 => cases h
      rename_i w' happly
      obtain ⟨c, -, hdec⟩ := PxdWork.fetch_operation w hf
      obtain ⟨hwf, -⟩ := encodeOp_of_decodeOp hdec
      obtain ⟨hpayload, -, hpc⟩ := PxdWork.apply_ok happly
      have hlen := ih h
      have hout := PxdWork.len_out_of_apply hwf happly
      have hsize := decodeOp_size hdec
      rw [PxdWork.length_rest] at hlen hsize ⊢
      rw [hpayload, hpc] at hlen
      omega

/-- Settles O30: at the start of a run OUT is empty and the whole payload is left. -/
theorem pxdOutputIsBounded : Obligations.PxdOutputIsBounded := by
  intro range payload flags out h
  have hlen := len_le_of_pxdLoop h
  rwa [PxdWork.start_out, Memory.len_empty, Nat.zero_add, PxdWork.length_rest] at hlen

end Sys2Proof.Machine
end

section
/-! SUPPORT. The small-step view: a command runs on until it ends, and the ENGINE then waits, so any number of steps
that is large enough reaches the state of the atomic command; O28, O26, O31, O27 and O29 (10_state.md R21, R39,
40_px_compressor.md R132, R133, 41_px_decompressor.md R170 to R174, R187 to R191). -/

namespace Sys2Proof.Machine

variable {s t : State}

/-! ### Runs -/

theorem step_idle (hw : s.work = .idle) (hi : s.issued = false) : step s = .next s := by
  simp [step, hw, hi]

theorem run_succ (h : step s = .next t) (n : Nat) : Host.Core.run core (n + 1) s = Host.Core.run core n t := by
  simp only [Host.Core.run, show core.step s = .next t from h]

/-- With nothing in progress and nothing issued the ENGINE waits, however long (60_exceptions.md R290). -/
theorem run_idle (hw : s.work = .idle) (hi : s.issued = false) (n : Nat) : Host.Core.run core n s = .next s := by
  induction n with
  | zero => rfl
  | succ n ih => rw [run_succ (step_idle hw hi), ih]

/-- A run whose next step ends the command stays in the state it ends in. -/
theorem run_of_ends (h : step s = .next t) (hw : t.work = .idle) (hi : t.issued = false) (n : Nat) :
    Host.Core.run core (n + 1) s = .next t := by
  rw [run_succ h, run_idle hw hi]

/-! ### Planning -/

/-- The working state leaves no trace in the state a command ends in. -/
@[simp] theorem State.setWork_finish (s : State) (w : Work) (targets : Targets) (r : Except Raise Results) :
    (s.setWork w).finish targets r = s.finish targets r := by
  cases r <;> rfl

@[simp] theorem State.setWork_finishPlan (s : State) (v : Work) (w : PxcWork) :
    (s.setWork v).finishPlan w = s.finishPlan w :=
  s.setWork_finish v _ _

theorem State.finishPlan_ends (s : State) (w : PxcWork) :
    (s.finishPlan w).work = .idle ∧ (s.finishPlan w).issued = s.issued := by
  obtain ⟨-, heq⟩ | ⟨-, heq⟩ := s.finishPlan_cases w <;> rw [heq] <;> exact ⟨rfl, rfl⟩

theorem step_plan_some {w w' : PxcWork} (h : w.planNext s.src.bytes = some w') :
    step (s.setWork (.plan w)) = .next (s.setWork (.plan w')) := by
  simp [step, State.planStep, h]

theorem step_plan_none {w : PxcWork} (h : w.planNext s.src.bytes = none) :
    step (s.setWork (.plan w)) = .next (s.finishPlan w) := by
  simp [step, State.planStep, h]

theorem run_plan_none (hi : s.issued = false) {w : PxcWork} (h : w.planNext s.src.bytes = none) (n : Nat) :
    Host.Core.run core (n + 1) (s.setWork (.plan w)) = .next (s.finishPlan w) := by
  obtain ⟨hidle, hissued⟩ := s.finishPlan_ends w
  exact run_of_ends (step_plan_none h) hidle (hissued.trans hi) n

/-- As many steps as bytes are left, and one, plan what the loop plans and end the command (R133, R151). -/
theorem run_plan (hi : s.issued = false) {fuel : Nat} {w : PxcWork} (hw : w.Covers s.src.bytes)
    (hfuel : s.src.bytes.length ≤ w.cur + fuel) :
    Host.Core.run core (fuel + 1) (s.setWork (.plan w)) = .next (s.finishPlan (planLoop s.src.bytes fuel w)) := by
  induction fuel generalizing w with
  | zero => exact run_plan_none hi (PxcWork.planNext_eq_none.mpr hfuel) 0
  | succ fuel ih =>
    unfold planLoop
    cases hnext : w.planNext s.src.bytes with
    | none => exact run_plan_none hi hnext _
    | some w' =>
      obtain ⟨hcovers, hcur⟩ := hw.planNext hnext
      rw [run_succ (step_plan_some hnext)]
      exact ih hcovers (by omega)

/-- Settles O26: planning starts with nothing covered, so the input's length is enough. -/
theorem smallStepPlanningEndsAsTheCommand : Obligations.SmallStepPlanningEndsAsTheCommand := by
  intro s level order hi
  rw [plan, ← s.src.length_bytes]
  exact run_plan hi (PxcWork.covers_start level order) (Nat.le_add_left _ _)

/-! ### Decoding -/

/-- The end of a run that answers `r`: OUT becomes the result, or the cause is raised (R170, R191). -/
def State.closeStream (g : Goal) (r : Except Cause Memory) (s : State) : State :=
  match r with
  | .ok out => s.finishStream g out
  | .error c => s.raise ⟨.corruptContainer, c⟩ {}

theorem State.streamToEnd_eq (s : State) (g : Goal) (m : Memory) (flags : Cft) :
    s.streamToEnd g m flags = s.closeStream g (pxd s.params.patternRange m flags) := by
  unfold State.streamToEnd State.closeStream
  cases pxd s.params.patternRange m flags <;> rfl

theorem State.setWork_finishStream (s : State) (w : Work) (g : Goal) (out : Memory) :
    (s.setWork w).finishStream g out = s.finishStream g out := by
  unfold State.finishStream
  split <;> rfl

theorem State.closeStream_ends (s : State) (g : Goal) (r : Except Cause Memory) :
    (s.closeStream g r).work = .idle ∧ (s.closeStream g r).issued = s.issued := by
  cases r with
  | error c => exact ⟨rfl, rfl⟩
  | ok out =>
    obtain heq | ⟨-, heq⟩ := s.finishStream_cases g out <;> rw [State.closeStream, heq] <;> exact ⟨rfl, rfl⟩

section
variable {g : Goal} {w : PxdWork}

theorem step_finished (hw : s.work = .stream g w) (h : w.fetch = .finished) :
    step s = .next (s.finishStream g w.out) := by
  simp [step, hw, h, State.endStream]

theorem step_truncated (hw : s.work = .stream g w) (h : w.fetch = .truncated) :
    step s = .next (s.raise ⟨.corruptContainer, .truncatedPayload⟩ {}) := by
  simp [step, hw, h, State.endStream]

theorem step_commandByte (hw : s.work = .stream g w) {c : Byte} (h : w.fetch = .commandByte c) :
    step s = exec (.cmdb c) s := by
  simp [step, hw, h]

theorem step_operation (hw : s.work = .stream g w) {op : Op} (h : w.fetch = .operation op) :
    step s = exec op.toInstr s := by
  simp [step, hw, h]

/-- One element of the payload in a step and in the loop: the run goes on with fewer bytes left, in both alike, or it
ends, in both alike (R170). -/
theorem step_stream_cases (s : State) (g : Goal) (w : PxdWork) :
    (∃ r, step (s.setWork (.stream g w)) = .next (s.closeStream g r) ∧ (w.rest = [] → r = .ok w.out) ∧
      ∀ fuel, pxdLoop s.params.patternRange (fuel + 1) w = r) ∨
    (∃ w', step (s.setWork (.stream g w)) = .next (s.setWork (.stream g w')) ∧ w'.rest.length < w.rest.length ∧
      ∀ fuel, pxdLoop s.params.patternRange (fuel + 1) w = pxdLoop s.params.patternRange fuel w') := by
  have hwork : (s.setWork (.stream g w)).work = .stream g w := rfl
  cases hf : w.fetch with
  | finished =>
    refine .inl ⟨.ok w.out, ?_, fun _ => rfl, fun fuel => by rw [pxdLoop, hf]⟩
    rw [step_finished hwork hf, State.setWork_finishStream]
    rfl
  | truncated =>
    refine .inl ⟨.error .truncatedPayload, step_truncated hwork hf, fun hnil => ?_, fun fuel => by rw [pxdLoop, hf]⟩
    rw [(PxdWork.fetch_finished_iff w).mpr hnil] at hf
    cases hf
  | commandByte c =>
    refine .inr ⟨w.loadCommandByte c, ?_, ?_, fun fuel => by rw [pxdLoop, hf]⟩
    · rw [step_commandByte hwork hf, exec_cmdb hwork, State.setWork_setWork]
    · have hpc := PxdWork.pc_lt_of_fetch_commandByte hf
      rw [PxdWork.rest_loadCommandByte, List.length_drop, PxdWork.length_rest]
      omega
  | operation op =>
    have hsize := PxdWork.pc_add_size_le hf
    have hone := one_le_size op
    rw [step_operation hwork hf]
    obtain ⟨w', happly, heq⟩ | ⟨c, happly, heq⟩ := exec_toInstr_cases hwork op <;>
      rw [State.setWork_params] at happly
    · obtain ⟨hpayload, -, hpc⟩ := PxdWork.apply_ok happly
      refine .inr ⟨w', by rw [heq, State.setWork_setWork], ?_, fun fuel => by simp only [pxdLoop, hf, happly]⟩
      rw [PxdWork.length_rest, PxdWork.length_rest, hpayload, hpc]
      omega
    · refine .inl ⟨.error c, heq, fun hnil => ?_, fun fuel => by simp only [pxdLoop, hf, happly]⟩
      rw [(PxdWork.fetch_finished_iff w).mpr hnil] at hf
      cases hf

/-- As many steps as payload bytes are left, and one, end the command with what the loop answers (R174, R191). -/
theorem run_stream (hi : s.issued = false) {fuel : Nat} (hfuel : w.rest.length ≤ fuel) :
    Host.Core.run core (fuel + 1) (s.setWork (.stream g w)) =
      .next (s.closeStream g (pxdLoop s.params.patternRange fuel w)) := by
  induction fuel generalizing w with
  | zero =>
    have hnil : w.rest = [] := List.eq_nil_of_length_eq_zero (Nat.le_zero.mp hfuel)
    obtain ⟨r, hstep, hr, -⟩ | ⟨w', -, hlt, -⟩ := step_stream_cases s g w
    · obtain ⟨hidle, hissued⟩ := s.closeStream_ends g r
      rw [run_of_ends hstep hidle (hissued.trans hi), hr hnil, pxdLoop]
    · omega
  | succ fuel ih =>
    obtain ⟨r, hstep, -, hloop⟩ | ⟨w', hstep, hlt, hloop⟩ := step_stream_cases s g w
    · obtain ⟨hidle, hissued⟩ := s.closeStream_ends g r
      rw [run_of_ends hstep hidle (hissued.trans hi), hloop]
    · rw [run_succ hstep, ih (by omega), hloop]

end

/-- Settles O31: at the start of a run the whole payload is left. -/
theorem smallStepDecodingEndsAsTheCommand : Obligations.SmallStepDecodingEndsAsTheCommand := by
  intro s goal payload flags hi
  rw [State.streamToEnd_eq, pxd]
  exact run_stream hi (Nat.le_of_eq (PxdWork.length_rest _))

/-! ### Starting and ending in one step -/

theorem exec_pxd {flags : Cft} (h : s.cft.value = some flags) : exec .pxd s = .next (s.runStream .pxd s.src flags) := by
  simp only [exec, execPxd, h]

theorem exec_pxd_noValue (h : s.cft.value = none) :
    exec .pxd s = .next (s.raise ⟨.illegalCommand, .noValue⟩ {}) := by
  simp only [exec, execPxd, h]

theorem exec_fser_noValue (h : s.ct.value = none) :
    exec .fser s = .next (s.raise ⟨.illegalCommand, .noValue⟩ {}) := by
  simp only [exec, execFser, h]

theorem exec_fdec_noValue (h : s.ct.value = none) :
    exec .fdec s = .next (s.raise ⟨.illegalCommand, .noValue⟩ {}) := by
  simp only [exec, execFdec, h]

theorem State.runStream_operation (h : s.params.granularity = .operation) (g : Goal) (m : Memory) (flags : Cft) :
    s.runStream g m flags = s.setWork (.stream g (PxdWork.start m flags)) := by
  simp only [State.runStream, h]

theorem exec_pxc_operation (h : s.params.granularity = .operation) (hlen : s.src.len ≤ 2147483647) (level : Level)
    (order : Order) : exec (.pxc level order) s = .next (s.setWork (.plan (PxcWork.start level order))) := by
  simp only [exec, execPxc, h]
  exact if_neg (Nat.not_lt.mpr hlen)

/-- Settles O28: in the small-step view each command stops at the start of its run. -/
theorem smallStepCommandsStart : Obligations.SmallStepCommandsStart := by
  intro s hg start
  have hstart : ∀ g m flags, s.runStream g m flags = s.setWork (.stream g (start m flags)) :=
    fun g m flags => s.runStream_operation hg g m flags
  refine ⟨fun level order hlen => exec_pxc_operation hg hlen level order, fun flags hcft => ?_, fun n flags m hct => ?_,
    fun n flags d m hct => ?_, fun n flags d m hct => ?_⟩
  · rw [exec_pxd hcft, hstart]
  all_goals rw [exec_fdec hct, State.decompress, hstart]

/-- Settles O27: the loop's OUT is what PXD puts into DST. -/
theorem pxdCompletes : Obligations.PxdCompletes := by
  intro s flags out hcft hg hpxd
  rw [exec_pxd hcft, State.runStream_command hg, State.streamToEnd_ok hpxd]
  rfl

/-- Settles O29: a run raises what its loop answers, and a register without a value is refused before any run. -/
theorem decodingErrorsAreReported : Obligations.DecodingErrorsAreReported := by
  refine ⟨fun s flags c hcft hg hpxd => ⟨?run, ?cause⟩, fun s hcft => ?pxd, fun s hct => ⟨?fser, ?fdec⟩⟩
  case run => rw [exec_pxd hcft, State.runStream_command hg, State.streamToEnd_error hpxd]
  case cause =>
    obtain h | h | h := pxdLoop_error hpxd
    · exact .inr (.inr h)
    · exact .inl h
    · exact .inr (.inl h)
  case pxd => exact exec_pxd_noValue (by rw [hcft]; rfl)
  case fser => exact exec_fser_noValue (by rw [hct]; rfl)
  case fdec => exact exec_fdec_noValue (by rw [hct]; rfl)

end Sys2Proof.Machine
end

section
/-! SUPPORT. PXC and the PX containers: success where the bound fits, what is planned, and the whole way from the input
through FCOMP, FSER, DDES and FDEC and back; O17, O23, O39 and O45 (40_px_compressor.md R150, R154,
42_container_formats.md R206, R241, R242). -/

namespace Sys2Proof.Machine

/-! ### PXC -/

/-- PXC succeeds where the bound of its payload fits, with a payload inside the bound (R150). -/
theorem pxc_completes {input : Bytes} (h : packedBound input.length ≤ 65536) (fill : FlagFill) (level : Level)
    (order : Order) :
    ∃ r, pxc fill level order input = .ok r ∧ r.payload.length ≤ packedBound input.length := by
  have hbound := length_emit_plan_le (input := input) (buildFlags fill (plan level order input).rls) level order
  obtain ⟨hlarge, -⟩ | ⟨-, ⟨hlarge, -⟩ | ⟨-, heq⟩⟩ := pxc_cases fill level order input
  · simp only [packedBound] at h
    omega
  · omega
  · exact ⟨_, heq, hbound⟩

/-- Settles O17: the bound keeps PXC from both of its errors. -/
theorem pxcCompletes : Obligations.PxcCompletes := by
  intro s level order hg hbound
  obtain ⟨r, hr, -⟩ := pxc_completes (s.src.length_bytes.symm ▸ hbound) s.params.flagFill level order
  exact ⟨r, hr, by rw [exec_pxc_command hg, hr]; rfl⟩

/-- Settles O23: a copy of an equal run of 3 or more bytes starts 3 or more bytes back, and a pattern is that of its two
bytes. -/
theorem plannedOperationsAreInRange : Obligations.PlannedOperationsAreInRange := by
  intro level order input w
  have hplan := spelled_plan (input := input) level order
  refine ⟨hplan.set, fun op hop => ?_⟩
  obtain ⟨cur, hspells⟩ := hplan.spells.exists_spells op hop
  cases hspells with
  | literal h => exact ⟨nofun, nofun⟩
  | pattern h0 h1 h =>
    refine ⟨nofun, ?_⟩
    rintro _ _ ⟨⟩
    rw [pattern_of_classify h .fault]
    rfl
  | copy hthree hrun hcode =>
    refine ⟨?_, nofun⟩
    rintro _ _ ⟨⟩
    obtain ⟨hwindow, -, hmax, -, hend, -⟩ := hrun
    exact ⟨hthree, hmax, by omega, by omega, hcode⟩

/-! ### FCOMP -/

theorem wrapPx_of_pxc {p : Params} {hdr : Nat} {b : Bytes} {r : Packed}
    (hr : pxc p.flagFill p.fmtLevel p.fmtOrder b = .ok r) (hfits : hdr + r.payload.length ≤ 65535)
    (mk : BitVec 16 → Cft → Memory → Container) :
    wrapPx p hdr b mk = .ok (mk (BitVec.ofNat 16 (hdr + r.payload.length)) r.flags (Memory.ofBytes r.payload)) := by
  simp only [wrapPx, formatPxc, hr, totalSize_fits hfits]

/-- Settles O39: a payload inside its bound fits beside the header. -/
theorem pxContainersComplete : Obligations.PxContainersComplete := by
  intro s n packs
  have hlen : s.src.bytes.length = n := s.src.length_bytes
  have hwrap : ∀ {hdr : Nat} (mk : BitVec 16 → Cft → Memory → Container), packedBound n + hdr ≤ 65535 →
      ∃ r, packs r ∧ wrapPx s.params hdr s.src.bytes mk =
        .ok (mk (BitVec.ofNat 16 (hdr + r.payload.length)) r.flags (Memory.ofBytes r.payload)) := by
    intro hdr mk hbound
    obtain ⟨r, hr, hle⟩ := pxc_completes (input := s.src.bytes) (by rw [hlen]; omega) s.params.flagFill
      s.params.fmtLevel s.params.fmtOrder
    exact ⟨r, hr, wrapPx_of_pxc hr (by rw [hlen] at hle; omega) mk⟩
  refine ⟨fun h => ?at3px, fun h => ?at4px, fun h => ?pkdpx⟩
  case at3px =>
    obtain ⟨r, hr, heq⟩ := hwrap .at3px h
    exact ⟨r, hr, by rw [exec_fcompAt3px, heq]; rfl⟩
  case at4px =>
    obtain ⟨r, hr, heq⟩ := hwrap (fun total flags m => .at4px total flags (BitVec.ofNat 16 n) m) h
    have hshort : s.src.bytes.length ≤ 65535 := by
      simp only [packedBound] at h
      omega
    refine ⟨r, hr, ?_⟩
    rw [exec_fcompAt4px, compressAt4px_fits hshort, hlen, heq]
    rfl
  case pkdpx =>
    obtain ⟨r, hr, heq⟩ := hwrap (fun total flags m => .pkdpx total flags (BitVec.ofNat 32 n) m) h
    refine ⟨r, hr, ?_⟩
    rw [exec_fcompPkdpx, hlen, heq]
    rfl

/-! ### The container that FCOMP makes -/

/-- A PX container for an input: PXC's table and payload, with the input's length where the format stores one. -/
inductive Packs (p : Params) (input : Bytes) : Container → Prop
  | at3px {r : Packed} (hr : pxc p.flagFill p.fmtLevel p.fmtOrder input = .ok r) (n : BitVec 16) :
      Packs p input (.at3px n r.flags (Memory.ofBytes r.payload))
  | at4px {r : Packed} (hr : pxc p.flagFill p.fmtLevel p.fmtOrder input = .ok r) (n d : BitVec 16)
      (hd : input.length = d.toNat) : Packs p input (.at4px n r.flags d (Memory.ofBytes r.payload))
  | pkdpx {r : Packed} (hr : pxc p.flagFill p.fmtLevel p.fmtOrder input = .ok r) (n : BitVec 16) (d : BitVec 32)
      (hd : input.length = d.toNat) : Packs p input (.pkdpx n r.flags d (Memory.ofBytes r.payload))

theorem wrapPx_ok {p : Params} {hdr : Nat} {b : Bytes} {mk : BitVec 16 → Cft → Memory → Container} {c : Container}
    (h : wrapPx p hdr b mk = .ok c) :
    ∃ r, pxc p.flagFill p.fmtLevel p.fmtOrder b = .ok r ∧ ∃ n, c = mk n r.flags (Memory.ofBytes r.payload) := by
  obtain ⟨e, -, heq⟩ | ⟨r, hr, ⟨-, heq⟩ | ⟨-, -, heq⟩⟩ := wrapPx_cases p hdr b mk <;> rw [heq] at h <;> cases h
  exact ⟨r, hr, _, rfl⟩

theorem length_le_of_pxc {fill : FlagFill} {level : Level} {order : Order} {input : Bytes} {r : Packed}
    (h : pxc fill level order input = .ok r) : input.length ≤ 2147483647 := by
  obtain ⟨-, heq⟩ | ⟨hle, -⟩ := pxc_cases fill level order input
  · rw [heq] at h
    cases h
  · exact hle

/-- R206: the length an input of a PX format has fits the field it is stored in. -/
theorem packs_of_compressFormat {p : Params} {f : Format} {input : Bytes} {c : Container}
    (hf : f ∈ [Format.at3px, .at4px, .pkdpx]) (h : compressFormat p f input = .ok c) : Packs p input c := by
  cases f with
  | at4pn => simp at hf
  | atupx => simp at hf
  | at3px =>
    obtain ⟨r, hr, n, rfl⟩ := wrapPx_ok h
    exact .at3px hr n
  | at4px =>
    have hlen : input.length ≤ 65535 := by
      by_contra hlong
      rw [compressFormat, compressAt4px_tooLong (Nat.lt_of_not_le hlong)] at h
      cases h
    rw [compressFormat, compressAt4px_fits hlen] at h
    obtain ⟨r, hr, n, rfl⟩ := wrapPx_ok h
    exact .at4px hr n _ (by rw [BitVec.toNat_ofNat]; omega)
  | pkdpx =>
    rw [compressFormat, compressPkdpx] at h
    obtain ⟨r, hr, n, rfl⟩ := wrapPx_ok h
    have hlen := length_le_of_pxc hr
    exact .pkdpx hr n _ (by rw [BitVec.toNat_ofNat]; omega)

/-- FDEC of a packed input in one step answers the input (R193, R207). -/
theorem Packs.exec_fdec {p : Params} {input : Bytes} {c : Container} (h : Packs p input c) {s : State}
    (hct : s.ct.value = some c) (hg : s.params.granularity = .command) :
    exec .fdec s = .next (s.done { dst := some (Memory.ofBytes input) }) := by
  have hlen : (Memory.ofBytes input).len = input.length := Memory.len_ofBytes input
  have hout : ∀ {r : Packed}, pxc p.flagFill p.fmtLevel p.fmtOrder input = .ok r →
      pxd s.params.patternRange (Memory.ofBytes r.payload) r.flags = .ok (Memory.ofBytes input) :=
    fun hr => decompressInvertsCompress _ _ _ _ _ _ hr
  cases h with
  | at3px hr n =>
    obtain ⟨-, hok⟩ := pxContainersDecode s _ _ _ none hct hg (.inl ⟨n, rfl, rfl⟩)
    exact (hok _ (hout hr)).1 nofun
  | at4px hr n d hd =>
    obtain ⟨-, hok⟩ := pxContainersDecode s _ _ _ (some d.toNat) hct hg (.inr (.inl ⟨n, d, rfl, rfl⟩))
    refine (hok _ (hout hr)).1 ?_
    rintro _ ⟨⟩
    exact hlen.trans hd
  | pkdpx hr n d hd =>
    obtain ⟨-, hok⟩ := pxContainersDecode s _ _ _ (some d.toNat) hct hg (.inr (.inr ⟨n, d, rfl, rfl⟩))
    refine (hok _ (hout hr)).1 ?_
    rintro _ ⟨⟩
    exact hlen.trans hd

/-! ### Detection of what is serialised -/

theorem exists_containerBytes {c : Container} (h : c.format ≠ .at4pn) (p : Params) :
    ∃ b, containerBytes p c = some b := by
  cases hb : containerBytes p c with
  | some b => exact ⟨b, rfl⟩
  | none =>
    obtain ⟨⟨blob, rfl⟩, -⟩ := containerBytes_eq_none hb
    exact absurd rfl h

/-- The magic of a format with a layout (30_encoding.md R111); AT4PN has the plug-in's. -/
def layoutMagic : Format → Bytes
  | .at4pn => []
  | .at3px => magicAt3px
  | .at4px => magicAt4px
  | .atupx => magicAtupx
  | .pkdpx => magicPkdpx

section
variable {p : Params} {f f' : Format} {src : Bytes} {o : Nat}

theorem length_layoutMagic (h : f ≠ .at4pn) : (layoutMagic f).length = 5 := by
  cases f with
  | at4pn => exact absurd rfl h
  | at3px => rfl
  | at4px => rfl
  | atupx => rfl
  | pkdpx => rfl

theorem eq_of_layoutMagic_eq (h : layoutMagic f = layoutMagic f') : f = f' := by
  cases f <;> cases f' <;> revert h <;> decide

theorem matchesFormat_eq_startsWith (h : f ≠ .at4pn) :
    matchesFormat p f src o = startsWith (layoutMagic f) src o := by
  cases f with
  | at4pn => exact absurd rfl h
  | at3px => rfl
  | at4px => rfl
  | atupx => rfl
  | pkdpx => rfl

/-- A format with a layout parses only where its magic is. -/
theorem matchesFormat_of_parse {c : Container} (hf : f ≠ .at4pn) (h : parseFormat p f src o = .ok c) :
    matchesFormat p f src o = true := by
  have hstarts : ∀ {m : Bytes} {hdr : Nat} {mk : BitVec 16 → Container},
      (parseHeader m hdr src o).map mk = .ok c → startsWith m src o = true := by
    intro m hdr mk hmap
    cases hh : parseHeader m hdr src o with
    | error e => rw [hh] at hmap; cases hmap
    | ok n => exact (parseHeader_ok hh).1
  rw [matchesFormat_eq_startsWith hf]
  cases f with
  | at4pn => exact absurd rfl hf
  | at3px => exact hstarts h
  | at4px => exact hstarts h
  | atupx => exact hstarts h
  | pkdpx => exact hstarts h

/-- Without the plug-in's magic at most one format matches at an offset: the five bytes there are one magic. -/
theorem eq_of_matchesFormat (hplug : matchesPlug p src o = false) (h : matchesFormat p f src o = true)
    (h' : matchesFormat p f' src o = true) : f = f' := by
  have hlayout : ∀ {g}, matchesFormat p g src o = true → g ≠ .at4pn := by
    rintro _ hg rfl
    exact Bool.false_ne_true (hplug.symm.trans hg)
  have hmagic : ∀ {g}, matchesFormat p g src o = true → (src.drop o).take 5 = layoutMagic g := by
    intro g hg
    have hthere := hg
    rw [matchesFormat_eq_startsWith (hlayout hg), startsWith_iff, length_layoutMagic (hlayout hg)] at hthere
    exact hthere.2
  exact eq_of_layoutMagic_eq ((hmagic h).symm.trans (hmagic h'))

end

theorem detectFormat_of_unique {p : Params} {f : Format} {src : Bytes} {o : Nat} (h : matchesFormat p f src o = true)
    (hunique : ∀ g, matchesFormat p g src o = true → g = f) : detectFormat p src o = some f := by
  cases hd : detectFormat p src o with
  | none =>
    rw [detectFormat_eq_none_iff.mp hd f] at h
    cases h
  | some g =>
    obtain ⟨hg, -⟩ := detectFormat_eq_some_iff.mp hd
    rw [hunique g hg]

/-- DDES parses with the one format that matches (43_dispatcher.md R257). -/
theorem deserialize_of_parse {p : Params} {f : Format} {b : Bytes} {c : Container} (hf : f ≠ .at4pn)
    (hparse : parseFormat p f b 0 = .ok c) (hplug : matchesPlug p b 0 = false) : deserialize p b = .ok c := by
  have hmatch := matchesFormat_of_parse hf hparse
  rw [deserialize, detectFormat_of_unique hmatch fun g hg => eq_of_matchesFormat hplug hg hmatch]
  exact hparse

/-- Settles O45: what FCOMP makes is consistent, so it is written, parsed and decoded by the inverses shown before. -/
theorem containerRoundTrip : Obligations.ContainerRoundTrip := by
  intro p f input c hf hc
  have hmade := compressFormat_ok hc
  have hlayout : f ≠ .at4pn := by
    rintro rfl
    simp at hf
  obtain ⟨b, hb⟩ := exists_containerBytes (hmade.format ▸ hlayout) p
  refine ⟨b, serialize_of_bytes hmade.consistent hb, fun hplug => ?read, fun s hct hparams => ?decoded⟩
  case read =>
    obtain ⟨hparse, -⟩ := parseFormat_containerBytes p hmade.consistent hmade.canonical (hmade.format ▸ hlayout) hb
    exact deserialize_of_parse (hmade.format ▸ hlayout) hparse hplug
  case decoded => exact (packs_of_compressFormat hf hc).exec_fdec hct (by rw [hparams])

end Sys2Proof.Machine
end

section
/-! SUPPORT. A step as a whole: how a command ends, that exec of a command always answers a next state, and what no step
changes; O6, O7, O46, O2, O3, O53 and O54 (10_state.md R22, R25, R39, 43_dispatcher.md R251 to R253, 60_exceptions.md
R291, R306). -/

namespace Sys2Proof.Machine

variable {s t : State}

/-! ### How a command ends -/

theorem Held.kept_of_byHost {α : Type} {h : Held α} {v : α} (hv : h = .byHost v) : h.kept = h := by
  rw [hv]
  rfl

/-- Nothing is kept that the HOST did not write (10_state.md R39). -/
theorem Held.kept_of_not_byHost {α : Type} {h : Held α} (hv : ∀ v, h ≠ .byHost v) : h.kept = .none := by
  cases h with
  | none => rfl
  | byHost v => exact absurd rfl (hv v)
  | byEngine v => rfl

/-- Settles O6: a register that is written holds its result, any other what is kept of it. -/
theorem doneWritesOnlyTheResults : Obligations.DoneWritesOnlyTheResults := by
  intro s r t
  refine ⟨rfl, rfl, rfl, rfl, rfl, fun c h => ?ct, fun c h => ?cft, fun h => ?ctKept, fun h => ?cftKept, rfl, rfl,
    ⟨rfl, rfl, rfl, rfl, rfl⟩, rfl, rfl⟩
  case ct => rw [State.done_ct, h, Held.update_some]
  case cft => rw [State.done_cft, h, Held.update_some]
  case ctKept =>
    rw [State.done_ct, h, Held.update_none]
    exact ⟨fun _ => Held.kept_of_byHost, Held.kept_of_not_byHost⟩
  case cftKept =>
    rw [State.done_cft, h, Held.update_none]
    exact ⟨fun _ => Held.kept_of_byHost, Held.kept_of_not_byHost⟩

/-- Settles O7: a register that the command would have written is emptied, any other is left with what is kept of it. -/
theorem raiseAbandonsTheCommand : Obligations.RaiseAbandonsTheCommand := by
  intro s e w t
  refine ⟨rfl, rfl, rfl, rfl, rfl, fun h => ?ct, fun h => ?cft, fun h => ?ctKept, fun h => ?cftKept, rfl, rfl,
    ⟨rfl, rfl, rfl, rfl, rfl⟩, rfl, rfl⟩
  case ct => rw [State.raise_ct, h, Held.afterError_target]
  case cft => rw [State.raise_cft, h, Held.afterError_target]
  case ctKept =>
    rw [State.raise_ct, h, Held.afterError_other]
    exact ⟨fun _ => Held.kept_of_byHost, Held.kept_of_not_byHost⟩
  case cftKept =>
    rw [State.raise_cft, h, Held.afterError_other]
    exact ⟨fun _ => Held.kept_of_byHost, Held.kept_of_not_byHost⟩

/-! ### The mask of allowed formats -/

/-- The bit of a format is its own and no other's (10_state.md R23). -/
theorem isAllowed_allowedBit (f f' : Format) : isAllowed (allowedBit f) f' = decide (f' = f) := by
  cases f <;> cases f' <;> rfl

theorem isAllowed_or (a b : BitVec 5) (f : Format) : isAllowed (a ||| b) f = (isAllowed a f || isAllowed b f) :=
  BitVec.getLsbD_or

theorem isAllowed_and_not (a b : BitVec 5) (f : Format) :
    isAllowed (a &&& ~~~b) f = (isAllowed a f && !isAllowed b f) := by
  have hid : f.id.toNat < 5 := by cases f <;> decide
  simp [isAllowed, hid]

/-- Settles O46: a bit set or cleared in the mask is the answer for one format and no other. -/
theorem configCommandsEditTheConfiguration : Obligations.ConfigCommandsEditTheConfiguration := by
  intro s f
  refine ⟨⟨_, rfl, fun f' => ?allow⟩, ⟨_, rfl, fun f' => ?disallow⟩, fun b => rfl⟩
  case allow => rw [isAllowed_or, isAllowed_allowedBit, Bool.or_comm]
  case disallow => rw [isAllowed_and_not, isAllowed_allowedBit, Bool.and_comm]

/-! ### The element a step takes -/

/-- Settles O2: the issue is taken up where there is one, and else the ENGINE waits. -/
theorem stepRunsTheIssuedCommand : Obligations.StepRunsTheIssuedCommand :=
  ⟨fun s i hidle hissued hdec => by simp [step, hidle, hissued, hdec], fun _ => step_idle⟩

theorem PxdWork.fetch_of_cmdb_none {w : PxdWork} {c : Byte} {more : Bytes} (hc : w.cmdb = none)
    (hrest : w.rest = c :: more) : w.fetch = .commandByte c := by
  simp [PxdWork.fetch, hc, hrest]

/-- Settles O3: the three clauses are three elements that the fetch can find. -/
theorem stepRunsTheFetchedElement : Obligations.StepRunsTheFetchedElement :=
  ⟨fun _ _ _ _ _ hs hc hrest => step_commandByte hs (PxdWork.fetch_of_cmdb_none hc hrest),
    fun _ _ _ _ _ hs hc hdec => step_of_decodeOp hs hc hdec,
    fun _ _ w hs hrest => step_finished hs (w.fetch_finished_iff.mpr hrest)⟩

/-! ### What a command answers -/

theorem State.sameConfig_finish (s : State) (w : Targets) (r : Except Raise Results) : s.sameConfig (s.finish w r) := by
  cases r <;> exact ⟨rfl, rfl⟩

theorem State.sameConfig_finishStream (s : State) (g : Goal) (out : Memory) : s.sameConfig (s.finishStream g out) := by
  obtain heq | ⟨-, heq⟩ := s.finishStream_cases g out <;> rw [heq] <;> exact ⟨rfl, rfl⟩

theorem State.sameConfig_runStream (s : State) (g : Goal) (m : Memory) (flags : Cft) :
    s.sameConfig (s.runStream g m flags) := by
  obtain ⟨-, heq⟩ | ⟨-, out, -, heq⟩ | ⟨-, c, -, heq⟩ := s.runStream_cases g m flags <;> rw [heq]
  · exact ⟨rfl, rfl⟩
  · exact s.sameConfig_finishStream g out
  · exact ⟨rfl, rfl⟩

theorem State.sameConfig_decompress (s : State) (c : Container) : s.sameConfig (s.decompress c) := by
  cases c with
  | at3px n flags m => exact s.sameConfig_runStream _ m flags
  | at4px n flags d m => exact s.sameConfig_runStream _ m flags
  | pkdpx n flags d m => exact s.sameConfig_runStream _ m flags
  | atupx n d m => exact s.sameConfig_finish _ _
  | at4pn blob => exact s.sameConfig_finish _ _

/-- The three commands that write CFG (43_dispatcher.md R251 to R253). -/
def IsConfig (i : Instr) : Prop := (∃ f, i = .allow f) ∨ (∃ f, i = .disallow f) ∨ ∃ b, i = .setnative b

/-- Every host command answers a next state, and leaves CFG as it is unless it is one of the three that write it
(60_exceptions.md R306, 10_state.md R23, R24). -/
theorem exec_command {i : Instr} (hop : i.toOp = none) (hcmdb : ∀ c, i ≠ .cmdb c) (s : State) :
    ∃ t, exec i s = .next t ∧ (¬ IsConfig i → s.sameConfig t) := by
  cases i with
  | cmdb c => exact absurd rfl (hcmdb c)
  | copy b => cases hop
  | np0 l => cases hop
  | np1 l => cases hop
  | np2 l => cases hop
  | np3 l => cases hop
  | np4 l => cases hop
  | np5 l => cases hop
  | np6 l => cases hop
  | np7 l => cases hop
  | np8 l => cases hop
  | seq offset length => cases hop
  | pxc level order =>
    simp only [exec, execPxc]
    split
    · split <;> exact ⟨_, rfl, fun _ => ⟨rfl, rfl⟩⟩
    · exact ⟨_, rfl, fun _ => s.sameConfig_finish _ _⟩
  | pxd =>
    cases hcft : s.cft.value with
    | none => exact ⟨_, exec_pxd_noValue hcft, fun _ => ⟨rfl, rfl⟩⟩
    | some flags => exact ⟨_, exec_pxd hcft, fun _ => s.sameConfig_runStream _ _ _⟩
  | matchAt4pn => exact ⟨_, rfl, fun _ => ⟨rfl, rfl⟩⟩
  | matchAt3px => exact ⟨_, rfl, fun _ => ⟨rfl, rfl⟩⟩
  | matchAt4px => exact ⟨_, rfl, fun _ => ⟨rfl, rfl⟩⟩
  | matchAtupx => exact ⟨_, rfl, fun _ => ⟨rfl, rfl⟩⟩
  | matchPkdpx => exact ⟨_, rfl, fun _ => ⟨rfl, rfl⟩⟩
  | csizeAt4pn => exact ⟨_, rfl, fun _ => s.sameConfig_finish _ _⟩
  | csizeAt3px => exact ⟨_, rfl, fun _ => s.sameConfig_finish _ _⟩
  | csizeAt4px => exact ⟨_, rfl, fun _ => s.sameConfig_finish _ _⟩
  | csizeAtupx => exact ⟨_, rfl, fun _ => s.sameConfig_finish _ _⟩
  | csizePkdpx => exact ⟨_, rfl, fun _ => s.sameConfig_finish _ _⟩
  | fdesAt4pn => exact ⟨_, rfl, fun _ => s.sameConfig_finish _ _⟩
  | fdesAt3px => exact ⟨_, rfl, fun _ => s.sameConfig_finish _ _⟩
  | fdesAt4px => exact ⟨_, rfl, fun _ => s.sameConfig_finish _ _⟩
  | fdesAtupx => exact ⟨_, rfl, fun _ => s.sameConfig_finish _ _⟩
  | fdesPkdpx => exact ⟨_, rfl, fun _ => s.sameConfig_finish _ _⟩
  | fcompAt4pn => exact ⟨_, rfl, fun _ => s.sameConfig_finish _ _⟩
  | fcompAt3px => exact ⟨_, rfl, fun _ => s.sameConfig_finish _ _⟩
  | fcompAt4px => exact ⟨_, rfl, fun _ => s.sameConfig_finish _ _⟩
  | fcompAtupx => exact ⟨_, rfl, fun _ => s.sameConfig_finish _ _⟩
  | fcompPkdpx => exact ⟨_, rfl, fun _ => s.sameConfig_finish _ _⟩
  | fser =>
    cases hct : s.ct.value with
    | none => exact ⟨_, exec_fser_noValue hct, fun _ => ⟨rfl, rfl⟩⟩
    | some c => exact ⟨_, exec_fser hct, fun _ => s.sameConfig_finish _ _⟩
  | fdec =>
    cases hct : s.ct.value with
    | none => exact ⟨_, exec_fdec_noValue hct, fun _ => ⟨rfl, rfl⟩⟩
    | some c => exact ⟨_, exec_fdec hct, fun _ => s.sameConfig_decompress c⟩
  | allow f => exact ⟨_, rfl, fun h => absurd (.inl ⟨f, rfl⟩) h⟩
  | disallow f => exact ⟨_, rfl, fun h => absurd (.inr (.inl ⟨f, rfl⟩)) h⟩
  | setnative b => exact ⟨_, rfl, fun h => absurd (.inr (.inr ⟨b, rfl⟩)) h⟩
  | detect => exact ⟨_, rfl, fun _ => ⟨rfl, rfl⟩⟩
  | ddes => exact ⟨_, rfl, fun _ => s.sameConfig_finish _ _⟩
  | dcomp => exact ⟨_, rfl, fun _ => s.sameConfig_finish _ _⟩

/-- A command word stands for a host command: a PX operation and a command byte are written otherwise (30_encoding.md
R94, R116). -/
theorem command_of_decodeCommand {cw : BitVec 16} {i : Instr} (h : decodeCommand cw = .ok i) :
    i.toOp = none ∧ ∀ c, i ≠ .cmdb c := by
  have henc := encode_of_decodeCommand zeroFlags h
  refine ⟨Option.eq_none_iff_forall_ne_some.mpr fun op hop => ?_, ?_⟩
  · rw [eq_toInstr_of_toOp hop, encode_toInstr] at henc
    cases henc
  · rintro c rfl
    cases henc

theorem exec_of_decodeCommand {cw : BitVec 16} {i : Instr} (h : decodeCommand cw = .ok i) (s : State) :
    ∃ t, exec i s = .next t ∧ (¬ IsConfig i → s.sameConfig t) := by
  obtain ⟨hop, hcmdb⟩ := command_of_decodeCommand h
  exact exec_command hop hcmdb s

/-! ### Every step -/

/-- Settles O53: a command always answers, and inside a run so does every element of the payload. -/
theorem stepAlwaysAnswersANextState : Obligations.StepAlwaysAnswersANextState := by
  intro s
  cases hw : s.work with
  | plan w => exact ⟨s.planStep w, by simp [step, hw]⟩
  | idle =>
    cases hi : s.issued with
    | false => exact ⟨s, step_idle hw hi⟩
    | true =>
      cases hdec : decodeCommand s.cw with
      | error r => exact ⟨s.takeIssue.refuseCommand r, by simp [step, hw, hi, hdec]⟩
      | ok i =>
        obtain ⟨t, ht, -⟩ := exec_of_decodeCommand hdec s.takeIssue
        exact ⟨t, by simp [step, hw, hi, hdec, ht]⟩
  | stream g w =>
    cases hf : w.fetch with
    | finished => exact ⟨_, step_finished hw hf⟩
    | truncated => exact ⟨_, step_truncated hw hf⟩
    | commandByte c => exact ⟨_, (step_commandByte hw hf).trans (exec_cmdb hw c)⟩
    | operation op =>
      obtain ⟨w', -, heq⟩ | ⟨c, -, heq⟩ := exec_toInstr_cases hw op <;>
        exact ⟨_, (step_operation hw hf).trans heq⟩

/-- No move writes a parameter, an operand register or SRC (10_state.md R25, 20_memory.md R69). -/
theorem State.Moves.sameOperands (h : s.Moves t) : s.sameOperands t := by
  cases h <;> exact ⟨rfl, rfl, rfl, rfl, rfl⟩

theorem sameOperands_of_step (h : step s = .next t) : s.sameOperands t :=
  step_keeps (P := fun u => s.sameOperands u) (fun _ hu => hu)
    (fun _ _ hu hm => by
      obtain ⟨hp, hcw, ho, hc, hsrc⟩ := hm.sameOperands
      obtain ⟨hp', hcw', ho', hc', hsrc'⟩ := hu
      exact ⟨hp.trans hp', hcw.trans hcw', ho.trans ho', hc.trans hc', hsrc.trans hsrc'⟩)
    ⟨rfl, rfl, rfl, rfl, rfl⟩ h

theorem State.hostFits.of_sameOperands (h : s.hostFits) (hsame : s.sameOperands t) : t.hostFits := by
  obtain ⟨hp, -, ho, hc, hsrc⟩ := hsame
  exact ⟨hp ▸ h.lenw, hsrc ▸ hp ▸ h.src, ho ▸ hp ▸ h.offset, hc ▸ h.cand⟩

theorem State.sameConfig_planStep (s : State) (w : PxcWork) : s.sameConfig (s.planStep w) := by
  obtain ⟨w', -, heq⟩ | ⟨-, heq⟩ := s.planStep_cases w <;> rw [heq]
  · exact ⟨rfl, rfl⟩
  · exact s.sameConfig_finish _ _

/-- CFG is the same after every step that does not run one of the three commands that write it. -/
theorem sameConfig_of_step (h : step s = .next t) (hno : ∀ i, decodeCommand s.cw = .ok i → ¬ IsConfig i) :
    s.sameConfig t := by
  obtain ⟨-, -, rfl⟩ | ⟨-, -, i, hdec, hexec, -⟩ | ⟨-, -, -, rfl⟩ | ⟨⟨w, -, rfl⟩, -⟩ | ⟨⟨g, w, hw, hfetch⟩, -⟩ :=
    step_cases h
  · exact ⟨rfl, rfl⟩
  · obtain ⟨t', ht', hsame⟩ := exec_of_decodeCommand hdec s.takeIssue
    rw [ht'] at hexec
    cases hexec
    exact hsame (hno i hdec)
  · exact ⟨rfl, rfl⟩
  · exact s.sameConfig_planStep w
  · obtain ⟨-, rfl⟩ | ⟨c, -, hexec⟩ | ⟨op, -, hexec⟩ | ⟨-, rfl⟩ := hfetch
    · exact s.sameConfig_finishStream g w.out
    · rw [exec_cmdb hw] at hexec
      cases hexec
      exact ⟨rfl, rfl⟩
    · obtain ⟨w', -, heq⟩ | ⟨c, -, heq⟩ := exec_toInstr_cases hw op <;> rw [heq] at hexec <;> cases hexec <;>
        exact ⟨rfl, rfl⟩
    · exact ⟨rfl, rfl⟩

/-- Settles O54: the frame of the moves, and of CFG for every instruction but three. -/
theorem stepChangesConfigOnlyByItsCommands : Obligations.StepChangesConfigOnlyByItsCommands := by
  intro s t h
  have hsame := sameOperands_of_step h
  refine ⟨hsame, fun hfits => hfits.of_sameOperands hsame, fun hallow hdisallow hsetnative => ?config⟩
  case config =>
    refine sameConfig_of_step h fun i hdec hconfig => ?_
    obtain ⟨f, rfl⟩ | ⟨f, rfl⟩ | ⟨b, rfl⟩ := hconfig
    · exact hallow f hdec
    · exact hdisallow f hdec
    · exact hsetnative b hdec

end Sys2Proof.Machine
end
